-- ==== Sys2Proof/Word.lean ====
section
/-! DEFINITION. Word.lean: the bit-vector types of the engine (spec/00_scope.md R6: `u8`, `u16`, `u64`; all
values are unsigned). Nothing else stands here. -/

namespace Sys2Proof

/-- A `u8`: a general register, a timer, a memory cell. -/
abbrev Byte := BitVec 8

/-- A `u16`: `pc`, `I`, `sp`, an instruction word, an address while it is computed. -/
abbrev Word := BitVec 16

/-- A `u64`: one display row, bit 63 the leftmost column (spec/10_state.md R30). -/
abbrev PixelRow := BitVec 64

end Sys2Proof
end

