-- ==== Sys2Proof/Syntax.lean ====
section
/-! DEFINITION. Syntax.lean: the instructions, one constructor per row of spec/opcode_table.json (34 rows of
spec/30_encoding.md R95 and the fallback no-op of R96). -/

namespace Sys2Proof

/-- A register selector: a 4-bit field, so always in range (R21). -/
abbrev Reg := Fin 16

/-- The flag register VF (R22). -/
abbrev vf : Reg := 15

/-- A logical key identifier 0x0..0xF (R11, R31). -/
abbrev Key := Fin 16

/-- The instruction set. Fields: `x`, `y` register selectors, `nn` immediate byte, `nnn` 12-bit address, `n` sprite
height (R91, R92). -/
inductive Instr where
  /-- `00E0` CLS (R210) -/
  | cls
  /-- `00EE` RET (R141) -/
  | ret
  /-- `1nnn` JP nnn (R140) -/
  | jp (nnn : BitVec 12)
  /-- `2nnn` CALL nnn (R142) -/
  | call (nnn : BitVec 12)
  /-- `3xnn` SE Vx, nn (R145) -/
  | seImm (x : Reg) (nn : Byte)
  /-- `4xnn` SNE Vx, nn (R146) -/
  | sneImm (x : Reg) (nn : Byte)
  /-- `5xy0` SE Vx, Vy (R147) -/
  | seReg (x y : Reg)
  /-- `6xnn` LD Vx, nn (R161) -/
  | ldImm (x : Reg) (nn : Byte)
  /-- `7xnn` ADD Vx, nn (R162) -/
  | addImm (x : Reg) (nn : Byte)
  /-- `8xy0` LD Vx, Vy (R163) -/
  | ldReg (x y : Reg)
  /-- `8xy1` OR Vx, Vy (R164) -/
  | orReg (x y : Reg)
  /-- `8xy2` AND Vx, Vy (R165) -/
  | andReg (x y : Reg)
  /-- `8xy3` XOR Vx, Vy (R166) -/
  | xorReg (x y : Reg)
  /-- `8xy4` ADD Vx, Vy (R167) -/
  | addReg (x y : Reg)
  /-- `8xy5` SUB Vx, Vy (R168) -/
  | subReg (x y : Reg)
  /-- `8xy6` SHR Vx (R169); the field `y` is in the word and ignored -/
  | shr (x y : Reg)
  /-- `8xy7` SUBN Vx, Vy (R170) -/
  | subnReg (x y : Reg)
  /-- `8xyE` SHL Vx (R171); the field `y` is in the word and ignored -/
  | shl (x y : Reg)
  /-- `9xy0` SNE Vx, Vy (R148) -/
  | sneReg (x y : Reg)
  /-- `Annn` LD I, nnn (R190) -/
  | ldI (nnn : BitVec 12)
  /-- `Bnnn` JP V0, nnn (R143) -/
  | jpV0 (nnn : BitVec 12)
  /-- `Cxnn` RND Vx, nn (R172) -/
  | rnd (x : Reg) (nn : Byte)
  /-- `Dxyn` DRW Vx, Vy, n (R212) -/
  | drw (x y : Reg) (n : Fin 16)
  /-- `Ex9E` SKP Vx (R231) -/
  | skp (x : Reg)
  /-- `ExA1` SKNP Vx (R232) -/
  | sknp (x : Reg)
  /-- `Fx07` LD Vx, DT (R234) -/
  | ldVxDt (x : Reg)
  /-- `Fx0A` LD Vx, K (R233) -/
  | ldVxK (x : Reg)
  /-- `Fx15` LD DT, Vx (R235) -/
  | ldDtVx (x : Reg)
  /-- `Fx18` LD ST, Vx (R236) -/
  | ldStVx (x : Reg)
  /-- `Fx1E` ADD I, Vx (R191) -/
  | addI (x : Reg)
  /-- `Fx29` LD F, Vx (R192) -/
  | ldF (x : Reg)
  /-- `Fx33` LD B, Vx (R194) -/
  | ldB (x : Reg)
  /-- `Fx55` LD [I], Vx (R195) -/
  | storeRegs (x : Reg)
  /-- `Fx65` LD Vx, [I] (R196) -/
  | loadRegs (x : Reg)
  /-- every word that matches no row: the unrecognized no-op, with its raw word (R96, R122) -/
  | nop (w : Word)
  deriving DecidableEq, Repr

end Sys2Proof
end

