-- ==== Sys2Proof/Decode.lean ====
section
/-! DEFINITION. Decode.lean: byte order of an instruction word, its fields, the opcode map, the decoder (total) and
the encoder (spec/30_encoding.md R90 to R97, spec/20_memory.md R63). -/

namespace Sys2Proof

/-! ## Byte order and fields -/

/-- Two bytes in ascending address order are one big-endian word: the first is the high byte (R63). -/
def wordOfBytes (first second : Byte) : Word := first ++ second

/-- The high byte of a word, the one at the lower address (R63). -/
def highByte (w : Word) : Byte := w.extractLsb' 8 8

/-- The low byte of a word, the one at the higher address (R63). -/
def lowByte (w : Word) : Byte := w.extractLsb' 0 8

/-- The four bits of a word from bit `lo` up (R91). -/
def nibble (w : Word) (lo : Nat) : Fin 16 := ⟨w.toNat / 2 ^ lo % 16, Nat.mod_lt _ (by decide)⟩

/-- `type = op[15:12]` (R91). -/
def fieldType (w : Word) : Fin 16 := nibble w 12

/-- `x = op[11:8]` (R91). -/
def fieldX (w : Word) : Reg := nibble w 8

/-- `y = op[7:4]` (R91). -/
def fieldY (w : Word) : Reg := nibble w 4

/-- `n = op[3:0]` (R91). -/
def fieldN (w : Word) : Fin 16 := nibble w 0

/-- `nn = op[7:0]` (R91). -/
def fieldNn (w : Word) : Byte := w.extractLsb' 0 8

/-- `nnn = op[11:0]` (R91). -/
def fieldNnn (w : Word) : BitVec 12 := w.extractLsb' 0 12

/-! ## The opcode map, as the spec prints it -/

/-- One row of R95: the fixed bits of the pattern, and the number of the rule that gives the semantics. -/
structure OpcodeRow where
  rule  : Nat
  mask  : Word
  value : Word
  deriving DecidableEq, Repr

/-- A word matches a row iff `(op AND mask) = match` (R94). -/
def OpcodeRow.accepts (r : OpcodeRow) (w : Word) : Bool := w &&& r.mask == r.value

/-- R95, the rows of types 0 to 7. -/
def opcodeRowsLow : List OpcodeRow :=
  [⟨210, 0xFFFF, 0x00E0⟩, ⟨141, 0xFFFF, 0x00EE⟩] ++
  [⟨140, 0xF000, 0x1000⟩, ⟨142, 0xF000, 0x2000⟩, ⟨145, 0xF000, 0x3000⟩, ⟨146, 0xF000, 0x4000⟩] ++
  [⟨147, 0xF00F, 0x5000⟩, ⟨161, 0xF000, 0x6000⟩, ⟨162, 0xF000, 0x7000⟩]

/-- R95, the rows of type 8. -/
def opcodeRowsAlu : List OpcodeRow :=
  [⟨163, 0xF00F, 0x8000⟩, ⟨164, 0xF00F, 0x8001⟩, ⟨165, 0xF00F, 0x8002⟩, ⟨166, 0xF00F, 0x8003⟩] ++
  [⟨167, 0xF00F, 0x8004⟩, ⟨168, 0xF00F, 0x8005⟩, ⟨169, 0xF00F, 0x8006⟩, ⟨170, 0xF00F, 0x8007⟩] ++
  [⟨171, 0xF00F, 0x800E⟩]

/-- R95, the rows of types 9 to F. -/
def opcodeRowsHigh : List OpcodeRow :=
  [⟨148, 0xF00F, 0x9000⟩, ⟨190, 0xF000, 0xA000⟩, ⟨143, 0xF000, 0xB000⟩, ⟨172, 0xF000, 0xC000⟩] ++
  [⟨212, 0xF000, 0xD000⟩, ⟨231, 0xF0FF, 0xE09E⟩, ⟨232, 0xF0FF, 0xE0A1⟩] ++
  [⟨234, 0xF0FF, 0xF007⟩, ⟨233, 0xF0FF, 0xF00A⟩, ⟨235, 0xF0FF, 0xF015⟩, ⟨236, 0xF0FF, 0xF018⟩] ++
  [⟨191, 0xF0FF, 0xF01E⟩, ⟨192, 0xF0FF, 0xF029⟩, ⟨194, 0xF0FF, 0xF033⟩, ⟨195, 0xF0FF, 0xF055⟩] ++
  [⟨196, 0xF0FF, 0xF065⟩]

/-- R95: the 34 rows of the opcode map. -/
def opcodeMap : List OpcodeRow := opcodeRowsLow ++ opcodeRowsAlu ++ opcodeRowsHigh

/-- A word is recognized iff some row of the opcode map accepts it; the others are the no-ops of R96. -/
def recognized (w : Word) : Bool := opcodeMap.any (·.accepts w)

/-- The number of the rule of spec/ that gives an instruction its semantics (the opcode table's "rule" column). -/
def Instr.rule : Instr → Nat
  | .cls => 210 | .ret => 141 | .jp _ => 140 | .call _ => 142 | .seImm _ _ => 145 | .sneImm _ _ => 146
  | .seReg _ _ => 147 | .ldImm _ _ => 161 | .addImm _ _ => 162 | .ldReg _ _ => 163 | .orReg _ _ => 164
  | .andReg _ _ => 165 | .xorReg _ _ => 166 | .addReg _ _ => 167 | .subReg _ _ => 168 | .shr _ _ => 169
  | .subnReg _ _ => 170 | .shl _ _ => 171 | .sneReg _ _ => 148 | .ldI _ => 190 | .jpV0 _ => 143 | .rnd _ _ => 172
  | .drw _ _ _ => 212 | .skp _ => 231 | .sknp _ => 232 | .ldVxDt _ => 234 | .ldVxK _ => 233 | .ldDtVx _ => 235
  | .ldStVx _ => 236 | .addI _ => 191 | .ldF _ => 192 | .ldB _ => 194 | .storeRegs _ => 195 | .loadRegs _ => 196
  | .nop _ => 122

/-! ## The decoder -/

/-- Type 0: both rows are full 16-bit matches (R94, D11). -/
def decodeSystem (w : Word) : Instr :=
  if w = 0x00E0 then .cls else if w = 0x00EE then .ret else .nop w

/-- Type 8: the nine operations, by `n` (R95, D14). -/
def decodeAlu (w : Word) : Instr :=
  match (fieldN w).val with
  | 0x0 => .ldReg (fieldX w) (fieldY w)
  | 0x1 => .orReg (fieldX w) (fieldY w)
  | 0x2 => .andReg (fieldX w) (fieldY w)
  | 0x3 => .xorReg (fieldX w) (fieldY w)
  | 0x4 => .addReg (fieldX w) (fieldY w)
  | 0x5 => .subReg (fieldX w) (fieldY w)
  | 0x6 => .shr (fieldX w) (fieldY w)
  | 0x7 => .subnReg (fieldX w) (fieldY w)
  | 0xE => .shl (fieldX w) (fieldY w)
  | _   => .nop w

/-- Type E: by `nn` (R95). -/
def decodeKey (w : Word) : Instr :=
  if fieldNn w = 0x9E then .skp (fieldX w) else if fieldNn w = 0xA1 then .sknp (fieldX w) else .nop w

/-- Type F: by `nn` (R95). -/
def decodeMisc (w : Word) : Instr :=
  match (fieldNn w).toNat with
  | 0x07 => .ldVxDt (fieldX w)
  | 0x0A => .ldVxK (fieldX w)
  | 0x15 => .ldDtVx (fieldX w)
  | 0x18 => .ldStVx (fieldX w)
  | 0x1E => .addI (fieldX w)
  | 0x29 => .ldF (fieldX w)
  | 0x33 => .ldB (fieldX w)
  | 0x55 => .storeRegs (fieldX w)
  | 0x65 => .loadRegs (fieldX w)
  | _    => .nop w

/-- R94: "Dispatch is by `type`, with secondary dispatch by `n` or `nn`". Total: a word no row accepts is the
unrecognized no-op; decoding never faults. -/
def decodeWord (w : Word) : Instr :=
  match (fieldType w).val with
  | 0x0 => decodeSystem w
  | 0x1 => .jp (fieldNnn w)
  | 0x2 => .call (fieldNnn w)
  | 0x3 => .seImm (fieldX w) (fieldNn w)
  | 0x4 => .sneImm (fieldX w) (fieldNn w)
  | 0x5 => if (fieldN w).val = 0 then .seReg (fieldX w) (fieldY w) else .nop w
  | 0x6 => .ldImm (fieldX w) (fieldNn w)
  | 0x7 => .addImm (fieldX w) (fieldNn w)
  | 0x8 => decodeAlu w
  | 0x9 => if (fieldN w).val = 0 then .sneReg (fieldX w) (fieldY w) else .nop w
  | 0xA => .ldI (fieldNnn w)
  | 0xB => .jpV0 (fieldNnn w)
  | 0xC => .rnd (fieldX w) (fieldNn w)
  | 0xD => .drw (fieldX w) (fieldY w) (fieldN w)
  | 0xE => decodeKey w
  | _   => decodeMisc w

/-- Why a byte list does not begin with an instruction. -/
inductive DecodeReject where
  /-- fewer than the two bytes of an instruction are left (R90) -/
  | truncated
  deriving DecidableEq, Repr

/-- The instruction at the head of a byte list, in ascending address order, with the bytes after it. Total: the one
rejection, by name, is a list shorter than an instruction. -/
def decode : List Byte → Except DecodeReject (Instr × List Byte)
  | first :: second :: rest => .ok (decodeWord (wordOfBytes first second), rest)
  | [_]                     => .error .truncated
  | []                      => .error .truncated

/-! ## The encoder -/

/-- Four nibbles as one word, most significant first (R91). -/
def wordOfNibbles (a b c d : Fin 16) : Word :=
  BitVec.ofNat 16 (a.val * 4096 + b.val * 256 + c.val * 16 + d.val)

/-- Formats `REGIMM` and `REGFN`: type, `x`, `nn` (R92). -/
def wordXNn (type x : Fin 16) (nn : Byte) : Word :=
  BitVec.ofNat 16 (type.val * 4096 + x.val * 256 + nn.toNat)

/-- Format `ADDR`: type, `nnn` (R92). -/
def wordNnn (type : Fin 16) (nnn : BitVec 12) : Word := BitVec.ofNat 16 (type.val * 4096 + nnn.toNat)

/-- The word of an instruction, from the patterns of R95. -/
def encode : Instr → Word
  | .cls         => 0x00E0
  | .ret         => 0x00EE
  | .jp nnn      => wordNnn 0x1 nnn
  | .call nnn    => wordNnn 0x2 nnn
  | .seImm x nn  => wordXNn 0x3 x nn
  | .sneImm x nn => wordXNn 0x4 x nn
  | .seReg x y   => wordOfNibbles 0x5 x y 0x0
  | .ldImm x nn  => wordXNn 0x6 x nn
  | .addImm x nn => wordXNn 0x7 x nn
  | .ldReg x y   => wordOfNibbles 0x8 x y 0x0
  | .orReg x y   => wordOfNibbles 0x8 x y 0x1
  | .andReg x y  => wordOfNibbles 0x8 x y 0x2
  | .xorReg x y  => wordOfNibbles 0x8 x y 0x3
  | .addReg x y  => wordOfNibbles 0x8 x y 0x4
  | .subReg x y  => wordOfNibbles 0x8 x y 0x5
  | .shr x y     => wordOfNibbles 0x8 x y 0x6
  | .subnReg x y => wordOfNibbles 0x8 x y 0x7
  | .shl x y     => wordOfNibbles 0x8 x y 0xE
  | .sneReg x y  => wordOfNibbles 0x9 x y 0x0
  | .ldI nnn     => wordNnn 0xA nnn
  | .jpV0 nnn    => wordNnn 0xB nnn
  | .rnd x nn    => wordXNn 0xC x nn
  | .drw x y n   => wordOfNibbles 0xD x y n
  | .skp x       => wordXNn 0xE x 0x9E
  | .sknp x      => wordXNn 0xE x 0xA1
  | .ldVxDt x    => wordXNn 0xF x 0x07
  | .ldVxK x     => wordXNn 0xF x 0x0A
  | .ldDtVx x    => wordXNn 0xF x 0x15
  | .ldStVx x    => wordXNn 0xF x 0x18
  | .addI x      => wordXNn 0xF x 0x1E
  | .ldF x       => wordXNn 0xF x 0x29
  | .ldB x       => wordXNn 0xF x 0x33
  | .storeRegs x => wordXNn 0xF x 0x55
  | .loadRegs x  => wordXNn 0xF x 0x65
  | .nop w       => w

/-- The two bytes of an instruction in ascending address order: what memory holds (R63). -/
def encodeBytes (i : Instr) : List Byte := [highByte (encode i), lowByte (encode i)]

/-! ## The opcode table's numbering -/

/-- The word that opcode_table.json's numbering calls `w`: bit 0 the least significant bit of the first and only
16-bit word; bits from `nbits` up are 0. -/
def tableWord (nbits w : Nat) : Word := BitVec.ofNat 16 (w % 2 ^ nbits)

/-- What the decoder reads from the two bytes of the table's word, laid out as memory holds them. -/
def decodeTableWord (nbits w : Nat) : Option Instr :=
  match decode [highByte (tableWord nbits w), lowByte (tableWord nbits w)] with
  | .ok (i, _) => some i
  | .error _   => none

end Sys2Proof
end

