-- ==== Sys2Proof/Config.lean ====
section
/-! DEFINITION. Config.lean: the implementation parameters of spec/00_scope.md R5 and the free values (constants
with no body) of what the spec leaves open. -/

namespace Sys2Proof.Config

/-- `MEM_SIZE`: bytes of memory, addresses 0x000..0xFFF (R5, R28). -/
abbrev memSize : Nat := 4096

/-- `FONT_BASE` (R5). -/
abbrev fontBase : Nat := 0x050

/-- `FONT_SIZE`: 16 glyphs of `GLYPH_SIZE` = 5 bytes, 0x050..0x09F (R5, R29). -/
abbrev fontSize : Nat := 80

/-- `GLYPH_SIZE` (R5). -/
abbrev glyphSize : Nat := 5

/-- `PROG_BASE`, the fixed entry point and the reset value of `pc` (R5, R23). -/
abbrev progBase : Word := 0x0200

/-- `PROG_MAX` = 4096 - 0x200 (R5, R69). -/
abbrev progMax : Nat := 3584

/-- `SP_INIT`, equal to the program base (R5, R25). -/
abbrev spInit : Word := 0x0200

/-- `DISP_COLS` (R5, R30); also `DRAW_COL_MOD`. -/
abbrev dispCols : Nat := 64

/-- `DISP_ROWS` (R5, R30). -/
abbrev dispRows : Nat := 32

/-- `DRAW_ROW_MOD`: 64 as the source says, not 32 (R214, spec/90_conflicts.md C2, D23). DESIGN CHOICE, log 22. -/
abbrev drawRowMod : Nat := 64

/-- `Y_WRAP`: the strap sampled at reset by `State.reset`. The spec leaves it open (R35, D22); `State.boot` takes it
as an argument. DESIGN CHOICE, unsafe, log 4. -/
abbrev yWrap : Bool := false

/-- `FONT`, the default table of R29, glyphs 0 to 7. -/
def fontLow : List Byte :=
  [0xF0, 0x90, 0x90, 0x90, 0xF0] ++ [0x20, 0x60, 0x20, 0x20, 0x70] ++
  [0xF0, 0x10, 0xF0, 0x80, 0xF0] ++ [0xF0, 0x10, 0xF0, 0x10, 0xF0] ++
  [0x90, 0x90, 0xF0, 0x10, 0x10] ++ [0xF0, 0x80, 0xF0, 0x10, 0xF0] ++
  [0xF0, 0x80, 0xF0, 0x90, 0xF0] ++ [0xF0, 0x10, 0x20, 0x40, 0x40]

/-- `FONT`, the default table of R29, glyphs 8 to F. -/
def fontHigh : List Byte :=
  [0xF0, 0x90, 0xF0, 0x90, 0xF0] ++ [0xF0, 0x90, 0xF0, 0x10, 0xF0] ++
  [0xF0, 0x90, 0xF0, 0x90, 0x90] ++ [0xE0, 0x90, 0xE0, 0x90, 0xE0] ++
  [0xF0, 0x80, 0x80, 0x80, 0xF0] ++ [0xE0, 0x90, 0x90, 0x90, 0xE0] ++
  [0xF0, 0x80, 0xF0, 0x80, 0xF0] ++ [0xF0, 0x80, 0xF0, 0x80, 0x80]

/-- `FONT`: the 80 glyph bytes `State.reset` holds. The spec leaves them open and gives this table as the default
(R29, D21). PRESUMED, unsafe, log 3. -/
def font : List Byte := fontLow ++ fontHigh

/-- `RNG`: what `random_byte()` answers at its n-th call where `State.randomInput` has decided nothing (R172, R269, D29). A
free value: nothing constrains it. Log 8. -/
opaque randomByte : Nat → Byte

/-- `KEY_PICK`: the free choice behind Fx0A's n-th capture where `State.keyInput` has decided nothing; it indexes the list of
held keys (R233, D27). A free value: nothing constrains it. Log 9. -/
opaque keyChoice : Nat → Nat

end Sys2Proof.Config
end

