-- ==== Sys2Proof/Machine/State.lean ====
section
/-! DEFINITION. Machine/State.lean: the machine state of spec/10_state.md (R20 to R41), the model's own input and output
fields, the reasons a step can stop, and the state after reset (R39, R300). Plain data throughout. -/

namespace Sys2Proof.Machine

/-- `memory` (R28), as the listed cells: addresses strictly rising, no cell equal to what an unlisted address reads
as (`Memory.unlisted`, Ops.lean). -/
abbrev Memory := List Host.Cell

/-- The causes of R250 with their recorded value. Raised by `raise` (Ops.lean) only. -/
inductive FaultCause where
  /-- code 1: a byte access at an address above 0x0FFF; the 16-bit address (R62). Raised by instruction fetch, 00EE,
  2nnn, Dxyn, Fx33, Fx55, Fx65. -/
  | memoryOutOfRange (a : Word)
  /-- code 2: a key index above 0x0F; the byte (R230). Raised by Ex9E, ExA1. -/
  | keyIndexOutOfRange (k : Byte)
  deriving DecidableEq, Repr

/-- What `raise` records: the cause and `current_opcode` (R250, R251). -/
structure FaultRecord where
  cause  : FaultCause
  opcode : Word
  deriving DecidableEq, Repr

/-- The two flags of the debug port (R36, R272). -/
inductive DebugFlag where
  | stepMode
  | advance
  deriving DecidableEq, Repr

/-- The step kinds of R10 and R258: what can happen next. -/
inductive StepKind where
  /-- one tick of the instruction clock (R120) -/
  | instrTick
  /-- one tick of the timer/frame clock (R262) -/
  | timerTick
  /-- the key feed reports key `k` down (R266) -/
  | keyDown (k : Key)
  /-- the key feed reports key `k` up (R266) -/
  | keyUp (k : Key)
  /-- the debug port writes one of its flags (R272) -/
  | debugSet (flag : DebugFlag) (b : Bool)
  /-- the external shutdown signal (R277) -/
  | shutdown
  deriving DecidableEq, Repr

/-- The output pulses of R270. -/
inductive Output where
  /-- "start continuous tone" (R264) -/
  | toneStart
  /-- "stop tone" (R264) -/
  | toneStop
  /-- the display buffer is ready to be drawn (R262, R265) -/
  | frameReady
  deriving DecidableEq, Repr

/-- Everything the spec gives the machine (the table of R39), then the model's own fields. -/
structure State where
  /-- `V[0]`..`V[15]` (R21, R22) -/
  v             : Vector Byte 16
  /-- `program_counter` (R23) -/
  pc            : Word
  /-- `I`, `index_register` (R24) -/
  index         : Word
  /-- `stack_pointer` (R25) -/
  sp            : Word
  /-- `DT`, `delay_timer` (R26) -/
  dt            : Byte
  /-- `ST`, `sound_timer` (R27) -/
  st            : Byte
  /-- `memory` (R28) -/
  mem           : Memory
  /-- `display[0..31]` (R30) -/
  display       : Vector PixelRow 32
  /-- `keys_held[0..15]` (R31) -/
  keysHeld      : Vector Bool 16
  /-- `waiting_for_key`: false is Idle, true is Waiting (R32) -/
  waitingForKey : Bool
  /-- `key_captured` (R33) -/
  keyCaptured   : Bool
  /-- `current_opcode`, the last fetched word (R34) -/
  currentOpcode : Word
  /-- `y_wrap_enabled`, the strap `Y_WRAP` (R35) -/
  yWrapEnabled  : Bool
  /-- `step_mode` (R36) -/
  stepMode      : Bool
  /-- `advance` (R36) -/
  advance       : Bool
  /-- `tone_on`, the last tone command sent (R37) -/
  toneOn        : Bool
  /-- `faulted` with its cause record: none is 0 (R38, R251) -/
  faulted       : Option FaultRecord
  /-- MODEL'S OWN: the steps the environment has already decided, next first; when it is empty the next step is an
  `InstrTick` (R260; log 5) -/
  schedule      : List StepKind
  /-- MODEL'S OWN: the output pulses sent so far, oldest first; no step reads it (R264, R265; log 10) -/
  emitted       : List Output
  /-- MODEL'S OWN: a `Shutdown` step has happened (R277; log 7) -/
  shutDown      : Bool
  /-- MODEL'S OWN: the bytes the random source has already decided, next first; when it is empty the next byte is the
  free value `Config.randomByte` (R172, R269; log 8) -/
  randomInput   : List Byte
  /-- MODEL'S OWN: how many bytes `draw8()` has supplied; the argument of the free value `Config.randomByte`
  (R172; log 8) -/
  draws         : Nat
  /-- MODEL'S OWN: the choices among several held keys already decided, next first; when it is empty the next choice is
  the free value `Config.keyChoice` (R233; log 9) -/
  keyInput      : List Nat
  /-- MODEL'S OWN: how many keys Fx0A has captured; the argument of the free value `Config.keyChoice` (R233; log 9) -/
  picks         : Nat
  deriving DecidableEq, Repr

/-- Why the machine stops without a next state. The spec's own two faults are no constructors of this type: they are
state (`State.faulted`), as R251 and R38 describe them. -/
inductive Fault where
  /-- A step was asked for after `Shutdown`: "After it no step occurs" (R277). Raised by `step` only, by no
  instruction. Safe: nothing is claimed of a machine that was shut down. -/
  | shutDown
  deriving DecidableEq, Repr

/-- Why an instruction has no meaning. No arm of `exec` answers it: every instruction is modelled. -/
inductive Refusal where
  /-- The instruction of that mnemonic is not modelled. Would be raised by its arm of `exec`; safe. -/
  | notModelled (mnemonic : String)
  deriving DecidableEq, Repr

/-- The state after reset with no program image loaded (R39, R300): registers zeroed, `pc` and `sp` at 0x200, memory
with nothing listed (so the font and 0x00, R28), every other field 0 (D19, log 1; the strap, log 4). `State.boot`
(Boot.lean) is reset with an image, a font and a strap. -/
def State.reset : State where
  v             := Vector.replicate 16 0
  pc            := Config.progBase
  index         := 0
  sp            := Config.spInit
  dt            := 0
  st            := 0
  mem           := []
  display       := Vector.replicate 32 0
  keysHeld      := Vector.replicate 16 false
  waitingForKey := false
  keyCaptured   := false
  currentOpcode := 0
  yWrapEnabled  := Config.yWrap
  stepMode      := false
  advance       := false
  toneOn        := false
  faulted       := none
  schedule      := []
  emitted       := []
  shutDown      := false
  randomInput   := []
  draws         := 0
  keyInput      := []
  picks         := 0

end Sys2Proof.Machine
end

