-- ==== Sys2Proof/Machine/Ops.lean ====
section
/-! DEFINITION. Machine/Ops.lean: the named operations over memory, registers and the other fields; the access
primitives `MemRead` and `MemWrite` of spec/20_memory.md R62; taking a fault (`raise`, spec/60_exceptions.md R251).
The machine has no return from a fault (R255), so none stands here. -/

namespace Sys2Proof.Machine

/-! ## Memory in canonical form -/

/-- What an address that no cell lists reads as: the reset contents of memory, the font at 0x050..0x09F (R29) and 0x00
elsewhere (R28, D20). DESIGN CHOICE and PRESUMED, unsafe, log 2 and log 3. -/
def Memory.unlisted (a : Nat) : Byte :=
  if Config.fontBase ≤ a then Config.font.getD (a - Config.fontBase) 0 else 0

/-- The byte at an address (R28). -/
def Memory.read (m : Memory) (a : Nat) : Byte :=
  match m with
  | []     => Memory.unlisted a
  | c :: m => if c.1 = a then c.2 else Memory.read m a

/-- Put the cell `(a, b)` in front, unless `a` reads as `b` without it. -/
def Memory.cons (a : Nat) (b : Byte) (m : Memory) : Memory :=
  if b = Memory.unlisted a then m else (a, b) :: m

/-- Set the byte at an address, keeping the canonical form. -/
def Memory.write (m : Memory) (a : Nat) (b : Byte) : Memory :=
  match m with
  | []     => Memory.cons a b []
  | c :: m =>
    if a < c.1 then Memory.cons a b (c :: m)
    else if a = c.1 then Memory.cons a b m
    else c :: Memory.write m a b

/-- Set bytes at ascending addresses from `a` on: how the program image and the font are loaded (R69). -/
def Memory.load (m : Memory) (a : Nat) : List Byte → Memory
  | []      => m
  | b :: bs => Memory.load (m.write a b) (a + 1) bs

/-- The canonical form: addresses strictly rising and inside the memory, no cell equal to what it reads as unlisted. -/
abbrev Memory.wf (m : Memory) : Prop :=
  m.Pairwise (fun c d => c.1 < d.1) ∧ ∀ c ∈ m, c.1 < Config.memSize ∧ c.2 ≠ Memory.unlisted c.1

/-! ## Registers and the other fields, one accessor each -/

/-- `V[r]` (R21). -/
def State.reg (s : State) (r : Reg) : Byte := s.v.get r

/-- `V[r] <- b` (R21). -/
def State.setReg (s : State) (r : Reg) (b : Byte) : State := { s with v := s.v.set r b }

/-- `pc <- w` (R23). -/
def State.setPc (s : State) (w : Word) : State := { s with pc := w }

/-- `I <- w` (R24). -/
def State.setIndex (s : State) (w : Word) : State := { s with index := w }

/-- `sp <- w` (R25). -/
def State.setSp (s : State) (w : Word) : State := { s with sp := w }

/-- `DT <- b` (R26). -/
def State.setDt (s : State) (b : Byte) : State := { s with dt := b }

/-- `ST <- b` (R27). -/
def State.setSt (s : State) (b : Byte) : State := { s with st := b }

/-- The byte at an address of memory, unchecked (R28). -/
def State.byteAt (s : State) (a : Nat) : Byte := s.mem.read a

/-- `memory[a] <- b`, unchecked (R28). -/
def State.setByte (s : State) (a : Nat) (b : Byte) : State := { s with mem := s.mem.write a b }

/-- `display[r]` (R30). -/
def State.row (s : State) (r : Fin 32) : PixelRow := s.display.get r

/-- `display[r] <- p` (R30). -/
def State.setRow (s : State) (r : Fin 32) (p : PixelRow) : State := { s with display := s.display.set r p }

/-- The pixel at column `c` (0 = leftmost) of row `r` is `display[r][63-c]` (R30). -/
def State.pixel (s : State) (r : Fin 32) (c : Fin 64) : Bool := (s.row r).getLsbD (63 - c.val)

/-- `for r = 0..31: display[r] <- 0` (R210). -/
def State.clearDisplay (s : State) : State := { s with display := Vector.replicate 32 0 }

/-- `keys_held[k]` (R31). -/
def State.held (s : State) (k : Key) : Bool := s.keysHeld.get k

/-- `keys_held[k] <- b` (R31, R266). -/
def State.setHeld (s : State) (k : Key) (b : Bool) : State := { s with keysHeld := s.keysHeld.set k b }

/-- Idle to Waiting (R233): `waiting_for_key <- 1`, `key_captured <- 0` (D28). -/
def State.enterWaiting (s : State) : State := { s with waitingForKey := true, keyCaptured := false }

/-- Waiting to Idle (R233): `waiting_for_key <- 0`, `key_captured <- 1` (D28); one more choice is used. -/
def State.leaveWaiting (s : State) : State :=
  { s with waitingForKey := false, keyCaptured := true, keyInput := s.keyInput.tail, picks := s.picks + 1 }

/-- `current_opcode <- w` (R34). -/
def State.setOpcode (s : State) (w : Word) : State := { s with currentOpcode := w }

/-- `advance <- b` (R36). -/
def State.setAdvance (s : State) (b : Bool) : State := { s with advance := b }

/-- `step_mode <- b` (R36). -/
def State.setStepMode (s : State) (b : Bool) : State := { s with stepMode := b }

/-- One more byte of `draw8()` is used (R172). -/
def State.countDraw (s : State) : State := { s with randomInput := s.randomInput.tail, draws := s.draws + 1 }

/-- The extra `pc <- pc +_16 2` of a taken skip (R144), the same addition as the advance (R121). -/
def State.skip (s : State) : State := s.setPc (s.pc + 2)

/-- `pc <- pc -_16 2`: Fx0A back onto itself (R233). -/
def State.rewind (s : State) : State := s.setPc (s.pc - 2)

/-! ## Faults -/

/-- `raise F(info)`: `faulted <- 1`, the cause and `current_opcode` are recorded, nothing else changes (R251, R250). -/
def raise (c : FaultCause) (s : State) : State :=
  { s with faulted := some { cause := c, opcode := s.currentOpcode } }

/-- A computation inside one step: it is done with a value, or it has met a failing check, with the cause and the
state in which the writes made before it stand (R125). -/
inductive Attempt (α : Type) where
  | done (x : α)
  | raised (c : FaultCause) (s : State)

/-- Go on with the value; a failing check ends the step (R125, R252). -/
def andThen {α β : Type} (a : Attempt α) (f : α → Attempt β) : Attempt β :=
  match a with
  | .done x     => f x
  | .raised c s => .raised c s

/-- The one place where a step ends: with its state, or with the fault taken (R251). -/
def finish (a : Attempt State) : Host.Outcome State Fault Refusal :=
  match a with
  | .done s     => .next s
  | .raised c s => .next (raise c s)

/-! ## The access primitives (R62) -/

/-- The address of element `i` of a multi-byte access from `a`: `a +_16 i` (R193, R62). -/
def elementAddr (a : Word) (i : Nat) : Word := a + BitVec.ofNat 16 i

/-- `MemRead(a, 1)` (R62). -/
def memRead (s : State) (a : Word) : Attempt Byte :=
  if a.toNat < Config.memSize then .done (s.byteAt a.toNat) else .raised (.memoryOutOfRange a) s

/-- `MemRead(a, 2)`: the byte at `a` is the high one; each byte is checked on its own, lower address first (R62). -/
def memRead2 (s : State) (a : Word) : Attempt Word :=
  andThen (memRead s a) fun hi => andThen (memRead s (elementAddr a 1)) fun lo => .done (wordOfBytes hi lo)

/-- `MemWrite(a, 1, b)` (R62). -/
def memWrite (s : State) (a : Word) (b : Byte) : Attempt State :=
  if a.toNat < Config.memSize then .done (s.setByte a.toNat b) else .raised (.memoryOutOfRange a) s

/-- `MemWrite` of single bytes at `a`, `a +_16 1`, ... in that order (R65, R193). -/
def storeBytes (s : State) (a : Word) : List Byte → Attempt State
  | []      => .done s
  | b :: bs => andThen (memWrite s a b) fun s' => storeBytes s' (elementAddr a 1) bs

/-- `MemWrite(a, 2, w)`: the high byte at `a`, then the low byte at `a +_16 1` (R62, R64). -/
def memWrite2 (s : State) (a : Word) (w : Word) : Attempt State := storeBytes s a [highByte w, lowByte w]

/-- `V[r] <- MemRead(a, 1)` for each register of the list, at `a`, `a +_16 1`, ... in that order (R196). -/
def loadBytes (s : State) (a : Word) : List Reg → Attempt State
  | []      => .done s
  | r :: rs => andThen (memRead s a) fun b => loadBytes (s.setReg r b) (elementAddr a 1) rs

end Sys2Proof.Machine
end

