-- ==== Sys2Proof/Machine/Boot.lean ====
section
/-! DEFINITION. Machine/Boot.lean: reset with a program image, a font and a strap (spec/70_reset_and_hazards.md R300 to
R302), and the placing of one instruction word where the next step fetches it. -/

namespace Sys2Proof.Machine

/-- Reset (R300, R301): the font at 0x050, the image verbatim at 0x200, every other field as `State.reset`. None when
the image is longer than 3584 bytes (R302: the engine never leaves reset) or the font is not 80 bytes. -/
def State.boot (font : List Byte) (yWrap : Bool) (image : List Byte) : Option State :=
  if font.length = Config.fontSize ∧ image.length ≤ Config.progMax then
    some { State.reset with
      mem := (Memory.load [] Config.fontBase font).load Config.progBase.toNat image
      yWrapEnabled := yWrap }
  else none

/-- The schedule with an instruction tick as the next step; unchanged where it is one already. -/
def tickNext : List StepKind → List StepKind
  | []                => []
  | .instrTick :: ks  => .instrTick :: ks
  | k :: ks           => .instrTick :: k :: ks

/-- `pc` if both bytes of an instruction can be fetched there, else the program base. -/
def fetchable (pc : Word) : Word := if pc.toNat + 1 < Config.memSize then pc else Config.progBase

/-- The state in which the next step fetches `w`: `w` stored big-endian at `pc`, and where the fetch needs it the fault
and the shutdown cleared, the debug gate opened, an instruction tick next and `pc` inside memory. Log 29. -/
def placeWord (w : Word) (s : State) : State :=
  { s with
    pc       := fetchable s.pc
    mem      := s.mem.load (fetchable s.pc).toNat [highByte w, lowByte w]
    advance  := s.advance || s.stepMode
    faulted  := none
    schedule := tickNext s.schedule
    shutDown := false }

end Sys2Proof.Machine
end

