-- ==== Sys2Proof/Machine/Devices.lean ====
section
/-! DEFINITION. Machine/Devices.lean: the step kinds other than the instruction tick, and the output ports
(spec/60_exceptions.md R262 to R275). -/

namespace Sys2Proof.Machine

/-- What a step other than the instruction tick does to the engine: while faulted it changes nothing (R38, R251, D34). -/
def unlessFaulted (f : State → State) (s : State) : State :=
  match s.faulted with
  | none   => f s
  | some _ => s

/-! ## The timer tick -/

/-- A down-counter's tick: floored at 0 (R262, R263). -/
def countDown (b : Byte) : Byte := if b = 0 then 0 else b - 1

/-- The tone command for the level `st` after the decrement against the latch (R264, D31). -/
def toneCommand (toneOn : Bool) (st : Byte) : List Output :=
  if st ≠ 0 ∧ toneOn = false then [.toneStart]
  else if st = 0 ∧ toneOn = true then [.toneStop]
  else []

/-- `tone_on` after the tick: the level last commanded (R264, R37). -/
def toneLatch (toneOn : Bool) (st : Byte) : Bool :=
  if st ≠ 0 ∧ toneOn = false then true
  else if st = 0 ∧ toneOn = true then false
  else toneOn

/-- Send output pulses, in this order (R270). -/
def State.emit (s : State) (os : List Output) : State := { s with emitted := s.emitted ++ os }

/-- Both timers count down (R262 steps 1 and 2). -/
def State.tickTimers (s : State) : State := { s with dt := countDown s.dt, st := countDown s.st }

/-- `tone_on <- b` (R37). -/
def State.setTone (s : State) (b : Bool) : State := { s with toneOn := b }

/-- Audio, then `frame_ready` (R262 steps 3 and 4, R264, R265), on the timers already counted down. -/
def State.signal (s : State) : State :=
  (s.setTone (toneLatch s.toneOn s.st)).emit (toneCommand s.toneOn s.st ++ [.frameReady])

/-- `TimerTick` (R262). Not gated by step mode, not held by a waiting Fx0A. -/
def timerTick (s : State) : State := unlessFaulted (fun s => s.tickTimers.signal) s

/-! ## The key feed and the debug port -/

/-- `KeyDown(k)` (R266). -/
def keyDown (k : Key) (s : State) : State := unlessFaulted (fun s => s.setHeld k true) s

/-- `KeyUp(k)` (R266). -/
def keyUp (k : Key) (s : State) : State := unlessFaulted (fun s => s.setHeld k false) s

/-- One write of the debug port (R272). -/
def State.setDebug (s : State) : DebugFlag → Bool → State
  | .stepMode, b => s.setStepMode b
  | .advance, b  => s.setAdvance b

/-- `DebugSet(flag, b)` (R272): it sets, it does not toggle (D32). -/
def debugSet (flag : DebugFlag) (b : Bool) (s : State) : State := unlessFaulted (fun s => s.setDebug flag b) s

/-- The engine's state is discarded: every field the spec names is blank, the same whatever it held; the model's own fields
stay. DESIGN CHOICE, log 7. -/
def State.discard (s : State) : State :=
  { State.reset with
    schedule    := s.schedule
    emitted     := s.emitted
    shutDown    := s.shutDown
    randomInput := s.randomInput
    draws       := s.draws
    keyInput    := s.keyInput
    picks       := s.picks }

/-- No step occurs from here on (R277). -/
def State.endRun (s : State) : State := { s with shutDown := true }

/-- `Shutdown` (R277): the state is discarded, and after it no step occurs. In a faulted engine nothing is discarded, since
there no step of any kind changes the state (R38, R251, D34); no step occurs after it all the same. Log 7. -/
def shutdown (s : State) : State := (unlessFaulted State.discard s).endRun

/-! ## Output ports -/

/-- `sound_active`, a level: `ST != 0` (R267). -/
def State.soundActive (s : State) : Bool := s.st != 0

/-- What the debug controller shows, in the source's field order (R271). Which flags its 'mode flags' are, the spec does
not list: `step_mode` and `advance`, the debug controller's own settings (R36), are taken, and `y_wrap_enabled`, which
spec/10_state.md heads as a mode flag too (R35), is not. DESIGN CHOICE, safe for the engine, log 27. -/
structure DebugView where
  stepMode      : Bool
  advance       : Bool
  instruction   : Instr
  pc            : Word
  index         : Word
  sp            : Word
  dt            : Byte
  st            : Byte
  v             : Vector Byte 16
  waitingForKey : Bool
  keyCaptured   : Bool
  deriving DecidableEq, Repr

/-- The debug read port read between two steps (R271, R275). It changes nothing. Log 27. -/
def State.debugView (s : State) : DebugView where
  stepMode      := s.stepMode
  advance       := s.advance
  instruction   := decodeWord s.currentOpcode
  pc            := s.pc
  index         := s.index
  sp            := s.sp
  dt            := s.dt
  st            := s.st
  v             := s.v
  waitingForKey := s.waitingForKey
  keyCaptured   := s.keyCaptured

end Sys2Proof.Machine
end

