-- ==== Sys2Proof/Machine/Flags.lean ====
section
/-! DEFINITION. Machine/Flags.lean: every computation of the flag VF (spec/10_state.md R22, spec/42_alu.md R160 and R167 to
R171, spec/44_display.md R215), and the order of the two writes of a flag-writing instruction (spec/40_cycle.md R124). -/

namespace Sys2Proof.Machine

/-- A flag as a register holds it: 0x00 or 0x01 (R22). -/
def flagByte (f : Bool) : Byte := if f then 0x01 else 0x00

/-- Carry of `a + b`: bit 8 of the 9-bit sum (R160, R167). -/
def carry (a b : Byte) : Bool := (a.setWidth 9 + b.setWidth 9).getLsbD 8

/-- No borrow in `a - b`: `a >= b`, equality included (R160, R168, R170). -/
def noBorrow (a b : Byte) : Bool := decide (b.toNat ≤ a.toNat)

/-- The bit a right shift by one drops: old bit 0 (R169). -/
def lowBit (a : Byte) : Bool := a.getLsbD 0

/-- The bit a left shift by one drops: old bit 7 (R171). -/
def highBit (a : Byte) : Bool := a.getLsbD 7

/-- Collision of one row: the old row and the mask share a 1 bit (R215). -/
def collides (row mask : PixelRow) : Bool := row &&& mask != 0

/-- `V[0xF] <- flag` (R22). -/
def State.setFlag (s : State) (f : Bool) : State := s.setReg vf (flagByte f)

/-- `V[x] <- result`, then `V[0xF] <- flag`: with `x = 0xF` the flag is what stays (R124, D10). -/
def State.setResultThenFlag (s : State) (x : Reg) (result : Byte) (f : Bool) : State :=
  (s.setReg x result).setFlag f

end Sys2Proof.Machine
end

