-- ==== Sys2Proof/Machine/Operands.lean ====
section
/-! DEFINITION. Machine/Operands.lean: every operand form of the instructions: immediates (spec/30_encoding.md R93),
register lists, key numbers, glyph addresses, decimal digits, sprite coordinates and row masks, and the two free inputs
`draw8()` and `choose`. -/

namespace Sys2Proof.Machine

/-- `zext_16(nnn)` (R93). -/
def addressOf (nnn : BitVec 12) : Word := nnn.setWidth 16

/-- `zext_16(V[x])` (R143, R191, R192). -/
def widen (b : Byte) : Word := b.setWidth 16

/-- The sixteen registers in ascending order. -/
def allRegs : List Reg := [0, 1, 2, 3, 4, 5, 6, 7] ++ [8, 9, 10, 11, 12, 13, 14, 15]

/-- `V[0]`, ..., `V[x]`: the registers Fx55 and Fx65 move, in the order they move them (R195, R196). -/
def regsUpTo (x : Reg) : List Reg := allRegs.take (x.val + 1)

/-- `0x0050 +_16 5 * zext_16(d)`: the glyph address of Fx29, with no mask on `d` (R192, D17). -/
def glyphAddress (d : Byte) : Word := 0x0050 + 5 * widen d

/-- Hundreds, tens and units of a byte (R160, R194). -/
def decimalDigits (b : Byte) : List Byte :=
  [BitVec.ofNat 8 (b.toNat / 100), BitVec.ofNat 8 (b.toNat / 10 % 10), BitVec.ofNat 8 (b.toNat % 10)]

/-! ## Keys -/

/-- The key a byte names, if it names one: `k <= 0x0F` (R230). -/
def keyOf (b : Byte) : Option Key := if h : b.toNat < 16 then some ⟨b.toNat, h⟩ else none

/-- `KeyHeld(k)`: the level of key `k`, or the fault for a byte that names no key (R230, D6). -/
def keyHeld (s : State) (b : Byte) : Attempt Bool :=
  match keyOf b with
  | some k => .done (s.held k)
  | none   => .raised (.keyIndexOutOfRange b) s

/-- The sixteen keys in ascending order. -/
def allKeys : List Key := [0, 1, 2, 3, 4, 5, 6, 7] ++ [8, 9, 10, 11, 12, 13, 14, 15]

/-- `H`, the keys held now (R233). -/
def heldKeys (s : State) : List Key := allKeys.filter s.held

/-- The next choice among several held keys: the one the input has decided, else the free value (R233, D27). Log 9. -/
def nextChoice (s : State) : Nat :=
  match s.keyInput with
  | []     => Config.keyChoice s.picks
  | c :: _ => c

/-- `choose H` (R233, D27): none for an empty list; for one key that key; for several the one the choice `c` names. -/
def chooseKey (c : Nat) : List Key → Option Key
  | []           => none
  | [k]          => some k
  | k :: l :: ks => (k :: l :: ks)[c % (ks.length + 2)]?

/-- `zext_8(k)` (R233). -/
def keyByte (k : Key) : Byte := BitVec.ofNat 8 k.val

/-- `draw8()`: the next byte of the random input: the one already decided, else the free value (R172, R269, D29).
Log 8. -/
def drawByte (s : State) : Byte :=
  match s.randomInput with
  | []     => Config.randomByte s.draws
  | b :: _ => b

/-! ## Sprites -/

/-- The start column `V[x] mod 64` (R212). -/
def startColumn (b : Byte) : Nat := b.toNat % Config.dispCols

/-- The start row `V[y] mod DRAW_ROW_MOD`, 64 in this hardware (R212, R214, D23). -/
def startRow (b : Byte) : Nat := b.toNat % Config.drawRowMod

/-- The display row of a row index: itself below 32; at or past the bottom edge modulo 32 with wrap, none (the draw
ends) without (R212, R214, D24). -/
def displayRow (wrap : Bool) (r : Nat) : Option (Fin 32) :=
  if h : r < Config.dispRows then some ⟨r, h⟩
  else if wrap then some ⟨r % Config.dispRows, Nat.mod_lt _ (by decide)⟩
  else none

/-- `RowMask(b, cx)`: bit 7 of the sprite row at column `cx`, rotated right with wrap, shifted right without
(R213). -/
def rowMask (wrap : Bool) (b : Byte) (cx : Nat) : PixelRow :=
  if wrap then (b.setWidth 64 <<< 56).rotateRight cx else (b.setWidth 64 <<< 56) >>> cx

end Sys2Proof.Machine
end

