-- ==== Sys2Proof/Machine/Alu.lean ====
section
/-! DEFINITION. Machine/Alu.lean: the instructions of spec/42_alu.md. Operands are read from the state the meaning is
given, so before any write (spec/40_cycle.md R123). None can fault. -/

namespace Sys2Proof.Machine

/-- `6xnn` LD Vx, nn (R161). -/
def execLdImm (x : Reg) (nn : Byte) (s : State) : Host.Outcome State Fault Refusal := .next (s.setReg x nn)

/-- `7xnn` ADD Vx, nn: wrapping, VF not written (R162). -/
def execAddImm (x : Reg) (nn : Byte) (s : State) : Host.Outcome State Fault Refusal :=
  .next (s.setReg x (s.reg x + nn))

/-- `8xy0` LD Vx, Vy (R163). -/
def execLdReg (x y : Reg) (s : State) : Host.Outcome State Fault Refusal := .next (s.setReg x (s.reg y))

/-- `8xy1` OR Vx, Vy: VF untouched (R164). -/
def execOrReg (x y : Reg) (s : State) : Host.Outcome State Fault Refusal :=
  .next (s.setReg x (s.reg x ||| s.reg y))

/-- `8xy2` AND Vx, Vy: VF untouched (R165). -/
def execAndReg (x y : Reg) (s : State) : Host.Outcome State Fault Refusal :=
  .next (s.setReg x (s.reg x &&& s.reg y))

/-- `8xy3` XOR Vx, Vy: VF untouched (R166). -/
def execXorReg (x y : Reg) (s : State) : Host.Outcome State Fault Refusal :=
  .next (s.setReg x (s.reg x ^^^ s.reg y))

/-- `8xy4` ADD Vx, Vy: VF = carry (R167). -/
def execAddReg (x y : Reg) (s : State) : Host.Outcome State Fault Refusal :=
  .next (s.setResultThenFlag x (s.reg x + s.reg y) (carry (s.reg x) (s.reg y)))

/-- `8xy5` SUB Vx, Vy: `V[x] - V[y]`, VF = no borrow (R168). -/
def execSubReg (x y : Reg) (s : State) : Host.Outcome State Fault Refusal :=
  .next (s.setResultThenFlag x (s.reg x - s.reg y) (noBorrow (s.reg x) (s.reg y)))

/-- `8xy6` SHR Vx: in place, `V[y]` neither read nor written, VF = old bit 0 (R169, D13). -/
def execShr (x : Reg) (s : State) : Host.Outcome State Fault Refusal :=
  .next (s.setResultThenFlag x (s.reg x >>> 1) (lowBit (s.reg x)))

/-- `8xy7` SUBN Vx, Vy: `V[y] - V[x]`, VF = no borrow (R170). -/
def execSubnReg (x y : Reg) (s : State) : Host.Outcome State Fault Refusal :=
  .next (s.setResultThenFlag x (s.reg y - s.reg x) (noBorrow (s.reg y) (s.reg x)))

/-- `8xyE` SHL Vx: in place, VF = old bit 7 (R171, D13). -/
def execShl (x : Reg) (s : State) : Host.Outcome State Fault Refusal :=
  .next (s.setResultThenFlag x (s.reg x <<< 1) (highBit (s.reg x)))

/-- `Cxnn` RND Vx, nn: the next random byte AND `nn`; one draw is used (R172, D29). -/
def execRnd (x : Reg) (nn : Byte) (s : State) : Host.Outcome State Fault Refusal :=
  .next ((s.setReg x (drawByte s &&& nn)).countDraw)

end Sys2Proof.Machine
end

