-- ==== Sys2Proof/Machine/ControlFlow.lean ====
section
/-! DEFINITION. Machine/ControlFlow.lean: the instructions of spec/41_control_flow.md. `pc` is already the address of the
executing instruction plus 2 (spec/40_cycle.md R120, R121). -/

namespace Sys2Proof.Machine

/-- A skip instruction with its condition evaluated (R144). -/
def skipIf (cond : Bool) (s : State) : State := if cond then s.skip else s

/-- `1nnn` JP nnn (R140). -/
def execJp (nnn : BitVec 12) (s : State) : Host.Outcome State Fault Refusal := .next (s.setPc (addressOf nnn))

/-- `00EE` RET: all 16 popped bits to `pc`, then `sp <- sp +_16 2`; a failing read leaves both (R141). -/
def execRet (s : State) : Host.Outcome State Fault Refusal :=
  finish (andThen (memRead2 s s.sp) fun a => .done ((s.setPc a).setSp (s.sp + 2)))

/-- `2nnn` CALL nnn: pre-decrement, push the advanced `pc` big-endian, jump (R142, D2, D3, D4). -/
def execCall (nnn : BitVec 12) (s : State) : Host.Outcome State Fault Refusal :=
  finish (andThen (memWrite2 (s.setSp (s.sp - 2)) (s.sp - 2) s.pc) fun t => .done (t.setPc (addressOf nnn)))

/-- `Bnnn` JP V0, nnn: a 16-bit sum, not reduced (R143, D9). -/
def execJpV0 (nnn : BitVec 12) (s : State) : Host.Outcome State Fault Refusal :=
  .next (s.setPc (widen (s.reg 0) + addressOf nnn))

/-- `3xnn` SE Vx, nn (R145). -/
def execSeImm (x : Reg) (nn : Byte) (s : State) : Host.Outcome State Fault Refusal :=
  .next (skipIf (s.reg x == nn) s)

/-- `4xnn` SNE Vx, nn (R146). -/
def execSneImm (x : Reg) (nn : Byte) (s : State) : Host.Outcome State Fault Refusal :=
  .next (skipIf (s.reg x != nn) s)

/-- `5xy0` SE Vx, Vy (R147). -/
def execSeReg (x y : Reg) (s : State) : Host.Outcome State Fault Refusal :=
  .next (skipIf (s.reg x == s.reg y) s)

/-- `9xy0` SNE Vx, Vy (R148). -/
def execSneReg (x y : Reg) (s : State) : Host.Outcome State Fault Refusal :=
  .next (skipIf (s.reg x != s.reg y) s)

end Sys2Proof.Machine
end

