-- ==== Sys2Proof/Machine/Cycle.lean ====
section
/-! DEFINITION. Machine/Cycle.lean: the parts of the instruction tick that come before execution (spec/40_cycle.md R120:
gate, fetch, advance) and the unrecognized-word no-op (R122). -/

namespace Sys2Proof.Machine

/-- Every word no row accepts: "(nothing)". The fetch, `current_opcode` and the advance are the tick's (R122). -/
def execNop (_ : Word) (s : State) : Host.Outcome State Fault Refusal := .next s

/-- `Gate(step_mode, advance)`: whether the tick goes on, and `advance'`, which is 0 in every row (R273). -/
def gate (stepMode advance : Bool) : Bool × Bool :=
  match stepMode, advance with
  | false, _    => (true, false)
  | true, false => (false, false)
  | true, true  => (true, false)

/-- `op <- MemRead(pc, 2)` (R120 step 2, R63). -/
def fetch (s : State) : Attempt Word := memRead2 s s.pc

/-- `current_opcode <- op`, then `pc <- pc +_16 2` (R120 steps 2 and 4, R121). -/
def advancePast (op : Word) (s : State) : State := (s.setOpcode op).skip

end Sys2Proof.Machine
end

