-- ==== Sys2Proof/Machine/Display.lean ====
section
/-! DEFINITION. Machine/Display.lean: the instructions of spec/44_display.md. -/

namespace Sys2Proof.Machine

/-- One drawn row: VF becomes 1 on a collision and is otherwise left (sticky), then the row is XORed in (R211, R215). -/
def drawRow (s : State) (r : Fin 32) (mask : PixelRow) : State :=
  (if collides (s.row r) mask then s.setFlag true else s).setRow r (s.row r ^^^ mask)

/-- The loop of R212 from sprite row `i` on, with `left` rows to go: the row-visibility test, then the sprite byte's
read, then the XOR (D26). A clipped row ends the draw before it is read. -/
def drawRows (s : State) (cx ry : Nat) : (left i : Nat) → Attempt State
  | 0, _        => .done s
  | left + 1, i =>
    match displayRow s.yWrapEnabled (ry + i) with
    | none   => .done s
    | some r =>
      andThen (memRead s (elementAddr s.index i)) fun b =>
        drawRows (drawRow s r (rowMask s.yWrapEnabled b cx)) cx ry left (i + 1)

/-- `00E0` CLS (R210). -/
def execCls (s : State) : Host.Outcome State Fault Refusal := .next s.clearDisplay

/-- `Dxyn` DRW Vx, Vy, n: the coordinates are read before VF is cleared (R212, R123). -/
def execDrw (x y : Reg) (n : Fin 16) (s : State) : Host.Outcome State Fault Refusal :=
  finish (drawRows (s.setFlag false) (startColumn (s.reg x)) (startRow (s.reg y)) n.val 0)

end Sys2Proof.Machine
end

