-- ==== Sys2Proof/Machine/IndexMemory.lean ====
section
/-! DEFINITION. Machine/IndexMemory.lean: the instructions of spec/43_index_memory.md. `I` is read once and never written
by an access (R193, D15). -/

namespace Sys2Proof.Machine

/-- `Annn` LD I, nnn (R190). -/
def execLdI (nnn : BitVec 12) (s : State) : Host.Outcome State Fault Refusal := .next (s.setIndex (addressOf nnn))

/-- `Fx1E` ADD I, Vx: 16 bits kept, VF not written (R191, D9, D16). -/
def execAddI (x : Reg) (s : State) : Host.Outcome State Fault Refusal :=
  .next (s.setIndex (s.index + widen (s.reg x)))

/-- `Fx29` LD F, Vx (R192). -/
def execLdF (x : Reg) (s : State) : Host.Outcome State Fault Refusal :=
  .next (s.setIndex (glyphAddress (s.reg x)))

/-- `Fx33` LD B, Vx: the three decimal digits at `I`, `I+1`, `I+2` (R194). -/
def execLdB (x : Reg) (s : State) : Host.Outcome State Fault Refusal :=
  finish (storeBytes s s.index (decimalDigits (s.reg x)))

/-- `Fx55` LD [I], Vx: `V[0]`..`V[x]` to `I`.. (R195). -/
def execStoreRegs (x : Reg) (s : State) : Host.Outcome State Fault Refusal :=
  finish (storeBytes s s.index ((regsUpTo x).map s.reg))

/-- `Fx65` LD Vx, [I]: `I`.. to `V[0]`..`V[x]` (R196). -/
def execLoadRegs (x : Reg) (s : State) : Host.Outcome State Fault Refusal :=
  finish (loadBytes s s.index (regsUpTo x))

end Sys2Proof.Machine
end

