-- ==== Sys2Proof/Machine/InputTimers.lean ====
section
/-! DEFINITION. Machine/InputTimers.lean: the instructions of spec/45_input_timers.md. -/

namespace Sys2Proof.Machine

/-- `Ex9E` SKP Vx: skip if the key `V[x]` is held (R231). -/
def execSkp (x : Reg) (s : State) : Host.Outcome State Fault Refusal :=
  finish (andThen (keyHeld s (s.reg x)) fun h => .done (skipIf h s))

/-- `ExA1` SKNP Vx: skip if the key `V[x]` is not held (R232). -/
def execSknp (x : Reg) (s : State) : Host.Outcome State Fault Refusal :=
  finish (andThen (keyHeld s (s.reg x)) fun h => .done (skipIf (!h) s))

/-- Fx0A in the state Waiting: capture a held key and go on, or stay on the instruction (R233). -/
def pollKey (x : Reg) (s : State) : State :=
  match chooseKey (nextChoice s) (heldKeys s) with
  | some k => (s.setReg x (keyByte k)).leaveWaiting
  | none   => s.rewind

/-- `Fx0A` LD Vx, K, the two-state blocking read: the first execution only enters Waiting (R233). -/
def execLdVxK (x : Reg) (s : State) : Host.Outcome State Fault Refusal :=
  .next (if s.waitingForKey then pollKey x s else s.enterWaiting.rewind)

/-- `Fx07` LD Vx, DT (R234, D18). -/
def execLdVxDt (x : Reg) (s : State) : Host.Outcome State Fault Refusal := .next (s.setReg x s.dt)

/-- `Fx15` LD DT, Vx (R235, D18). -/
def execLdDtVx (x : Reg) (s : State) : Host.Outcome State Fault Refusal := .next (s.setDt (s.reg x))

/-- `Fx18` LD ST, Vx (R236, D18). -/
def execLdStVx (x : Reg) (s : State) : Host.Outcome State Fault Refusal := .next (s.setSt (s.reg x))

end Sys2Proof.Machine
end

