-- ==== Sys2Proof/Machine/Tick.lean ====
section
/-! DEFINITION. Machine/Tick.lean: the instruction tick (spec/40_cycle.md R120) and the choice among the step kinds
(spec/60_exceptions.md R258, R260). -/

namespace Sys2Proof.Machine

/-- Steps 2 to 5 of `InstrTick`: fetch, decode, advance, execute. A failing fetch leaves `current_opcode` and `pc`
(R120). -/
def fetchExecute (s : State) : Host.Outcome State Fault Refusal :=
  match fetch s with
  | .done op    => exec (decodeWord op) (advancePast op s)
  | .raised c t => finish (.raised c t)

/-- `InstrTick` (R120): nothing while faulted; the gate; then, if it lets the tick through, fetch and execute. -/
def instrTick (s : State) : Host.Outcome State Fault Refusal :=
  match s.faulted with
  | some _ => .next s
  | none   =>
    match gate s.stepMode s.advance with
    | (false, a) => .next (s.setAdvance a)
    | (true, a)  => fetchExecute (s.setAdvance a)

/-- The next step: the first of the schedule, an instruction tick when it is empty (R260; log 5). -/
def nextKind (s : State) : StepKind :=
  match s.schedule with
  | []     => .instrTick
  | k :: _ => k

/-- The schedule without the step that is taken now. -/
def popSchedule (s : State) : State := { s with schedule := s.schedule.tail }

/-- One step of a given kind (R258). -/
def perform (k : StepKind) (s : State) : Host.Outcome State Fault Refusal :=
  match k with
  | .instrTick    => instrTick s
  | .timerTick    => .next (timerTick s)
  | .keyDown k    => .next (keyDown k s)
  | .keyUp k      => .next (keyUp k s)
  | .debugSet f b => .next (debugSet f b s)
  | .shutdown     => .next (shutdown s)

/-- The step the schedule says, unless the machine was shut down (R277). -/
def scheduledStep (s : State) : Host.Outcome State Fault Refusal :=
  if s.shutDown then .fault .shutDown else perform (nextKind s) (popSchedule s)

end Sys2Proof.Machine
end

