-- ==== Sys2Proof/Machine/Step.lean ====
section
/-! DEFINITION. Machine/Step.lean: one step of the machine, and a state in which the next step runs a given word. -/

namespace Sys2Proof.Machine

/-- One step (R10, R258, R260): the definitions are in Tick.lean and Devices.lean. -/
def step (s : State) : Host.Outcome State Fault Refusal := scheduledStep s

/-- `s` with the table's word stored where the next step fetches it (Boot.lean; log 29). -/
def State.withFetchWord (s : State) (nbits w : Nat) : State := placeWord (tableWord nbits w) s

end Sys2Proof.Machine
end

