-- ==== Sys2Proof/WellFormed.lean ====
section
/-! DEFINITION. WellFormed.lean: which terms of Instr are instructions. Every register, key and height field is in range
by its type (spec/10_state.md R21: a register index is a 4-bit field); the one check left is that the no-op carries a word
that no row of the opcode map accepts (spec/30_encoding.md R96). The map stands in Decode.lean. -/

namespace Sys2Proof

/-- The fields of an instruction are those some word has: only the raw word of the no-op can fail (R96). -/
def Instr.wf : Instr → Bool
  | .nop w => !recognized w
  | .cls => true | .ret => true | .jp _ => true | .call _ => true | .seImm _ _ => true | .sneImm _ _ => true
  | .seReg _ _ => true | .ldImm _ _ => true | .addImm _ _ => true | .ldReg _ _ => true | .orReg _ _ => true
  | .andReg _ _ => true | .xorReg _ _ => true | .addReg _ _ => true | .subReg _ _ => true | .shr _ _ => true
  | .subnReg _ _ => true | .shl _ _ => true | .sneReg _ _ => true | .ldI _ => true | .jpV0 _ => true
  | .rnd _ _ => true | .drw _ _ _ => true | .skp _ => true | .sknp _ => true | .ldVxDt _ => true
  | .ldVxK _ => true | .ldDtVx _ => true | .ldStVx _ => true | .addI _ => true | .ldF _ => true | .ldB _ => true
  | .storeRegs _ => true | .loadRegs _ => true

end Sys2Proof
end

