-- ==== Sys2Proof/Safety.lean ====
section
/-! DEFINITION. Safety.lean: the terms claims about the machine are stated in: frames, the invariant of the machine, the
"finished" convention (spec/60_exceptions.md R278) and well-formed programs (spec/70_reset_and_hazards.md R305). -/

namespace Sys2Proof.Machine

/-! ## Frames -/

/-- One nameable part of the state, as fine as an instruction can change it. -/
inductive Part where
  | reg (r : Reg) | cell (a : Nat) | row (r : Fin 32) | key (k : Key)
  | pc | index | sp | dt | st
  | waiting | captured | opcode | yWrap | stepMode | advance | tone | faulted
  | schedule | emitted | shutDown | randomInput | draws | keyInput | picks
  deriving DecidableEq, Repr

/-- The cells of `n` bytes from address `a` on. -/
def cellsFrom (a n : Nat) : List Part := (List.range n).map fun i => .cell (a + i)

/-- Every display row. -/
def allRows : List Part := (List.finRange 32).map .row

/-- Registers, memory (every byte, through the model's read), display, keys: equal but for the named parts. -/
def SameStores (parts : List Part) (s t : State) : Prop :=
  (∀ r, .reg r ∉ parts → t.reg r = s.reg r) ∧ (∀ a, .cell a ∉ parts → t.byteAt a = s.byteAt a) ∧
  (∀ r, .row r ∉ parts → t.row r = s.row r) ∧ (∀ k, .key k ∉ parts → t.held k = s.held k)

/-- The single registers of the engine: equal but for the named parts. -/
def SameControl (parts : List Part) (s t : State) : Prop :=
  (.pc ∉ parts → t.pc = s.pc) ∧ (.index ∉ parts → t.index = s.index) ∧ (.sp ∉ parts → t.sp = s.sp) ∧
  (.dt ∉ parts → t.dt = s.dt) ∧ (.st ∉ parts → t.st = s.st) ∧
  (.waiting ∉ parts → t.waitingForKey = s.waitingForKey) ∧ (.captured ∉ parts → t.keyCaptured = s.keyCaptured) ∧
  (.opcode ∉ parts → t.currentOpcode = s.currentOpcode) ∧ (.yWrap ∉ parts → t.yWrapEnabled = s.yWrapEnabled) ∧
  (.stepMode ∉ parts → t.stepMode = s.stepMode) ∧ (.advance ∉ parts → t.advance = s.advance) ∧
  (.tone ∉ parts → t.toneOn = s.toneOn) ∧ (.faulted ∉ parts → t.faulted = s.faulted)

/-- The model's own fields: equal but for the named parts. -/
def SameEnvironment (parts : List Part) (s t : State) : Prop :=
  (.schedule ∉ parts → t.schedule = s.schedule) ∧ (.emitted ∉ parts → t.emitted = s.emitted) ∧
  (.shutDown ∉ parts → t.shutDown = s.shutDown) ∧ (.randomInput ∉ parts → t.randomInput = s.randomInput) ∧
  (.draws ∉ parts → t.draws = s.draws) ∧ (.keyInput ∉ parts → t.keyInput = s.keyInput) ∧
  (.picks ∉ parts → t.picks = s.picks)

/-- `t` is `s` but for the named parts: the frame of a step from `s` to `t`. -/
def SameBut (parts : List Part) (s t : State) : Prop :=
  SameStores parts s t ∧ SameControl parts s t ∧ SameEnvironment parts s t

/-! ## The invariant -/

/-- While `waiting_for_key`, `pc` is the address of an Fx0A and `current_opcode` is that word (R41 b). -/
def WaitsOnItsInstruction (s : State) : Prop :=
  s.waitingForKey = true →
    (∃ x, decodeWord s.currentOpcode = .ldVxK x) ∧ s.pc.toNat + 1 < Config.memSize ∧
    wordOfBytes (s.byteAt s.pc.toNat) (s.byteAt (s.pc.toNat + 1)) = s.currentOpcode

/-- A recorded fault is one its cause admits (R250). -/
def FaultHasItsCause (s : State) : Prop :=
  match s.faulted with
  | none                              => True
  | some ⟨.memoryOutOfRange a, _⟩    => 0x0FFF < a.toNat
  | some ⟨.keyIndexOutOfRange k, _⟩ => 0x0F < k.toNat

/-- What every step keeps: memory in canonical form, `sp` even (R41 c), a waiting engine rests on its Fx0A (R41 b), a
recorded fault has its cause (R250). -/
def Inv (s : State) : Prop :=
  s.mem.wf ∧ s.sp.toNat % 2 = 0 ∧ WaitsOnItsInstruction s ∧ FaultHasItsCause s

/-! ## Safe and finished -/

/-- No fault has been taken and no shutdown seen: the engine can still run its program (R251, R277). -/
def State.safe (s : State) : Prop := s.faulted = none ∧ s.shutDown = false

/-- The word at an address, as a fetch reads it (R63). -/
def State.wordAt (s : State) (a : Nat) : Word := wordOfBytes (s.byteAt a) (s.byteAt (a + 1))

/-- "Finished" (R278, D33): not waiting, and `pc` rests on a `JP` to itself, `0x1000 OR pc`. A faulted state is never a
successful end of a run (R251), so none is finished. Log 33. -/
def State.finished (s : State) : Prop :=
  s.faulted = none ∧ s.pc.toNat + 1 < Config.memSize ∧ s.waitingForKey = false ∧ s.wordAt s.pc.toNat = 0x1000 ||| s.pc

/-! ## What the next step runs -/

/-- The gate lets the next instruction tick through (R273). -/
def State.gateOpen (s : State) : Prop := s.stepMode = false ∨ s.advance = true

/-- The next step fetches and executes an instruction: nothing has ended the run, an instruction tick is next, the gate
is open and both bytes can be fetched (R120). -/
def State.runsInstruction (s : State) : Prop :=
  s.safe ∧ nextKind s = .instrTick ∧ s.gateOpen ∧ s.pc.toNat + 1 < Config.memSize

/-- The instruction at `pc`. -/
def State.instructionAtPc (s : State) : Instr := decodeWord (s.wordAt s.pc.toNat)

/-- The state in which a step executes the instruction it has fetched: the scheduled step used up, `advance` cleared,
`current_opcode` and `pc` moved on (R120 steps 1, 2 and 4). -/
def State.beforeExecute (s : State) : State :=
  advancePast (s.wordAt s.pc.toNat) ((popSchedule s).setAdvance false)

/-! ## Well-formed programs (R305) -/

/-- The addresses an instruction's execute phase stores to. -/
def storedCells (i : Instr) (s : State) : List Nat :=
  match i with
  | .call _ => [(s.sp - 2).toNat, (elementAddr (s.sp - 2) 1).toNat]
  | .ldB _ => (List.range 3).map fun j => (elementAddr s.index j).toNat
  | .storeRegs x => (List.range (x.val + 1)).map fun j => (elementAddr s.index j).toNat
  | .cls | .ret | .jp _ | .seImm _ _ | .sneImm _ _ | .seReg _ _ | .ldImm _ _ | .addImm _ _ | .ldReg _ _ | .orReg _ _
  | .andReg _ _ | .xorReg _ _ | .addReg _ _ | .subReg _ _ | .shr _ _ | .subnReg _ _ | .shl _ _ | .sneReg _ _ | .ldI _
  | .jpV0 _ | .rnd _ _ | .drw _ _ _ | .skp _ | .sknp _ | .ldVxDt _ | .ldVxK _ | .ldDtVx _ | .ldStVx _ | .addI _
  | .ldF _ | .loadRegs _ | .nop _ => []

/-- The live stack entries (their addresses, newest first) after an instruction: a store into an entry kills it, CALL
adds one, RET uses one. -/
def liveEntries (i : Instr) (s : State) (live : List Nat) : List Nat :=
  let kept := live.filter fun e => !(storedCells i s).contains e && !(storedCells i s).contains (e + 1)
  match i with
  | .call _ => (s.sp - 2).toNat :: kept
  | .ret => kept.tail
  | .cls | .jp _ | .seImm _ _ | .sneImm _ _ | .seReg _ _ | .ldImm _ _ | .addImm _ _ | .ldReg _ _ | .orReg _ _
  | .andReg _ _ | .xorReg _ _ | .addReg _ _ | .subReg _ _ | .shr _ _ | .subnReg _ _ | .shl _ _ | .sneReg _ _ | .ldI _
  | .jpV0 _ | .rnd _ _ | .drw _ _ _ | .skp _ | .sknp _ | .ldVxDt _ | .ldVxK _ | .ldDtVx _ | .ldStVx _ | .addI _
  | .ldF _ | .ldB _ | .storeRegs _ | .loadRegs _ | .nop _ => kept

/-- What R305 asks of one instruction: (b) no store into the font, (d) a RET pops the newest live entry. -/
def instructionWellFormed (i : Instr) (s : State) (live : List Nat) : Prop :=
  (∀ a ∈ storedCells i s, ¬ (Config.fontBase ≤ a ∧ a < Config.fontBase + Config.fontSize)) ∧
  (i = .ret → live.head? = some s.sp.toNat)

/-- The next `n` steps are well-formed: no step faults, which is (a) and (c) of R305, and every instruction they run
is. -/
def wellFormedFor (s : State) (live : List Nat) : Nat → Prop
  | 0     => True
  | n + 1 => ∀ t, step s = .next t → t.faulted = none ∧
      (s.runsInstruction →
        instructionWellFormed s.instructionAtPc s.beforeExecute live ∧
        wellFormedFor t (liveEntries s.instructionAtPc s.beforeExecute live) n) ∧
      (¬ s.runsInstruction → wellFormedFor t live n)

/-- R305: in every run every step is well-formed: for every font and strap, every interleaving and key feed (`schedule`),
every random draw (`randomInput`) and every choice among held keys (`keyInput`). Log 35. -/
def WellFormedProgram (image : List Byte) : Prop :=
  ∀ font yWrap schedule randomInput keyInput s n, State.boot font yWrap image = some s →
    wellFormedFor { s with schedule := schedule, randomInput := randomInput, keyInput := keyInput } [] n

end Sys2Proof.Machine
end

