-- ==== Sys2Proof/Certificates/Slice0/Obligations.lean ====
section
/-! DEFINITION. Certificates/Slice0/Obligations.lean: the statements about the machine, in the order of OBLIGATIONS.json.
`exec i s` is the execute phase: `s` is the state after the advance, so `s.pc` is the instruction's address plus 2.
`SameBut parts s t` (Safety.lean) is the frame: everything but the named parts is unchanged, every byte of memory and
`faulted` included. Where a docstring names a decision D<n> (spec/92_eei_decisions.md) and a log entry, that clause is the
model's choice, which follows the decision; no rule of the source gives it. -/

open Sys2Proof Sys2Proof.Machine

/-! ## Encoding -/

/-- The words of R100, and one word of each other family, decode to the instructions they stand for. That 0x5121, which a
looser decoder would run as SE, is the no-op: D11, log 17. That the last digit 4 is the sum: anchored by the source's P2
(D14, log 19). -/
def Obligations.SampleWordsDecode : Prop :=
  decodeWord 0x3310 = .seImm 3 0x10 ∧ decodeWord 0x8124 = .addReg 1 2 ∧ decodeWord 0xD015 = .drw 0 1 5 ∧
  decodeWord 0x22A0 = .call 0x2A0 ∧ decodeWord 0xF50A = .ldVxK 5 ∧ decodeWord 0xF255 = .storeRegs 2 ∧
  decodeWord 0x00EE = .ret ∧ decodeWord 0xA2F0 = .ldI 0x2F0 ∧ decodeWord 0xC10F = .rnd 1 0x0F ∧
  decodeWord 0xE29E = .skp 2 ∧ decodeWord 0x5121 = .nop 0x5121

/-- No bit of an instruction is lost by encoding it: decoding the word, or the two bytes with anything after them, gives
it back (R91 to R95). -/
def Obligations.DecodeOfEncodeIsTheInstruction : Prop :=
  ∀ i : Instr, i.wf = true →
    decodeWord (encode i) = i ∧ ∀ rest, decode (encodeBytes i ++ rest) = .ok (i, rest)

/-- Every word has exactly one meaning: the instruction it decodes to is well-formed and encodes to that word (R94,
R96). -/
def Obligations.EncodeOfDecodeIsTheWord : Prop :=
  ∀ w : Word, (decodeWord w).wf = true ∧ encode (decodeWord w) = w

/-- The decoder against the printed opcode map (R94): a word some row accepts decodes to that row's instruction, a word
no row accepts is the no-op, and no word is accepted by two rows. -/
def Obligations.DecoderFollowsTheOpcodeMap : Prop :=
  ∀ w : Word,
    (∀ r ∈ opcodeMap, r.accepts w = true → (decodeWord w).rule = r.rule) ∧
    ((∀ r ∈ opcodeMap, r.accepts w = false) → decodeWord w = .nop w) ∧
    (∀ r ∈ opcodeMap, ∀ r' ∈ opcodeMap, r.accepts w = true → r'.accepts w = true → r = r')

/-! ## Memory -/

/-- A byte reads as the last value written to it, every other byte as before (R67, R70), the font included (D7, log 26); a
write inside the memory keeps the canonical form. -/
def Obligations.MemoryReadsTheLastWrite : Prop :=
  ∀ (m : Memory) (a a' : Nat) (b : Byte), m.wf →
    (m.write a b).read a' = (if a' = a then b else m.read a') ∧ (a < Config.memSize → (m.write a b).wf)

/-- Equal memories are equal data: two canonical memories that read alike at every address are the same list. -/
def Obligations.CanonicalMemoriesThatReadAlikeAreEqual : Prop :=
  ∀ m m' : Memory, m.wf → m'.wf → (∀ a, a < Config.memSize → m.read a = m'.read a) → m = m'

/-! ## Reset -/

/-- The reset state (R39), field by field: registers zeroed, `pc` and `sp` at 0x200; the values the source does not give are the spec's
decisions D19 to D22 and D31 (log 1 to log 4). -/
def Obligations.ResetState : Prop :=
  (∀ r, State.reset.reg r = 0) ∧ State.reset.pc = 0x0200 ∧ State.reset.sp = 0x0200 ∧
  State.reset.index = 0 ∧ State.reset.dt = 0 ∧ State.reset.st = 0 ∧
  (∀ j, j < 80 → State.reset.byteAt (0x050 + j) = Config.font.getD j 0) ∧
  (∀ a, a < 0x050 ∨ 0x0A0 ≤ a → State.reset.byteAt a = 0) ∧
  (∀ r, State.reset.row r = 0) ∧ (∀ k, State.reset.held k = false) ∧
  State.reset.waitingForKey = false ∧ State.reset.keyCaptured = false ∧ State.reset.currentOpcode = 0 ∧
  State.reset.yWrapEnabled = Config.yWrap ∧
  State.reset.stepMode = false ∧ State.reset.advance = false ∧ State.reset.toneOn = false ∧
  State.reset.faulted = none

/-- Reset with an image (R300, R301): for every 80-byte font, either strap and every image of at most 3584 bytes, the image
stands unchanged from 0x200 on, the font from 0x050 on, every other byte is 0x00 (D20, log 2), `pc` and `sp` are 0x200
and the state meets the invariant; a longer image is never placed (R302). -/
def Obligations.BootPlacesFontAndImage : Prop :=
  ∀ (font image : List Byte) (yWrap : Bool), font.length = 80 →
    (image.length ≤ 3584 → ∃ s, State.boot font yWrap image = some s ∧
      (∀ j, j < image.length → s.byteAt (0x200 + j) = image.getD j 0) ∧
      (∀ j, j < 80 → s.byteAt (0x050 + j) = font.getD j 0) ∧
      (∀ a, a < 0x050 ∨ (0x0A0 ≤ a ∧ a < 0x200) ∨ 0x200 + image.length ≤ a → s.byteAt a = 0) ∧
      s.pc = 0x0200 ∧ s.sp = 0x0200 ∧ s.yWrapEnabled = yWrap ∧ (∀ r, s.reg r = 0) ∧ Inv s) ∧
    (3584 < image.length → State.boot font yWrap image = none)

/-- The reset state meets the invariant. -/
def Obligations.ResetMeetsTheInvariant : Prop := Inv State.reset

/-! ## The step -/

/-- Every step of every kind, from any state that meets it, keeps the invariant: memory canonical, `sp` even, a waiting
engine on its Fx0A, a recorded fault with its cause (R41 b, c; R250; the stack's steps of 2 and the faults are those of D3, D5,
D6: log 11 to log 13). -/
def Obligations.EveryStepKeepsTheInvariant : Prop :=
  ∀ s t : State, Inv s → step s = .next t → Inv t

/-- `InstrTick` (R120): (1) the bytes at `pc` are fetched, decoded and executed, with `current_opcode`, `pc` and `advance`
moved first (D1, log 14; `advance` also with step mode off: D32, log 24); (2) a fetch outside memory takes the fault (D5,
log 11) and leaves `current_opcode` and `pc`, where all beside the fault's record is the model's choice (D36, log 6); (3) a
closed gate and (4) a faulted engine (D34, log 6) change nothing. In each case the scheduled step is used up (log 5,
log 30). -/
def Obligations.InstructionTickRunsTheFetchedInstruction : Prop :=
  ∀ s : State,
    (s.runsInstruction →
      step s = exec (decodeWord (wordOfBytes (s.byteAt s.pc.toNat) (s.byteAt (s.pc.toNat + 1)))) s.beforeExecute ∧
      s.beforeExecute.currentOpcode = wordOfBytes (s.byteAt s.pc.toNat) (s.byteAt (s.pc.toNat + 1)) ∧
      s.beforeExecute.pc = s.pc + 2 ∧ s.beforeExecute.advance = false ∧
      s.beforeExecute.schedule = s.schedule.tail ∧
      SameBut [.opcode, .pc, .advance, .schedule] s s.beforeExecute) ∧
    (s.safe → nextKind s = .instrTick → s.gateOpen → 0x0FFF ≤ s.pc.toNat →
      ∃ t, step s = .next t ∧
        t.faulted = some ⟨.memoryOutOfRange (if s.pc.toNat = 0x0FFF then 0x1000 else s.pc), s.currentOpcode⟩ ∧
        t.advance = false ∧ t.schedule = s.schedule.tail ∧ SameBut [.faulted, .advance, .schedule] s t) ∧
    (s.safe → nextKind s = .instrTick → ¬ s.gateOpen → step s = .next { s with schedule := s.schedule.tail }) ∧
    (s.shutDown = false → s.faulted ≠ none → nextKind s = .instrTick →
      step s = .next { s with schedule := s.schedule.tail })

/-- The unrecognized word (R122): its execution is nothing, and one instruction tick on it changes exactly `pc` (+2) and
`current_opcode` (and uses up the scheduled step and `advance`). -/
def Obligations.UnrecognizedWordOnlyAdvances : Prop :=
  (∀ (w : Word) (s : State), exec (.nop w) s = .next s) ∧
  ∀ s : State, s.runsInstruction → recognized (s.wordAt s.pc.toNat) = false →
    ∃ t, step s = .next t ∧ t.pc = s.pc + 2 ∧ t.currentOpcode = s.wordAt s.pc.toNat ∧
      SameBut [.pc, .opcode, .advance, .schedule] s t

/-- Whatever the state, `withFetchWord` (the model's own load of one word, log 29) makes the next step fetch and run the word
placed, at `pc` where `pc` can be fetched from. -/
def Obligations.PlacedWordRunsNext : Prop :=
  ∀ (s : State) (w : Nat), s.mem.wf → w < 65536 →
    (s.withFetchWord 16 w).runsInstruction ∧
    (s.withFetchWord 16 w).wordAt (s.withFetchWord 16 w).pc.toNat = BitVec.ofNat 16 w ∧
    (s.pc.toNat < 0x0FFF → (s.withFetchWord 16 w).pc = s.pc)

/-! ## Control flow -/

/-- JP nnn (R140), with its encoding: the advance is discarded, `pc` is the address, nothing else changes. -/
def Obligations.JumpGoesToItsAddress : Prop :=
  ∀ (nnn : BitVec 12) (s : State), decodeWord (wordNnn 0x1 nnn) = .jp nnn ∧
    ∃ t, exec (.jp nnn) s = .next t ∧ t.pc.toNat = nnn.toNat ∧ SameBut [.pc] s t

/-- SE Vx, nn and SNE Vx, nn (R145, R146), with their encodings: `pc` moves on by 2 more iff the condition holds; nothing else
changes. -/
def Obligations.ImmediateComparisonsSkip : Prop :=
  ∀ (x : Reg) (nn : Byte) (s : State),
    decodeWord (wordXNn 0x3 x nn) = .seImm x nn ∧ decodeWord (wordXNn 0x4 x nn) = .sneImm x nn ∧
    (∃ t, exec (.seImm x nn) s = .next t ∧ t.pc = (if s.reg x = nn then s.pc + 2 else s.pc) ∧ SameBut [.pc] s t) ∧
    (∃ t, exec (.sneImm x nn) s = .next t ∧ t.pc = (if s.reg x ≠ nn then s.pc + 2 else s.pc) ∧ SameBut [.pc] s t)

/-- SE Vx, Vy and SNE Vx, Vy (R147, R148), with their encodings: `pc` moves on by 2 more iff the condition holds; nothing else
changes. With a last digit other than 0 the word is no instruction (D11, log 17). -/
def Obligations.RegisterComparisonsSkip : Prop :=
  ∀ (x y : Reg) (s : State),
    (∀ n, decodeWord (wordOfNibbles 0x5 x y n) = (if n = 0 then .seReg x y else .nop (wordOfNibbles 0x5 x y n)) ∧
      decodeWord (wordOfNibbles 0x9 x y n) = (if n = 0 then .sneReg x y else .nop (wordOfNibbles 0x9 x y n))) ∧
    (∃ t, exec (.seReg x y) s = .next t ∧ t.pc = (if s.reg x = s.reg y then s.pc + 2 else s.pc) ∧
      SameBut [.pc] s t) ∧
    (∃ t, exec (.sneReg x y) s = .next t ∧ t.pc = (if s.reg x ≠ s.reg y then s.pc + 2 else s.pc) ∧
      SameBut [.pc] s t)

/-- JP V0, nnn (R143): the sum of V0 and the address, not reduced to 12 bits (D9, log 15). -/
def Obligations.JumpV0AddsV0 : Prop :=
  ∀ (nnn : BitVec 12) (s : State), ∃ t, exec (.jpV0 nnn) s = .next t ∧
    t.pc.toNat = (s.reg 0).toNat + nnn.toNat ∧ SameBut [.pc] s t

/-- CALL nnn (R142) inside memory: `sp` goes down by 2, the advanced `pc` is stored there big-endian, `pc` is the target
(D2 to D4, log 13). -/
def Obligations.CallPushesAndJumps : Prop :=
  ∀ (nnn : BitVec 12) (s : State), s.mem.wf → (s.sp - 2).toNat + 1 < 4096 →
    ∃ t, exec (.call nnn) s = .next t ∧ t.sp = s.sp - 2 ∧
      (t.byteAt (s.sp - 2).toNat).toNat = s.pc.toNat / 256 ∧
      (t.byteAt ((s.sp - 2).toNat + 1)).toNat = s.pc.toNat % 256 ∧
      t.pc.toNat = nnn.toNat ∧
      SameBut ([.sp, .pc] ++ cellsFrom (s.sp - 2).toNat 2) s t

/-- RET (R141) inside memory: all 16 bits at `sp`, big-endian (D4, log 13), go to `pc`; `sp` goes up by 2; memory is
unchanged. -/
def Obligations.ReturnPops : Prop :=
  ∀ s : State, s.sp.toNat + 1 < 4096 →
    ∃ t, exec .ret s = .next t ∧
      t.pc.toNat = (s.byteAt s.sp.toNat).toNat * 256 + (s.byteAt (s.sp.toNat + 1)).toNat ∧
      t.sp = s.sp + 2 ∧ SameBut [.sp, .pc] s t

/-- CALL then RET, with no store between (R149): `sp` and `pc` are restored to what they were when CALL executed, and only
the two stack bytes differ (D2, D3, log 13). -/
def Obligations.ReturnUndoesCall : Prop :=
  ∀ (nnn : BitVec 12) (s : State), s.mem.wf → (s.sp - 2).toNat + 1 < 4096 →
    ∃ t u, exec (.call nnn) s = .next t ∧ exec .ret t = .next u ∧ SameBut (cellsFrom (s.sp - 2).toNat 2) s u

/-- CALL and RET outside memory take `MemoryOutOfRange` of the first failing byte (R62, R141, R142; D5, log 11): CALL has
moved `sp` and may have stored its first byte, RET has changed nothing; `pc` is unchanged in each. The address `sp - 2`, the
moved `sp` and the high byte at the lower address rest on D3 and D4 (log 13); what stands beside the fault's record is the
model's choice (D36, log 6). -/
def Obligations.StackAccessFaults : Prop :=
  ∀ (nnn : BitVec 12) (s : State),
    (4096 ≤ (s.sp - 2).toNat → ∃ t, exec (.call nnn) s = .next t ∧ t.sp = s.sp - 2 ∧
      t.faulted = some ⟨.memoryOutOfRange (s.sp - 2), s.currentOpcode⟩ ∧ SameBut [.sp, .faulted] s t) ∧
    (s.mem.wf → s.sp = 0x1001 → ∃ t, exec (.call nnn) s = .next t ∧ t.sp = 0x0FFF ∧
      (t.byteAt 0x0FFF).toNat = s.pc.toNat / 256 ∧
      t.faulted = some ⟨.memoryOutOfRange 0x1000, s.currentOpcode⟩ ∧ SameBut [.sp, .faulted, .cell 0x0FFF] s t) ∧
    (4096 ≤ s.sp.toNat → ∃ t, exec .ret s = .next t ∧
      t.faulted = some ⟨.memoryOutOfRange s.sp, s.currentOpcode⟩ ∧ SameBut [.faulted] s t) ∧
    (s.sp = 0x0FFF → ∃ t, exec .ret s = .next t ∧
      t.faulted = some ⟨.memoryOutOfRange 0x1000, s.currentOpcode⟩ ∧ SameBut [.faulted] s t)

/-! ## Registers and arithmetic -/

/-- LD Vx, nn and ADD Vx, nn (R161, R162), with their encodings: VF is not written unless it is the destination. -/
def Obligations.ImmediateLoadAndAdd : Prop :=
  ∀ (x : Reg) (nn : Byte) (s : State),
    decodeWord (wordXNn 0x6 x nn) = .ldImm x nn ∧ decodeWord (wordXNn 0x7 x nn) = .addImm x nn ∧
    (∃ t, exec (.ldImm x nn) s = .next t ∧ t.reg x = nn ∧ SameBut [.reg x] s t) ∧
    (∃ t, exec (.addImm x nn) s = .next t ∧ (t.reg x).toNat = ((s.reg x).toNat + nn.toNat) % 256 ∧
      SameBut [.reg x] s t)

/-- LD, OR, AND, XOR Vx, Vy (R163 to R166), bit by bit, with their encodings: VF is untouched unless it is the
destination. Which last digit stands for which operation: D14, log 19. -/
def Obligations.MoveAndLogic : Prop :=
  ∀ (x y : Reg) (s : State),
    (decodeWord (wordOfNibbles 0x8 x y 0x0) = .ldReg x y ∧ decodeWord (wordOfNibbles 0x8 x y 0x1) = .orReg x y ∧
      decodeWord (wordOfNibbles 0x8 x y 0x2) = .andReg x y ∧ decodeWord (wordOfNibbles 0x8 x y 0x3) = .xorReg x y) ∧
    (∃ t, exec (.ldReg x y) s = .next t ∧ t.reg x = s.reg y ∧ SameBut [.reg x] s t) ∧
    (∃ t, exec (.orReg x y) s = .next t ∧
      (∀ j, (t.reg x).getLsbD j = ((s.reg x).getLsbD j || (s.reg y).getLsbD j)) ∧ SameBut [.reg x] s t) ∧
    (∃ t, exec (.andReg x y) s = .next t ∧
      (∀ j, (t.reg x).getLsbD j = ((s.reg x).getLsbD j && (s.reg y).getLsbD j)) ∧ SameBut [.reg x] s t) ∧
    (∃ t, exec (.xorReg x y) s = .next t ∧
      (∀ j, (t.reg x).getLsbD j = ((s.reg x).getLsbD j != (s.reg y).getLsbD j)) ∧ SameBut [.reg x] s t)

/-- ADD, SUB, SUBN Vx, Vy (R160, R167, R168, R170): the result modulo 256; VF is carry or no-borrow, and with `x = F` the
flag is what stays (R124, D10, log 16). -/
def Obligations.AddAndSubtractWithFlag : Prop :=
  ∀ (x y : Reg) (s : State),
    (∃ t, exec (.addReg x y) s = .next t ∧
      (x ≠ vf → (t.reg x).toNat = ((s.reg x).toNat + (s.reg y).toNat) % 256) ∧
      t.reg vf = (if 255 < (s.reg x).toNat + (s.reg y).toNat then 1 else 0) ∧ SameBut [.reg x, .reg vf] s t) ∧
    (∃ t, exec (.subReg x y) s = .next t ∧
      (x ≠ vf → (t.reg x).toNat = ((s.reg x).toNat + 256 - (s.reg y).toNat) % 256) ∧
      t.reg vf = (if (s.reg y).toNat ≤ (s.reg x).toNat then 1 else 0) ∧ SameBut [.reg x, .reg vf] s t) ∧
    (∃ t, exec (.subnReg x y) s = .next t ∧
      (x ≠ vf → (t.reg x).toNat = ((s.reg y).toNat + 256 - (s.reg x).toNat) % 256) ∧
      t.reg vf = (if (s.reg x).toNat ≤ (s.reg y).toNat then 1 else 0) ∧ SameBut [.reg x, .reg vf] s t)

/-- SHR Vx and SHL Vx (R169, R171): in place by one bit, whatever `y` is (D13, log 18); VF is the bit shifted out, and with
`x = F` the flag is what stays (R124, D10, log 16). -/
def Obligations.ShiftsMoveOneBit : Prop :=
  ∀ (x y : Reg) (s : State),
    (∃ t, exec (.shr x y) s = .next t ∧ (x ≠ vf → (t.reg x).toNat = (s.reg x).toNat / 2) ∧
      (t.reg vf).toNat = (s.reg x).toNat % 2 ∧ SameBut [.reg x, .reg vf] s t) ∧
    (∃ t, exec (.shl x y) s = .next t ∧ (x ≠ vf → (t.reg x).toNat = (s.reg x).toNat * 2 % 256) ∧
      (t.reg vf).toNat = (s.reg x).toNat / 128 ∧ SameBut [.reg x, .reg vf] s t)

/-- RND Vx, nn (R172): a random byte AND `nn`, so no bit that `nn` lacks: the byte the random input has decided, any byte
whatever, and the free value, of which nothing is known, where it has decided none (D29, log 8); each execution uses one. -/
def Obligations.RandomIsMasked : Prop :=
  ∀ (x : Reg) (nn : Byte) (s : State), ∃ t, exec (.rnd x nn) s = .next t ∧
    (∀ j, (t.reg x).getLsbD j =
      ((s.randomInput.head?.getD (Config.randomByte s.draws)).getLsbD j && nn.getLsbD j)) ∧
    t.randomInput = s.randomInput.tail ∧ t.draws = s.draws + 1 ∧ SameBut [.reg x, .randomInput, .draws] s t

/-- The flag is a bit (R22, R41 a): after 8xy4, 8xy5, 8xy6, 8xy7, 8xyE or Dxyn VF is 0x00 or 0x01 (with `x = F`: D10, log 16).
After a Dxyn that faults too, which R41 does not claim: that is the model's choice (partial writes stay: D36, log 6). -/
def Obligations.FlagWritersLeaveABit : Prop :=
  ∀ (x y : Reg) (n : Fin 16) (i : Instr) (s t : State),
    i ∈ [.addReg x y, .subReg x y, .shr x y, .subnReg x y, .shl x y, .drw x y n] →
    exec i s = .next t → t.reg vf = 0 ∨ t.reg vf = 1

/-! ## Index register and memory -/

/-- LD I, nnn (R190), with its encoding: `I` is the address, nothing else changes. -/
def Obligations.IndexIsSet : Prop :=
  ∀ (nnn : BitVec 12) (s : State), decodeWord (wordNnn 0xA nnn) = .ldI nnn ∧
    ∃ t, exec (.ldI nnn) s = .next t ∧ t.index.toNat = nnn.toNat ∧ SameBut [.index] s t

/-- ADD I, Vx and LD F, Vx (R191, R192): modulo 2^16 with VF untouched (D9, D16), and `0x050 + 5 * V[x]` with no mask (D17);
log 15 and log 20. -/
def Obligations.IndexArithmetic : Prop :=
  ∀ (x : Reg) (s : State),
    (∃ t, exec (.addI x) s = .next t ∧ t.index.toNat = (s.index.toNat + (s.reg x).toNat) % 65536 ∧
      SameBut [.index] s t) ∧
    (∃ t, exec (.ldF x) s = .next t ∧ t.index.toNat = 0x050 + 5 * (s.reg x).toNat ∧ SameBut [.index] s t)

/-- LD B, Vx (R194) inside memory: hundreds, tens, units at `I`, `I+1`, `I+2`, each a digit 0..9, together the value;
`I` is unchanged (D15, log 20). -/
def Obligations.DecimalDigitsAreStored : Prop :=
  ∀ (x : Reg) (s : State), s.mem.wf → s.index.toNat + 2 < 4096 →
    ∃ t, exec (.ldB x) s = .next t ∧
      100 * (t.byteAt s.index.toNat).toNat + 10 * (t.byteAt (s.index.toNat + 1)).toNat +
        (t.byteAt (s.index.toNat + 2)).toNat = (s.reg x).toNat ∧
      (∀ j, j < 3 → (t.byteAt (s.index.toNat + j)).toNat ≤ 9) ∧
      SameBut (cellsFrom s.index.toNat 3) s t

/-- LD [I], Vx (R195) inside memory: `V[r]` stands at `I + r` for every `r <= x`; the registers and `I` are unchanged (D15,
log 20). -/
def Obligations.RegistersAreStored : Prop :=
  ∀ (x : Reg) (s : State), s.mem.wf → s.index.toNat + x.val < 4096 →
    ∃ t, exec (.storeRegs x) s = .next t ∧
      (∀ r : Reg, r ≤ x → t.byteAt (s.index.toNat + r.val) = s.reg r) ∧
      SameBut (cellsFrom s.index.toNat (x.val + 1)) s t

/-- LD Vx, [I] (R196) inside memory: `V[r]` is the byte at `I + r` for every `r <= x`; memory, `I` and the registers above
`x` are unchanged (D15, log 20). -/
def Obligations.RegistersAreLoaded : Prop :=
  ∀ (x : Reg) (s : State), s.index.toNat + x.val < 4096 →
    ∃ t, exec (.loadRegs x) s = .next t ∧
      (∀ r : Reg, r ≤ x → t.reg r = s.byteAt (s.index.toNat + r.val)) ∧
      SameBut ((regsUpTo x).map .reg) s t

/-- Fx33, Fx55, Fx65 that leave memory (R193 to R196, R125): `MemoryOutOfRange` of the first address above 0x0FFF (D5,
log 11); the elements below it have been moved, the others have not, which is the model's choice (D36, log 6). -/
def Obligations.BlockAccessFaults : Prop :=
  ∀ (x : Reg) (s : State), s.mem.wf →
    (4096 ≤ s.index.toNat + 2 → ∃ t, exec (.ldB x) s = .next t ∧
      t.faulted = some ⟨.memoryOutOfRange (if s.index.toNat < 4096 then 0x1000 else s.index), s.currentOpcode⟩ ∧
      (∀ j, j < 3 → s.index.toNat + j < 4096 →
        t.byteAt (s.index.toNat + j) = (decimalDigits (s.reg x)).getD j 0) ∧
      SameBut (.faulted :: cellsFrom s.index.toNat (4096 - s.index.toNat)) s t) ∧
    (4096 ≤ s.index.toNat + x.val → ∃ t, exec (.storeRegs x) s = .next t ∧
      t.faulted = some ⟨.memoryOutOfRange (if s.index.toNat < 4096 then 0x1000 else s.index), s.currentOpcode⟩ ∧
      (∀ r : Reg, s.index.toNat + r.val < 4096 → t.byteAt (s.index.toNat + r.val) = s.reg r) ∧
      SameBut (.faulted :: cellsFrom s.index.toNat (4096 - s.index.toNat)) s t) ∧
    (4096 ≤ s.index.toNat + x.val → ∃ t, exec (.loadRegs x) s = .next t ∧
      t.faulted = some ⟨.memoryOutOfRange (if s.index.toNat < 4096 then 0x1000 else s.index), s.currentOpcode⟩ ∧
      (∀ r : Reg, t.reg r = if s.index.toNat + r.val < 4096 then s.byteAt (s.index.toNat + r.val) else s.reg r) ∧
      SameBut (.faulted :: (regsUpTo x).map .reg) s t)

/-! ## Display -/

/-- CLS (R210), with its encoding: every display row is 0, so every pixel is off; VF and everything else is unchanged. -/
def Obligations.ClearDisplayTurnsEveryPixelOff : Prop :=
  decodeWord 0x00E0 = .cls ∧
  ∀ s : State, ∃ t, exec .cls s = .next t ∧ (∀ r, t.row r = 0) ∧ (∀ r c, t.pixel r c = false) ∧ SameBut allRows s t

/-- `RowMask` pixel by pixel (R213): column `c` is on iff it is where a set pixel `j` of the sprite row lands, column
`cx + j`, with wrap modulo 64; a pixel past column 63 is dropped without wrap. Bit 7 is the leftmost pixel (D25,
log 22). -/
def Obligations.RowMaskPlacesEachPixel : Prop :=
  ∀ (wrap : Bool) (b : Byte) (cx c : Nat), cx < 64 → c < 64 →
    ((rowMask wrap b cx).getLsbD (63 - c) = true ↔
      ∃ j, j < 8 ∧ b.getLsbD (7 - j) = true ∧ (if wrap then (cx + j) % 64 else cx + j) = c)

/-- The display row of a row index (R212, R214): itself below 32; from 32 on, modulo 32 with wrap and none without (D24,
log 22). -/
def Obligations.DisplayRowPlacesEachRow : Prop :=
  ∀ (wrap : Bool) (i : Nat) (d : Fin 32),
    displayRow wrap i = some d ↔ (i < 32 ∧ d.val = i) ∨ (32 ≤ i ∧ wrap = true ∧ d.val = i % 32)

/-- DRW Vx, Vy, n (R212, R214, R215) whose drawn rows lie in memory: sprite row `i` is XORed into the display row its index
`V[y] mod 64 + i` falls on, with clip or wrap; every other display row is unchanged; VF is 1 iff some drawn row met an
on-pixel. The coordinates are the old registers, VF included; `I` is unchanged. (D15, D23 to D26; log 20, log 22.) -/
def Obligations.DrawXorsTheSprite : Prop :=
  ∀ (x y : Reg) (n : Fin 16) (s : State),
    let cx := (s.reg x).toNat % 64
    let ry := (s.reg y).toNat % 64
    let mask := fun i => rowMask s.yWrapEnabled (s.byteAt (s.index.toNat + i)) cx
    let lands := fun i r => i < n.val ∧ displayRow s.yWrapEnabled (ry + i) = some r
    (∀ i r, lands i r → s.index.toNat + i < 4096) →
    ∃ t, exec (.drw x y n) s = .next t ∧
      (∀ i r, lands i r → t.row r = s.row r ^^^ mask i) ∧
      (∀ r, (∀ i, ¬ lands i r) → t.row r = s.row r) ∧
      ((∃ i r, lands i r ∧ s.row r &&& mask i ≠ 0) → t.reg vf = 1) ∧
      ((∀ i r, lands i r → s.row r &&& mask i = 0) → t.reg vf = 0) ∧
      SameBut (.reg vf :: allRows) s t

/-- Drawing the same sprite twice at the same place (R211), with VF no coordinate: the display, and all but VF, is as
before (`I` unchanged: D15, log 20; where the rows land: log 22). -/
def Obligations.DrawingTwiceRestores : Prop :=
  ∀ (x y : Reg) (n : Fin 16) (s : State), x ≠ vf → y ≠ vf →
    (∀ i r, i < n.val → displayRow s.yWrapEnabled ((s.reg y).toNat % 64 + i) = some r → s.index.toNat + i < 4096) →
    ∃ t u, exec (.drw x y n) s = .next t ∧ exec (.drw x y n) t = .next u ∧ SameBut [.reg vf] s u

/-- DRW whose sprite row `k` is the first drawn row outside memory (R212, R125): the fault of that row's address (D5, D26,
log 11, log 22); the rows before it have been drawn, no other, which is the model's choice (D36, log 6). -/
def Obligations.DrawFaultsAtTheFirstRowOutside : Prop :=
  ∀ (x y : Reg) (n : Fin 16) (s : State) (k : Nat),
    let ry := (s.reg y).toNat % 64
    let mask := fun i => rowMask s.yWrapEnabled (s.byteAt (s.index.toNat + i)) ((s.reg x).toNat % 64)
    k < n.val → (∃ r, displayRow s.yWrapEnabled (ry + k) = some r) →
    (∀ i, i < k → s.index.toNat + i < 4096) → 4096 ≤ s.index.toNat + k →
    ∃ t, exec (.drw x y n) s = .next t ∧
      t.faulted = some ⟨.memoryOutOfRange (s.index + BitVec.ofNat 16 k), s.currentOpcode⟩ ∧
      (∀ i r, i < k → displayRow s.yWrapEnabled (ry + i) = some r → t.row r = s.row r ^^^ mask i) ∧
      (∀ r, (∀ i, i < k → displayRow s.yWrapEnabled (ry + i) ≠ some r) → t.row r = s.row r) ∧
      SameBut (.faulted :: .reg vf :: allRows) s t

/-! ## Keys and timers -/

/-- SKP and SKNP (R230 to R232): a skip on the level of the key `V[x]`, with no other effect; a byte that names no key takes
`KeyIndexOutOfRange` (D6, log 12), and what stands beside that fault's record is the model's choice (D36, log 6). -/
def Obligations.KeySkips : Prop :=
  ∀ (x : Reg) (s : State),
    (∀ k : Key, (s.reg x).toNat = k.val →
      (∃ t, exec (.skp x) s = .next t ∧ t.pc = (if s.held k then s.pc + 2 else s.pc) ∧ SameBut [.pc] s t) ∧
      (∃ t, exec (.sknp x) s = .next t ∧ t.pc = (if s.held k then s.pc else s.pc + 2) ∧ SameBut [.pc] s t)) ∧
    (15 < (s.reg x).toNat → ∀ i ∈ [Instr.skp x, .sknp x], ∃ t, exec i s = .next t ∧
      t.faulted = some ⟨.keyIndexOutOfRange (s.reg x), s.currentOpcode⟩ ∧ SameBut [.faulted] s t)

/-- LD Vx, K (R233): Idle, it only enters Waiting and stays on itself; Waiting with no key held, it stays; Waiting with keys
held, it captures one of them and goes on (which one is free: D27, log 9; `key_captured`: D28, log 23). -/
def Obligations.BlockingKeyRead : Prop :=
  ∀ (x : Reg) (s : State),
    (s.waitingForKey = false → ∃ t, exec (.ldVxK x) s = .next t ∧ t.waitingForKey = true ∧
      t.keyCaptured = false ∧ t.pc = s.pc - 2 ∧ SameBut [.waiting, .captured, .pc] s t) ∧
    (s.waitingForKey = true → (∀ k, s.held k = false) →
      ∃ t, exec (.ldVxK x) s = .next t ∧ t.pc = s.pc - 2 ∧ SameBut [.pc] s t) ∧
    (s.waitingForKey = true → (∃ k, s.held k = true) →
      ∃ t k, exec (.ldVxK x) s = .next t ∧ s.held k = true ∧ (t.reg x).toNat = k.val ∧
        t.waitingForKey = false ∧ t.keyCaptured = true ∧
        SameBut [.reg x, .waiting, .captured, .keyInput, .picks] s t)

/-- LD Vx, DT; LD DT, Vx; LD ST, Vx (R234 to R236): which pattern moves which timer is from general knowledge (D18,
log 21). -/
def Obligations.TimerMoves : Prop :=
  ∀ (x : Reg) (s : State),
    (∃ t, exec (.ldVxDt x) s = .next t ∧ t.reg x = s.dt ∧ SameBut [.reg x] s t) ∧
    (∃ t, exec (.ldDtVx x) s = .next t ∧ t.dt = s.reg x ∧ SameBut [.dt] s t) ∧
    (∃ t, exec (.ldStVx x) s = .next t ∧ t.st = s.reg x ∧ SameBut [.st] s t)

/-! ## The other step kinds -/

/-- `TimerTick` (R262 to R264): both timers down by one, floored at 0; a tone command iff the level after the decrement
differs from the latch (D31, log 25), then `frame_ready`; nothing else changes, step mode and a waiting Fx0A or not. -/
def Obligations.TimerTickCountsDown : Prop :=
  ∀ s : State, s.safe → nextKind s = .timerTick →
    ∃ t, step s = .next t ∧ t.dt.toNat = s.dt.toNat - 1 ∧ t.st.toNat = s.st.toNat - 1 ∧
      t.toneOn = decide (1 < s.st.toNat) ∧
      t.emitted = s.emitted ++
        (if s.toneOn = decide (1 < s.st.toNat) then [] else if 1 < s.st.toNat then [.toneStart] else [.toneStop]) ++
        [.frameReady] ∧
      t.schedule = s.schedule.tail ∧ SameBut [.dt, .st, .tone, .emitted, .schedule] s t

/-- `KeyDown(k)` and `KeyUp(k)` (R266, D38): that key's level and nothing else. -/
def Obligations.KeyEventsSetOneKey : Prop :=
  ∀ (k : Key) (s : State), s.safe →
    (nextKind s = .keyDown k → ∃ t, step s = .next t ∧ t.held k = true ∧ SameBut [.key k, .schedule] s t) ∧
    (nextKind s = .keyUp k → ∃ t, step s = .next t ∧ t.held k = false ∧ SameBut [.key k, .schedule] s t)

/-- `DebugSet` (R272): the named flag takes the value (it is set, not toggled: D32, log 24), nothing else changes. -/
def Obligations.DebugWritesSetOneFlag : Prop :=
  ∀ (b : Bool) (s : State), s.safe →
    (nextKind s = .debugSet .stepMode b → ∃ t, step s = .next t ∧ t.stepMode = b ∧
      SameBut [.stepMode, .schedule] s t) ∧
    (nextKind s = .debugSet .advance b → ∃ t, step s = .next t ∧ t.advance = b ∧ SameBut [.advance, .schedule] s t)

/-- Step-mode gating (R274, P8): with step mode on and `advance` off any number of instruction ticks changes nothing; with
`advance` on, any number of ticks performs exactly one fetch-execute, which leaves `advance` cleared. -/
def Obligations.StepModeGatesTheTick : Prop :=
  ∀ (s : State) (n : Nat), s.schedule = [] → s.safe → s.stepMode = true →
    (s.advance = false → core.run n s = .next s) ∧
    (s.advance = true → s.pc.toNat < 0x0FFF →
      ∃ t, exec s.instructionAtPc s.beforeExecute = .next t ∧ t.advance = false ∧ core.run (n + 1) s = .next t)

/-- `Shutdown` (R277): once it has happened no step occurs; the engine's state is discarded, so nothing it held shows in what
is left; in a faulted engine, where no step changes the state (R38, R251; D34), all of it stays; and no instruction causes or
detects it: a run of an instruction with any other value of the flag does the same and leaves that value. That it is taken
while faulted, and how the end is written down (the flag, `Fault.shutDown`), are the model's choice (log 7). -/
def Obligations.NoStepAfterShutdown : Prop :=
  ∀ (s s' : State) (n : Nat),
    (s.safe → nextKind s = .shutdown →
      ∃ t, step s = .next t ∧ t.shutDown = true ∧ t.faulted = none ∧ SameEnvironment [.shutDown, .schedule] s t ∧
        (SameEnvironment [] s s' → s'.faulted = none → step s' = .next t)) ∧
    (s.shutDown = false → s.faulted ≠ none → nextKind s = .shutdown →
      ∃ t, step s = .next t ∧ t.shutDown = true ∧ SameBut [.shutDown, .schedule] s t) ∧
    (s.shutDown = true → core.run (n + 1) s = .fault .shutDown) ∧
    (∀ (i : Instr) (b : Bool) (t : State), exec i s = .next t →
      exec i { s with shutDown := b } = .next { t with shutDown := b })

/-! ## Whole-machine rules -/

/-- A fault is terminal (R38, R251; D34, log 6): in a faulted state a step of every kind leaves the whole state of the engine
as it is, `faulted` and its record included. Of the model's own fields the schedule loses its head (log 30) and `Shutdown`
sets its flag (log 7). -/
def Obligations.FaultIsTerminal : Prop :=
  ∀ s : State, s.faulted ≠ none → s.shutDown = false →
    ∃ t, step s = .next t ∧ t.faulted = s.faulted ∧ t.schedule = s.schedule.tail ∧
      (t.shutDown = true ↔ nextKind s = .shutdown) ∧ SameBut [.schedule, .shutDown] s t

/-- Which instructions fault, and what of the fault a claim may rest on (R250, R251): the cause, its value and
`current_opcode`, and nothing else of the faulted state. `MemoryOutOfRange` comes from 00EE, 2nnn, Dxyn, Fx33, Fx55, Fx65 only,
with an address above 0x0FFF; `KeyIndexOutOfRange` from Ex9E and ExA1 only, with `V[x]` above 0x0F (D5, D6, log 11, log 12). -/
def Obligations.FaultsComeFromTheirInstructions : Prop :=
  ∀ (i : Instr) (s t : State), s.faulted = none → exec i s = .next t →
    t.faulted = none ∨
    (∃ a, t.faulted = some ⟨.memoryOutOfRange a, s.currentOpcode⟩ ∧ 0x0FFF < a.toNat ∧
      (i = .ret ∨ (∃ nnn, i = .call nnn) ∨ (∃ x y n, i = .drw x y n) ∨
        ∃ x, i = .ldB x ∨ i = .storeRegs x ∨ i = .loadRegs x)) ∨
    (∃ x, t.faulted = some ⟨.keyIndexOutOfRange (s.reg x), s.currentOpcode⟩ ∧ 0x0F < (s.reg x).toNat ∧
      (i = .skp x ∨ i = .sknp x))

/-- Only the instruction being executed moves `pc` (R254): every other step kind leaves the program's whole state but the
timers and keys: registers, `pc`, `I`, `sp`, memory, display, the wait-for-key machine. `Shutdown`, after which there is no
state (R277), is the exception where no fault stands. That all of it stays where one does, at a `Shutdown` too, is the model's
choice: it follows D34 (10_state.md section 7; log 6), and log 7 reconciles that with R277. -/
def Obligations.OnlyInstructionsMoveThePc : Prop :=
  ∀ s t : State, step s = .next t → nextKind s ≠ .instrTick →
    (nextKind s = .shutdown → s.faulted ≠ none) →
    SameBut ([.dt, .st, .tone, .emitted, .stepMode, .advance, .schedule, .shutDown] ++ allKeys.map .key) s t

/-- Who writes what (R21 to R36, R256), over all instructions: no instruction writes the keys, the strap, the debug flags,
`tone_on` or `current_opcode`; a general register is written only as the destination of a load, move, ALU, random, timer-read
or key-read instruction or by Fx65 up to `x`, and VF also by the flag writers; `pc` only by jumps, CALL, RET, skips and Fx0A,
`sp` only by CALL and RET, `I` only by Annn, Fx1E, Fx29 (so not by block accesses or DRW: D15, log 20), the timers only by Fx15
and Fx18 (D18, log 21), the display only by CLS and DRW, memory only by CALL, Fx33, Fx55, the wait flags only by Fx0A
(`key_captured`: D28, log 23). -/
def Obligations.EachRegisterHasItsWriters : Prop :=
  ∀ (i : Instr) (s t : State), exec i s = .next t →
    (∀ k, t.held k = s.held k) ∧ t.yWrapEnabled = s.yWrapEnabled ∧ t.stepMode = s.stepMode ∧ t.advance = s.advance ∧
    t.toneOn = s.toneOn ∧ t.currentOpcode = s.currentOpcode ∧
    (∀ r, t.reg r ≠ s.reg r →
      (∃ nn, i = .ldImm r nn ∨ i = .addImm r nn ∨ i = .rnd r nn) ∨
      (∃ y, i = .ldReg r y ∨ i = .orReg r y ∨ i = .andReg r y ∨ i = .xorReg r y ∨ i = .addReg r y ∨ i = .subReg r y ∨
        i = .shr r y ∨ i = .subnReg r y ∨ i = .shl r y) ∨
      i = .ldVxDt r ∨ i = .ldVxK r ∨ (∃ x, i = .loadRegs x ∧ r ≤ x) ∨
      (r = vf ∧ ∃ x y, i = .addReg x y ∨ i = .subReg x y ∨ i = .shr x y ∨ i = .subnReg x y ∨ i = .shl x y ∨
        ∃ n, i = .drw x y n)) ∧
    (t.pc ≠ s.pc → i = .ret ∨ (∃ nnn, i = .jp nnn ∨ i = .call nnn ∨ i = .jpV0 nnn) ∨
      (∃ x nn, i = .seImm x nn ∨ i = .sneImm x nn) ∨ (∃ x y, i = .seReg x y ∨ i = .sneReg x y) ∨
      ∃ x, i = .skp x ∨ i = .sknp x ∨ i = .ldVxK x) ∧
    (t.sp ≠ s.sp → i = .ret ∨ ∃ nnn, i = .call nnn) ∧
    (t.index ≠ s.index → (∃ nnn, i = .ldI nnn) ∨ ∃ x, i = .addI x ∨ i = .ldF x) ∧
    (t.dt ≠ s.dt → ∃ x, i = .ldDtVx x) ∧ (t.st ≠ s.st → ∃ x, i = .ldStVx x) ∧
    (∀ r, t.row r ≠ s.row r → i = .cls ∨ ∃ x y n, i = .drw x y n) ∧
    (∀ a, t.byteAt a ≠ s.byteAt a → (∃ nnn, i = .call nnn) ∨ ∃ x, i = .ldB x ∨ i = .storeRegs x) ∧
    (t.waitingForKey ≠ s.waitingForKey ∨ t.keyCaptured ≠ s.keyCaptured → ∃ x, i = .ldVxK x)

/-- No instruction sees the debug flags or the tone latch (R36, R37): two runs that differ only in them differ only in them
afterwards. -/
def Obligations.DebugFlagsAreInvisible : Prop :=
  ∀ (i : Instr) (s t : State) (stepMode advance toneOn : Bool), exec i s = .next t →
    exec i { s with stepMode := stepMode, advance := advance, toneOn := toneOn } =
      .next { t with stepMode := stepMode, advance := advance, toneOn := toneOn }

/-- A finished program stays put (R278; D33, log 33): an instruction tick rewrites `pc` with the same value and
`current_opcode` with the self-jump; nothing else changes, and the program is still finished. -/
def Obligations.FinishedProgramStaysPut : Prop :=
  ∀ s : State, s.finished → s.safe → s.gateOpen → nextKind s = .instrTick →
    ∃ t, step s = .next t ∧ t.currentOpcode = 0x1000 ||| s.pc ∧ t.finished ∧
      SameBut [.opcode, .advance, .schedule] s t
end

