-- ==== Sys2Proof/Laws/Decode.lean ====
section
/-! SUPPORT. Laws/Decode.lean: the fields of a word as numbers, the fields of an encoded word, and the masks of the opcode map
as conditions on fields. -/

namespace Sys2Proof

/-! ## Fields as numbers -/

theorem fieldType_val (w : Word) : (fieldType w).val = w.toNat / 4096 := by
  have := w.isLt; show w.toNat / 2 ^ 12 % 16 = _; omega
theorem fieldX_val (w : Word) : (fieldX w).val = w.toNat / 256 % 16 := rfl
theorem fieldY_val (w : Word) : (fieldY w).val = w.toNat / 16 % 16 := rfl
theorem fieldN_val (w : Word) : (fieldN w).val = w.toNat % 16 := by show w.toNat / 2 ^ 0 % 16 = _; omega
theorem fieldNn_toNat (w : Word) : (fieldNn w).toNat = w.toNat % 256 := by
  simp [fieldNn, BitVec.extractLsb'_toNat]
theorem fieldNnn_toNat (w : Word) : (fieldNnn w).toNat = w.toNat % 4096 := by
  simp [fieldNnn, BitVec.extractLsb'_toNat]

/-! ## Encoded words as numbers -/

theorem wordOfNibbles_toNat (a b c d : Fin 16) :
    (wordOfNibbles a b c d).toNat = a.val * 4096 + b.val * 256 + c.val * 16 + d.val := by
  simp only [wordOfNibbles, BitVec.toNat_ofNat]; omega

theorem wordXNn_toNat (t x : Fin 16) (nn : Byte) :
    (wordXNn t x nn).toNat = t.val * 4096 + x.val * 256 + nn.toNat := by
  have := nn.isLt
  simp only [wordXNn, BitVec.toNat_ofNat]; omega

theorem wordNnn_toNat (t : Fin 16) (nnn : BitVec 12) : (wordNnn t nnn).toNat = t.val * 4096 + nnn.toNat := by
  have := nnn.isLt
  simp only [wordNnn, BitVec.toNat_ofNat]; omega

/-! ## The fields of encoded words -/

section
variable (a b c d t x : Fin 16) (nn : Byte) (nnn : BitVec 12)

@[simp] theorem fieldType_wordOfNibbles : fieldType (wordOfNibbles a b c d) = a :=
  Fin.ext (by rw [fieldType_val, wordOfNibbles_toNat]; omega)
@[simp] theorem fieldX_wordOfNibbles : fieldX (wordOfNibbles a b c d) = b :=
  Fin.ext (by rw [fieldX_val, wordOfNibbles_toNat]; omega)
@[simp] theorem fieldY_wordOfNibbles : fieldY (wordOfNibbles a b c d) = c :=
  Fin.ext (by rw [fieldY_val, wordOfNibbles_toNat]; omega)
@[simp] theorem fieldN_wordOfNibbles : fieldN (wordOfNibbles a b c d) = d :=
  Fin.ext (by rw [fieldN_val, wordOfNibbles_toNat]; omega)

@[simp] theorem fieldType_wordXNn : fieldType (wordXNn t x nn) = t :=
  Fin.ext (by have := nn.isLt; rw [fieldType_val, wordXNn_toNat]; omega)
@[simp] theorem fieldX_wordXNn : fieldX (wordXNn t x nn) = x :=
  Fin.ext (by have := nn.isLt; rw [fieldX_val, wordXNn_toNat]; omega)
@[simp] theorem fieldNn_wordXNn : fieldNn (wordXNn t x nn) = nn :=
  BitVec.eq_of_toNat_eq (by have := nn.isLt; rw [fieldNn_toNat, wordXNn_toNat]; omega)

@[simp] theorem fieldType_wordNnn : fieldType (wordNnn t nnn) = t :=
  Fin.ext (by have := nnn.isLt; rw [fieldType_val, wordNnn_toNat]; omega)
@[simp] theorem fieldNnn_wordNnn : fieldNnn (wordNnn t nnn) = nnn :=
  BitVec.eq_of_toNat_eq (by have := nnn.isLt; rw [fieldNnn_toNat, wordNnn_toNat]; omega)

end

/-! ## The masks of the opcode map -/

theorem land_testBit {n m k : Nat} (hn : n < 65536)
    (h : ∀ i, i < 16 → (n.testBit i && m.testBit i) = k.testBit i) (hk : k < 65536) :
    n &&& m = k := by
  refine Nat.eq_of_testBit_eq fun i => ?_
  rw [Nat.testBit_and]
  by_cases hi : i < 16
  · exact h i hi
  · have hp : (65536 : Nat) ≤ 2 ^ i := Nat.pow_le_pow_right (n := 2) (by decide) (show 16 ≤ i by omega)
    rw [Nat.testBit_lt_two_pow (by omega : n < 2 ^ i), Nat.testBit_lt_two_pow (by omega : k < 2 ^ i), Bool.false_and]

theorem maskF000_toNat (w : Word) : (w &&& 0xF000).toNat = w.toNat / 4096 * 4096 := by
  have := w.isLt
  rw [BitVec.toNat_and]
  refine land_testBit this (fun i hi => ?_) (by omega)
  simp only [Nat.testBit_eq_decide_div_mod_eq]
  interval_cases i <;> simp <;> omega

theorem maskF00F_toNat (w : Word) : (w &&& 0xF00F).toNat = w.toNat / 4096 * 4096 + w.toNat % 16 := by
  have := w.isLt
  rw [BitVec.toNat_and]
  refine land_testBit this (fun i hi => ?_) (by omega)
  simp only [Nat.testBit_eq_decide_div_mod_eq]
  interval_cases i <;> simp <;> omega

theorem maskF0FF_toNat (w : Word) : (w &&& 0xF0FF).toNat = w.toNat / 4096 * 4096 + w.toNat % 256 := by
  have := w.isLt
  rw [BitVec.toNat_and]
  refine land_testBit this (fun i hi => ?_) (by omega)
  simp only [Nat.testBit_eq_decide_div_mod_eq]
  interval_cases i <;> simp <;> omega

theorem maskFFFF (w : Word) : w &&& 0xFFFF = w := BitVec.and_allOnes

/-- A row with mask `F000` accepts by type. -/
theorem accepts_F000 (rule : Nat) (v w : Word) :
    (OpcodeRow.mk rule 0xF000 v).accepts w = true ↔ w.toNat / 4096 * 4096 = v.toNat := by
  simp only [OpcodeRow.accepts, beq_iff_eq, ← BitVec.toNat_inj, maskF000_toNat]

/-- A row with mask `F00F` accepts by type and `n`. -/
theorem accepts_F00F (rule : Nat) (v w : Word) :
    (OpcodeRow.mk rule 0xF00F v).accepts w = true ↔ w.toNat / 4096 * 4096 + w.toNat % 16 = v.toNat := by
  simp only [OpcodeRow.accepts, beq_iff_eq, ← BitVec.toNat_inj, maskF00F_toNat]

/-- A row with mask `F0FF` accepts by type and `nn`. -/
theorem accepts_F0FF (rule : Nat) (v w : Word) :
    (OpcodeRow.mk rule 0xF0FF v).accepts w = true ↔ w.toNat / 4096 * 4096 + w.toNat % 256 = v.toNat := by
  simp only [OpcodeRow.accepts, beq_iff_eq, ← BitVec.toNat_inj, maskF0FF_toNat]

/-- A row with mask `FFFF` accepts its one word. -/
theorem accepts_FFFF (rule : Nat) (v w : Word) :
    (OpcodeRow.mk rule 0xFFFF v).accepts w = true ↔ w.toNat = v.toNat := by
  simp only [OpcodeRow.accepts, beq_iff_eq, ← BitVec.toNat_inj, maskFFFF]

end Sys2Proof
end

