-- ==== Sys2Proof/Laws/Memory.lean ====
section
/-! SUPPORT. Laws/Memory.lean: the laws of memory in canonical form: reading after writing, writing keeps the form, equal
readings are equal data, loading bytes. -/

namespace Sys2Proof.Machine

/-- Addresses strictly rising: the part of `Memory.wf` that reading needs. -/
abbrev Memory.sorted (m : Memory) : Prop := m.Pairwise fun c d => c.1 < d.1

theorem Memory.read_of_not_listed {m : Memory} {a : Nat} (h : ∀ c ∈ m, c.1 ≠ a) :
    m.read a = Memory.unlisted a := by
  induction m with
  | nil => rfl
  | cons c m ih =>
    rw [Memory.read, if_neg (h c (by simp))]
    exact ih fun d hd => h d (by simp [hd])

theorem Memory.read_cons {m : Memory} {a : Nat} (b : Byte) (h : ∀ c ∈ m, c.1 ≠ a) (a' : Nat) :
    (Memory.cons a b m).read a' = if a' = a then b else m.read a' := by
  unfold Memory.cons
  split
  · next hb =>
    split
    · next e => rw [e, Memory.read_of_not_listed h, hb]
    · rfl
  · simp only [Memory.read, eq_comm]

theorem Memory.mem_cons_cells {m : Memory} {a : Nat} {b : Byte} {c : Host.Cell} (h : c ∈ Memory.cons a b m) :
    c = (a, b) ∧ b ≠ Memory.unlisted a ∨ c ∈ m := by
  unfold Memory.cons at h
  split at h
  · exact .inr h
  · next hb => exact (List.mem_cons.1 h).imp (⟨·, hb⟩) id

theorem Memory.mem_write {m : Memory} {a : Nat} {b : Byte} {c : Host.Cell} (h : c ∈ m.write a b) :
    c = (a, b) ∧ b ≠ Memory.unlisted a ∨ c ∈ m := by
  induction m with
  | nil => exact Memory.mem_cons_cells h
  | cons d m ih =>
    unfold Memory.write at h
    split at h
    · exact Memory.mem_cons_cells h
    · split at h
      · exact (Memory.mem_cons_cells h).imp id (List.mem_cons_of_mem _)
      · rcases List.mem_cons.1 h with h | h
        · exact .inr (h ▸ List.mem_cons_self)
        · exact (ih h).imp id (List.mem_cons_of_mem _)

theorem Memory.sorted_cons {m : Memory} {a : Nat} {b : Byte} (hm : m.sorted) (h : ∀ c ∈ m, a < c.1) :
    (Memory.cons a b m).sorted := by
  unfold Memory.cons
  split
  · exact hm
  · exact List.pairwise_cons.2 ⟨fun c hc => h c hc, hm⟩

theorem Memory.sorted_write {m : Memory} (hm : m.sorted) (a : Nat) (b : Byte) : (m.write a b).sorted := by
  induction m with
  | nil => exact Memory.sorted_cons .nil (by simp)
  | cons d m ih =>
    obtain ⟨hd, hs⟩ := List.pairwise_cons.1 hm
    unfold Memory.write
    split
    · next h =>
      refine Memory.sorted_cons hm fun c hc => ?_
      rcases List.mem_cons.1 hc with e | hc
      · exact e ▸ h
      · exact h.trans (hd c hc)
    · split
      · next _ e => exact Memory.sorted_cons hs fun c hc => e ▸ hd c hc
      · next h e =>
        refine List.pairwise_cons.2 ⟨fun c hc => ?_, ih hs⟩
        rcases Memory.mem_write hc with ⟨rfl, -⟩ | hc
        · show d.1 < a
          omega
        · exact hd c hc

/-- Reading after a write: the byte written, or what stood there. -/
theorem Memory.read_write {m : Memory} (hm : m.sorted) (a : Nat) (b : Byte) (a' : Nat) :
    (m.write a b).read a' = if a' = a then b else m.read a' := by
  induction m with
  | nil => exact Memory.read_cons b (by simp) a'
  | cons d m ih =>
    obtain ⟨hd, hs⟩ := List.pairwise_cons.1 hm
    unfold Memory.write
    split
    · next h =>
      refine Memory.read_cons b (fun c hc => ?_) a'
      rcases List.mem_cons.1 hc with e | hc
      · subst e; omega
      · have := hd c hc; omega
    · split
      · next _ e =>
        rw [Memory.read_cons b (fun c hc => by have := hd c hc; omega) a', Memory.read]
        by_cases h : a' = a
        · simp [h]
        · rw [if_neg h, if_neg h, if_neg (by omega)]
      · next h e =>
        simp only [Memory.read, ih hs]
        by_cases h' : d.1 = a'
        · rw [if_pos h', if_neg (by omega), if_pos h']
        · rw [if_neg h', if_neg h']

/-- A write inside the memory keeps the canonical form. -/
theorem Memory.wf_write {m : Memory} (hm : m.wf) {a : Nat} (ha : a < Config.memSize) (b : Byte) :
    (m.write a b).wf := by
  refine ⟨Memory.sorted_write hm.1 a b, fun c hc => ?_⟩
  rcases Memory.mem_write hc with ⟨rfl, hb⟩ | hc
  · exact ⟨ha, hb⟩
  · exact hm.2 c hc

theorem Memory.wf_nil : Memory.wf [] := ⟨.nil, by simp⟩

theorem Memory.wf_load {m : Memory} (hm : m.wf) (bs : List Byte) {a : Nat} (ha : a + bs.length ≤ Config.memSize) :
    (m.load a bs).wf := by
  induction bs generalizing m a with
  | nil => exact hm
  | cons b bs ih =>
    simp only [List.length_cons] at ha
    exact ih (Memory.wf_write hm (by omega) b) (by omega)

/-- Reading after a load: the byte loaded there, or what stood there. -/
theorem Memory.read_load {m : Memory} (hm : m.sorted) (a : Nat) (bs : List Byte) (a' : Nat) :
    (m.load a bs).read a' = if a ≤ a' ∧ a' < a + bs.length then bs.getD (a' - a) 0 else m.read a' := by
  induction bs generalizing m a with
  | nil => simp [Memory.load, show ¬ (a ≤ a' ∧ a' < a) by omega]
  | cons b bs ih =>
    rw [Memory.load, ih (Memory.sorted_write hm a b), Memory.read_write hm]
    simp only [List.length_cons]
    by_cases h : a' = a
    · subst h; simp
    · by_cases h2 : a + 1 ≤ a' ∧ a' < a + 1 + bs.length
      · rw [if_pos h2, if_pos (by omega), show a' - a = (a' - (a + 1)) + 1 by omega]
        simp
      · rw [if_neg h2, if_neg h, if_neg (by omega)]

/-- A listed cell reads as itself. -/
theorem Memory.read_of_mem {m : Memory} (hm : m.sorted) {c : Host.Cell} (hc : c ∈ m) : m.read c.1 = c.2 := by
  induction m with
  | nil => simp at hc
  | cons d m ih =>
    obtain ⟨hd, hs⟩ := List.pairwise_cons.1 hm
    rcases List.mem_cons.1 hc with e | hc
    · rw [e, Memory.read, if_pos rfl]
    · have := hd c hc
      rw [Memory.read, if_neg (by omega)]
      exact ih hs hc

/-- In a canonical memory a cell is listed iff it does not read as an unlisted one. -/
theorem Memory.mem_iff_read {m : Memory} (hm : m.wf) (a : Nat) (b : Byte) :
    (a, b) ∈ m ↔ m.read a = b ∧ b ≠ Memory.unlisted a := by
  refine ⟨fun h => ⟨Memory.read_of_mem hm.1 h, (hm.2 _ h).2⟩, fun ⟨hr, hb⟩ => ?_⟩
  by_cases h : ∀ c ∈ m, c.1 ≠ a
  · exact absurd ((Memory.read_of_not_listed h).symm.trans hr) (fun e => hb e.symm)
  · simp only [not_forall, not_not] at h
    obtain ⟨c, hc, rfl⟩ := h
    have := Memory.read_of_mem hm.1 hc
    rw [hr] at this
    exact this ▸ hc

/-- Outside the memory a canonical memory lists nothing. -/
theorem Memory.read_outside {m : Memory} (hm : m.wf) {a : Nat} (ha : Config.memSize ≤ a) :
    m.read a = Memory.unlisted a :=
  Memory.read_of_not_listed fun c hc => by have := (hm.2 c hc).1; omega

end Sys2Proof.Machine
end

