-- ==== Sys2Proof/Laws/State.lean ====
section
/-! SUPPORT. Laws/State.lean: for every named update of the state, what each field and each accessor reads after it. All
are true by rfl (but the accessor of the updated store itself) and tagged simp, so that no proof unfolds a record update. -/

namespace Sys2Proof.Machine

/-! ## `setReg` -/

@[simp] theorem setReg_v (s : State) (q : Reg) (b : Byte) : (s.setReg q b).v = s.v.set q b := rfl
@[simp] theorem setReg_pc (s : State) (q : Reg) (b : Byte) : (s.setReg q b).pc = s.pc := rfl
@[simp] theorem setReg_index (s : State) (q : Reg) (b : Byte) : (s.setReg q b).index = s.index := rfl
@[simp] theorem setReg_sp (s : State) (q : Reg) (b : Byte) : (s.setReg q b).sp = s.sp := rfl
@[simp] theorem setReg_dt (s : State) (q : Reg) (b : Byte) : (s.setReg q b).dt = s.dt := rfl
@[simp] theorem setReg_st (s : State) (q : Reg) (b : Byte) : (s.setReg q b).st = s.st := rfl
@[simp] theorem setReg_mem (s : State) (q : Reg) (b : Byte) : (s.setReg q b).mem = s.mem := rfl
@[simp] theorem setReg_display (s : State) (q : Reg) (b : Byte) : (s.setReg q b).display = s.display := rfl
@[simp] theorem setReg_keysHeld (s : State) (q : Reg) (b : Byte) : (s.setReg q b).keysHeld = s.keysHeld := rfl
@[simp] theorem setReg_waitingForKey (s : State) (q : Reg) (b : Byte) : (s.setReg q b).waitingForKey = s.waitingForKey := rfl
@[simp] theorem setReg_keyCaptured (s : State) (q : Reg) (b : Byte) : (s.setReg q b).keyCaptured = s.keyCaptured := rfl
@[simp] theorem setReg_currentOpcode (s : State) (q : Reg) (b : Byte) : (s.setReg q b).currentOpcode = s.currentOpcode := rfl
@[simp] theorem setReg_yWrapEnabled (s : State) (q : Reg) (b : Byte) : (s.setReg q b).yWrapEnabled = s.yWrapEnabled := rfl
@[simp] theorem setReg_stepMode (s : State) (q : Reg) (b : Byte) : (s.setReg q b).stepMode = s.stepMode := rfl
@[simp] theorem setReg_advance (s : State) (q : Reg) (b : Byte) : (s.setReg q b).advance = s.advance := rfl
@[simp] theorem setReg_toneOn (s : State) (q : Reg) (b : Byte) : (s.setReg q b).toneOn = s.toneOn := rfl
@[simp] theorem setReg_faulted (s : State) (q : Reg) (b : Byte) : (s.setReg q b).faulted = s.faulted := rfl
@[simp] theorem setReg_schedule (s : State) (q : Reg) (b : Byte) : (s.setReg q b).schedule = s.schedule := rfl
@[simp] theorem setReg_emitted (s : State) (q : Reg) (b : Byte) : (s.setReg q b).emitted = s.emitted := rfl
@[simp] theorem setReg_shutDown (s : State) (q : Reg) (b : Byte) : (s.setReg q b).shutDown = s.shutDown := rfl
@[simp] theorem setReg_randomInput (s : State) (q : Reg) (b : Byte) : (s.setReg q b).randomInput = s.randomInput := rfl
@[simp] theorem setReg_draws (s : State) (q : Reg) (b : Byte) : (s.setReg q b).draws = s.draws := rfl
@[simp] theorem setReg_keyInput (s : State) (q : Reg) (b : Byte) : (s.setReg q b).keyInput = s.keyInput := rfl
@[simp] theorem setReg_picks (s : State) (q : Reg) (b : Byte) : (s.setReg q b).picks = s.picks := rfl
@[simp] theorem setReg_byteAt (s : State) (q : Reg) (b : Byte) (a : Nat) : (s.setReg q b).byteAt a = s.byteAt a := rfl
@[simp] theorem setReg_row (s : State) (q : Reg) (b : Byte) (r : Fin 32) : (s.setReg q b).row r = s.row r := rfl
@[simp] theorem setReg_held (s : State) (q : Reg) (b : Byte) (k : Key) : (s.setReg q b).held k = s.held k := rfl

/-! ## `setPc` -/

@[simp] theorem setPc_v (s : State) (w : Word) : (s.setPc w).v = s.v := rfl
@[simp] theorem setPc_pc (s : State) (w : Word) : (s.setPc w).pc = w := rfl
@[simp] theorem setPc_index (s : State) (w : Word) : (s.setPc w).index = s.index := rfl
@[simp] theorem setPc_sp (s : State) (w : Word) : (s.setPc w).sp = s.sp := rfl
@[simp] theorem setPc_dt (s : State) (w : Word) : (s.setPc w).dt = s.dt := rfl
@[simp] theorem setPc_st (s : State) (w : Word) : (s.setPc w).st = s.st := rfl
@[simp] theorem setPc_mem (s : State) (w : Word) : (s.setPc w).mem = s.mem := rfl
@[simp] theorem setPc_display (s : State) (w : Word) : (s.setPc w).display = s.display := rfl
@[simp] theorem setPc_keysHeld (s : State) (w : Word) : (s.setPc w).keysHeld = s.keysHeld := rfl
@[simp] theorem setPc_waitingForKey (s : State) (w : Word) : (s.setPc w).waitingForKey = s.waitingForKey := rfl
@[simp] theorem setPc_keyCaptured (s : State) (w : Word) : (s.setPc w).keyCaptured = s.keyCaptured := rfl
@[simp] theorem setPc_currentOpcode (s : State) (w : Word) : (s.setPc w).currentOpcode = s.currentOpcode := rfl
@[simp] theorem setPc_yWrapEnabled (s : State) (w : Word) : (s.setPc w).yWrapEnabled = s.yWrapEnabled := rfl
@[simp] theorem setPc_stepMode (s : State) (w : Word) : (s.setPc w).stepMode = s.stepMode := rfl
@[simp] theorem setPc_advance (s : State) (w : Word) : (s.setPc w).advance = s.advance := rfl
@[simp] theorem setPc_toneOn (s : State) (w : Word) : (s.setPc w).toneOn = s.toneOn := rfl
@[simp] theorem setPc_faulted (s : State) (w : Word) : (s.setPc w).faulted = s.faulted := rfl
@[simp] theorem setPc_schedule (s : State) (w : Word) : (s.setPc w).schedule = s.schedule := rfl
@[simp] theorem setPc_emitted (s : State) (w : Word) : (s.setPc w).emitted = s.emitted := rfl
@[simp] theorem setPc_shutDown (s : State) (w : Word) : (s.setPc w).shutDown = s.shutDown := rfl
@[simp] theorem setPc_randomInput (s : State) (w : Word) : (s.setPc w).randomInput = s.randomInput := rfl
@[simp] theorem setPc_draws (s : State) (w : Word) : (s.setPc w).draws = s.draws := rfl
@[simp] theorem setPc_keyInput (s : State) (w : Word) : (s.setPc w).keyInput = s.keyInput := rfl
@[simp] theorem setPc_picks (s : State) (w : Word) : (s.setPc w).picks = s.picks := rfl
@[simp] theorem setPc_reg (s : State) (w : Word) (r : Reg) : (s.setPc w).reg r = s.reg r := rfl
@[simp] theorem setPc_byteAt (s : State) (w : Word) (a : Nat) : (s.setPc w).byteAt a = s.byteAt a := rfl
@[simp] theorem setPc_row (s : State) (w : Word) (r : Fin 32) : (s.setPc w).row r = s.row r := rfl
@[simp] theorem setPc_held (s : State) (w : Word) (k : Key) : (s.setPc w).held k = s.held k := rfl

/-! ## `setIndex` -/

@[simp] theorem setIndex_v (s : State) (w : Word) : (s.setIndex w).v = s.v := rfl
@[simp] theorem setIndex_pc (s : State) (w : Word) : (s.setIndex w).pc = s.pc := rfl
@[simp] theorem setIndex_index (s : State) (w : Word) : (s.setIndex w).index = w := rfl
@[simp] theorem setIndex_sp (s : State) (w : Word) : (s.setIndex w).sp = s.sp := rfl
@[simp] theorem setIndex_dt (s : State) (w : Word) : (s.setIndex w).dt = s.dt := rfl
@[simp] theorem setIndex_st (s : State) (w : Word) : (s.setIndex w).st = s.st := rfl
@[simp] theorem setIndex_mem (s : State) (w : Word) : (s.setIndex w).mem = s.mem := rfl
@[simp] theorem setIndex_display (s : State) (w : Word) : (s.setIndex w).display = s.display := rfl
@[simp] theorem setIndex_keysHeld (s : State) (w : Word) : (s.setIndex w).keysHeld = s.keysHeld := rfl
@[simp] theorem setIndex_waitingForKey (s : State) (w : Word) : (s.setIndex w).waitingForKey = s.waitingForKey := rfl
@[simp] theorem setIndex_keyCaptured (s : State) (w : Word) : (s.setIndex w).keyCaptured = s.keyCaptured := rfl
@[simp] theorem setIndex_currentOpcode (s : State) (w : Word) : (s.setIndex w).currentOpcode = s.currentOpcode := rfl
@[simp] theorem setIndex_yWrapEnabled (s : State) (w : Word) : (s.setIndex w).yWrapEnabled = s.yWrapEnabled := rfl
@[simp] theorem setIndex_stepMode (s : State) (w : Word) : (s.setIndex w).stepMode = s.stepMode := rfl
@[simp] theorem setIndex_advance (s : State) (w : Word) : (s.setIndex w).advance = s.advance := rfl
@[simp] theorem setIndex_toneOn (s : State) (w : Word) : (s.setIndex w).toneOn = s.toneOn := rfl
@[simp] theorem setIndex_faulted (s : State) (w : Word) : (s.setIndex w).faulted = s.faulted := rfl
@[simp] theorem setIndex_schedule (s : State) (w : Word) : (s.setIndex w).schedule = s.schedule := rfl
@[simp] theorem setIndex_emitted (s : State) (w : Word) : (s.setIndex w).emitted = s.emitted := rfl
@[simp] theorem setIndex_shutDown (s : State) (w : Word) : (s.setIndex w).shutDown = s.shutDown := rfl
@[simp] theorem setIndex_randomInput (s : State) (w : Word) : (s.setIndex w).randomInput = s.randomInput := rfl
@[simp] theorem setIndex_draws (s : State) (w : Word) : (s.setIndex w).draws = s.draws := rfl
@[simp] theorem setIndex_keyInput (s : State) (w : Word) : (s.setIndex w).keyInput = s.keyInput := rfl
@[simp] theorem setIndex_picks (s : State) (w : Word) : (s.setIndex w).picks = s.picks := rfl
@[simp] theorem setIndex_reg (s : State) (w : Word) (r : Reg) : (s.setIndex w).reg r = s.reg r := rfl
@[simp] theorem setIndex_byteAt (s : State) (w : Word) (a : Nat) : (s.setIndex w).byteAt a = s.byteAt a := rfl
@[simp] theorem setIndex_row (s : State) (w : Word) (r : Fin 32) : (s.setIndex w).row r = s.row r := rfl
@[simp] theorem setIndex_held (s : State) (w : Word) (k : Key) : (s.setIndex w).held k = s.held k := rfl

/-! ## `setSp` -/

@[simp] theorem setSp_v (s : State) (w : Word) : (s.setSp w).v = s.v := rfl
@[simp] theorem setSp_pc (s : State) (w : Word) : (s.setSp w).pc = s.pc := rfl
@[simp] theorem setSp_index (s : State) (w : Word) : (s.setSp w).index = s.index := rfl
@[simp] theorem setSp_sp (s : State) (w : Word) : (s.setSp w).sp = w := rfl
@[simp] theorem setSp_dt (s : State) (w : Word) : (s.setSp w).dt = s.dt := rfl
@[simp] theorem setSp_st (s : State) (w : Word) : (s.setSp w).st = s.st := rfl
@[simp] theorem setSp_mem (s : State) (w : Word) : (s.setSp w).mem = s.mem := rfl
@[simp] theorem setSp_display (s : State) (w : Word) : (s.setSp w).display = s.display := rfl
@[simp] theorem setSp_keysHeld (s : State) (w : Word) : (s.setSp w).keysHeld = s.keysHeld := rfl
@[simp] theorem setSp_waitingForKey (s : State) (w : Word) : (s.setSp w).waitingForKey = s.waitingForKey := rfl
@[simp] theorem setSp_keyCaptured (s : State) (w : Word) : (s.setSp w).keyCaptured = s.keyCaptured := rfl
@[simp] theorem setSp_currentOpcode (s : State) (w : Word) : (s.setSp w).currentOpcode = s.currentOpcode := rfl
@[simp] theorem setSp_yWrapEnabled (s : State) (w : Word) : (s.setSp w).yWrapEnabled = s.yWrapEnabled := rfl
@[simp] theorem setSp_stepMode (s : State) (w : Word) : (s.setSp w).stepMode = s.stepMode := rfl
@[simp] theorem setSp_advance (s : State) (w : Word) : (s.setSp w).advance = s.advance := rfl
@[simp] theorem setSp_toneOn (s : State) (w : Word) : (s.setSp w).toneOn = s.toneOn := rfl
@[simp] theorem setSp_faulted (s : State) (w : Word) : (s.setSp w).faulted = s.faulted := rfl
@[simp] theorem setSp_schedule (s : State) (w : Word) : (s.setSp w).schedule = s.schedule := rfl
@[simp] theorem setSp_emitted (s : State) (w : Word) : (s.setSp w).emitted = s.emitted := rfl
@[simp] theorem setSp_shutDown (s : State) (w : Word) : (s.setSp w).shutDown = s.shutDown := rfl
@[simp] theorem setSp_randomInput (s : State) (w : Word) : (s.setSp w).randomInput = s.randomInput := rfl
@[simp] theorem setSp_draws (s : State) (w : Word) : (s.setSp w).draws = s.draws := rfl
@[simp] theorem setSp_keyInput (s : State) (w : Word) : (s.setSp w).keyInput = s.keyInput := rfl
@[simp] theorem setSp_picks (s : State) (w : Word) : (s.setSp w).picks = s.picks := rfl
@[simp] theorem setSp_reg (s : State) (w : Word) (r : Reg) : (s.setSp w).reg r = s.reg r := rfl
@[simp] theorem setSp_byteAt (s : State) (w : Word) (a : Nat) : (s.setSp w).byteAt a = s.byteAt a := rfl
@[simp] theorem setSp_row (s : State) (w : Word) (r : Fin 32) : (s.setSp w).row r = s.row r := rfl
@[simp] theorem setSp_held (s : State) (w : Word) (k : Key) : (s.setSp w).held k = s.held k := rfl

/-! ## `setDt` -/

@[simp] theorem setDt_v (s : State) (b : Byte) : (s.setDt b).v = s.v := rfl
@[simp] theorem setDt_pc (s : State) (b : Byte) : (s.setDt b).pc = s.pc := rfl
@[simp] theorem setDt_index (s : State) (b : Byte) : (s.setDt b).index = s.index := rfl
@[simp] theorem setDt_sp (s : State) (b : Byte) : (s.setDt b).sp = s.sp := rfl
@[simp] theorem setDt_dt (s : State) (b : Byte) : (s.setDt b).dt = b := rfl
@[simp] theorem setDt_st (s : State) (b : Byte) : (s.setDt b).st = s.st := rfl
@[simp] theorem setDt_mem (s : State) (b : Byte) : (s.setDt b).mem = s.mem := rfl
@[simp] theorem setDt_display (s : State) (b : Byte) : (s.setDt b).display = s.display := rfl
@[simp] theorem setDt_keysHeld (s : State) (b : Byte) : (s.setDt b).keysHeld = s.keysHeld := rfl
@[simp] theorem setDt_waitingForKey (s : State) (b : Byte) : (s.setDt b).waitingForKey = s.waitingForKey := rfl
@[simp] theorem setDt_keyCaptured (s : State) (b : Byte) : (s.setDt b).keyCaptured = s.keyCaptured := rfl
@[simp] theorem setDt_currentOpcode (s : State) (b : Byte) : (s.setDt b).currentOpcode = s.currentOpcode := rfl
@[simp] theorem setDt_yWrapEnabled (s : State) (b : Byte) : (s.setDt b).yWrapEnabled = s.yWrapEnabled := rfl
@[simp] theorem setDt_stepMode (s : State) (b : Byte) : (s.setDt b).stepMode = s.stepMode := rfl
@[simp] theorem setDt_advance (s : State) (b : Byte) : (s.setDt b).advance = s.advance := rfl
@[simp] theorem setDt_toneOn (s : State) (b : Byte) : (s.setDt b).toneOn = s.toneOn := rfl
@[simp] theorem setDt_faulted (s : State) (b : Byte) : (s.setDt b).faulted = s.faulted := rfl
@[simp] theorem setDt_schedule (s : State) (b : Byte) : (s.setDt b).schedule = s.schedule := rfl
@[simp] theorem setDt_emitted (s : State) (b : Byte) : (s.setDt b).emitted = s.emitted := rfl
@[simp] theorem setDt_shutDown (s : State) (b : Byte) : (s.setDt b).shutDown = s.shutDown := rfl
@[simp] theorem setDt_randomInput (s : State) (b : Byte) : (s.setDt b).randomInput = s.randomInput := rfl
@[simp] theorem setDt_draws (s : State) (b : Byte) : (s.setDt b).draws = s.draws := rfl
@[simp] theorem setDt_keyInput (s : State) (b : Byte) : (s.setDt b).keyInput = s.keyInput := rfl
@[simp] theorem setDt_picks (s : State) (b : Byte) : (s.setDt b).picks = s.picks := rfl
@[simp] theorem setDt_reg (s : State) (b : Byte) (r : Reg) : (s.setDt b).reg r = s.reg r := rfl
@[simp] theorem setDt_byteAt (s : State) (b : Byte) (a : Nat) : (s.setDt b).byteAt a = s.byteAt a := rfl
@[simp] theorem setDt_row (s : State) (b : Byte) (r : Fin 32) : (s.setDt b).row r = s.row r := rfl
@[simp] theorem setDt_held (s : State) (b : Byte) (k : Key) : (s.setDt b).held k = s.held k := rfl

/-! ## `setSt` -/

@[simp] theorem setSt_v (s : State) (b : Byte) : (s.setSt b).v = s.v := rfl
@[simp] theorem setSt_pc (s : State) (b : Byte) : (s.setSt b).pc = s.pc := rfl
@[simp] theorem setSt_index (s : State) (b : Byte) : (s.setSt b).index = s.index := rfl
@[simp] theorem setSt_sp (s : State) (b : Byte) : (s.setSt b).sp = s.sp := rfl
@[simp] theorem setSt_dt (s : State) (b : Byte) : (s.setSt b).dt = s.dt := rfl
@[simp] theorem setSt_st (s : State) (b : Byte) : (s.setSt b).st = b := rfl
@[simp] theorem setSt_mem (s : State) (b : Byte) : (s.setSt b).mem = s.mem := rfl
@[simp] theorem setSt_display (s : State) (b : Byte) : (s.setSt b).display = s.display := rfl
@[simp] theorem setSt_keysHeld (s : State) (b : Byte) : (s.setSt b).keysHeld = s.keysHeld := rfl
@[simp] theorem setSt_waitingForKey (s : State) (b : Byte) : (s.setSt b).waitingForKey = s.waitingForKey := rfl
@[simp] theorem setSt_keyCaptured (s : State) (b : Byte) : (s.setSt b).keyCaptured = s.keyCaptured := rfl
@[simp] theorem setSt_currentOpcode (s : State) (b : Byte) : (s.setSt b).currentOpcode = s.currentOpcode := rfl
@[simp] theorem setSt_yWrapEnabled (s : State) (b : Byte) : (s.setSt b).yWrapEnabled = s.yWrapEnabled := rfl
@[simp] theorem setSt_stepMode (s : State) (b : Byte) : (s.setSt b).stepMode = s.stepMode := rfl
@[simp] theorem setSt_advance (s : State) (b : Byte) : (s.setSt b).advance = s.advance := rfl
@[simp] theorem setSt_toneOn (s : State) (b : Byte) : (s.setSt b).toneOn = s.toneOn := rfl
@[simp] theorem setSt_faulted (s : State) (b : Byte) : (s.setSt b).faulted = s.faulted := rfl
@[simp] theorem setSt_schedule (s : State) (b : Byte) : (s.setSt b).schedule = s.schedule := rfl
@[simp] theorem setSt_emitted (s : State) (b : Byte) : (s.setSt b).emitted = s.emitted := rfl
@[simp] theorem setSt_shutDown (s : State) (b : Byte) : (s.setSt b).shutDown = s.shutDown := rfl
@[simp] theorem setSt_randomInput (s : State) (b : Byte) : (s.setSt b).randomInput = s.randomInput := rfl
@[simp] theorem setSt_draws (s : State) (b : Byte) : (s.setSt b).draws = s.draws := rfl
@[simp] theorem setSt_keyInput (s : State) (b : Byte) : (s.setSt b).keyInput = s.keyInput := rfl
@[simp] theorem setSt_picks (s : State) (b : Byte) : (s.setSt b).picks = s.picks := rfl
@[simp] theorem setSt_reg (s : State) (b : Byte) (r : Reg) : (s.setSt b).reg r = s.reg r := rfl
@[simp] theorem setSt_byteAt (s : State) (b : Byte) (a : Nat) : (s.setSt b).byteAt a = s.byteAt a := rfl
@[simp] theorem setSt_row (s : State) (b : Byte) (r : Fin 32) : (s.setSt b).row r = s.row r := rfl
@[simp] theorem setSt_held (s : State) (b : Byte) (k : Key) : (s.setSt b).held k = s.held k := rfl

/-! ## `setByte` -/

@[simp] theorem setByte_v (s : State) (p : Nat) (b : Byte) : (s.setByte p b).v = s.v := rfl
@[simp] theorem setByte_pc (s : State) (p : Nat) (b : Byte) : (s.setByte p b).pc = s.pc := rfl
@[simp] theorem setByte_index (s : State) (p : Nat) (b : Byte) : (s.setByte p b).index = s.index := rfl
@[simp] theorem setByte_sp (s : State) (p : Nat) (b : Byte) : (s.setByte p b).sp = s.sp := rfl
@[simp] theorem setByte_dt (s : State) (p : Nat) (b : Byte) : (s.setByte p b).dt = s.dt := rfl
@[simp] theorem setByte_st (s : State) (p : Nat) (b : Byte) : (s.setByte p b).st = s.st := rfl
@[simp] theorem setByte_mem (s : State) (p : Nat) (b : Byte) : (s.setByte p b).mem = s.mem.write p b := rfl
@[simp] theorem setByte_display (s : State) (p : Nat) (b : Byte) : (s.setByte p b).display = s.display := rfl
@[simp] theorem setByte_keysHeld (s : State) (p : Nat) (b : Byte) : (s.setByte p b).keysHeld = s.keysHeld := rfl
@[simp] theorem setByte_waitingForKey (s : State) (p : Nat) (b : Byte) : (s.setByte p b).waitingForKey = s.waitingForKey := rfl
@[simp] theorem setByte_keyCaptured (s : State) (p : Nat) (b : Byte) : (s.setByte p b).keyCaptured = s.keyCaptured := rfl
@[simp] theorem setByte_currentOpcode (s : State) (p : Nat) (b : Byte) : (s.setByte p b).currentOpcode = s.currentOpcode := rfl
@[simp] theorem setByte_yWrapEnabled (s : State) (p : Nat) (b : Byte) : (s.setByte p b).yWrapEnabled = s.yWrapEnabled := rfl
@[simp] theorem setByte_stepMode (s : State) (p : Nat) (b : Byte) : (s.setByte p b).stepMode = s.stepMode := rfl
@[simp] theorem setByte_advance (s : State) (p : Nat) (b : Byte) : (s.setByte p b).advance = s.advance := rfl
@[simp] theorem setByte_toneOn (s : State) (p : Nat) (b : Byte) : (s.setByte p b).toneOn = s.toneOn := rfl
@[simp] theorem setByte_faulted (s : State) (p : Nat) (b : Byte) : (s.setByte p b).faulted = s.faulted := rfl
@[simp] theorem setByte_schedule (s : State) (p : Nat) (b : Byte) : (s.setByte p b).schedule = s.schedule := rfl
@[simp] theorem setByte_emitted (s : State) (p : Nat) (b : Byte) : (s.setByte p b).emitted = s.emitted := rfl
@[simp] theorem setByte_shutDown (s : State) (p : Nat) (b : Byte) : (s.setByte p b).shutDown = s.shutDown := rfl
@[simp] theorem setByte_randomInput (s : State) (p : Nat) (b : Byte) : (s.setByte p b).randomInput = s.randomInput := rfl
@[simp] theorem setByte_draws (s : State) (p : Nat) (b : Byte) : (s.setByte p b).draws = s.draws := rfl
@[simp] theorem setByte_keyInput (s : State) (p : Nat) (b : Byte) : (s.setByte p b).keyInput = s.keyInput := rfl
@[simp] theorem setByte_picks (s : State) (p : Nat) (b : Byte) : (s.setByte p b).picks = s.picks := rfl
@[simp] theorem setByte_reg (s : State) (p : Nat) (b : Byte) (r : Reg) : (s.setByte p b).reg r = s.reg r := rfl
@[simp] theorem setByte_row (s : State) (p : Nat) (b : Byte) (r : Fin 32) : (s.setByte p b).row r = s.row r := rfl
@[simp] theorem setByte_held (s : State) (p : Nat) (b : Byte) (k : Key) : (s.setByte p b).held k = s.held k := rfl

/-! ## `setRow` -/

@[simp] theorem setRow_v (s : State) (q : Fin 32) (p : PixelRow) : (s.setRow q p).v = s.v := rfl
@[simp] theorem setRow_pc (s : State) (q : Fin 32) (p : PixelRow) : (s.setRow q p).pc = s.pc := rfl
@[simp] theorem setRow_index (s : State) (q : Fin 32) (p : PixelRow) : (s.setRow q p).index = s.index := rfl
@[simp] theorem setRow_sp (s : State) (q : Fin 32) (p : PixelRow) : (s.setRow q p).sp = s.sp := rfl
@[simp] theorem setRow_dt (s : State) (q : Fin 32) (p : PixelRow) : (s.setRow q p).dt = s.dt := rfl
@[simp] theorem setRow_st (s : State) (q : Fin 32) (p : PixelRow) : (s.setRow q p).st = s.st := rfl
@[simp] theorem setRow_mem (s : State) (q : Fin 32) (p : PixelRow) : (s.setRow q p).mem = s.mem := rfl
@[simp] theorem setRow_display (s : State) (q : Fin 32) (p : PixelRow) : (s.setRow q p).display = s.display.set q p := rfl
@[simp] theorem setRow_keysHeld (s : State) (q : Fin 32) (p : PixelRow) : (s.setRow q p).keysHeld = s.keysHeld := rfl
@[simp] theorem setRow_waitingForKey (s : State) (q : Fin 32) (p : PixelRow) : (s.setRow q p).waitingForKey = s.waitingForKey := rfl
@[simp] theorem setRow_keyCaptured (s : State) (q : Fin 32) (p : PixelRow) : (s.setRow q p).keyCaptured = s.keyCaptured := rfl
@[simp] theorem setRow_currentOpcode (s : State) (q : Fin 32) (p : PixelRow) : (s.setRow q p).currentOpcode = s.currentOpcode := rfl
@[simp] theorem setRow_yWrapEnabled (s : State) (q : Fin 32) (p : PixelRow) : (s.setRow q p).yWrapEnabled = s.yWrapEnabled := rfl
@[simp] theorem setRow_stepMode (s : State) (q : Fin 32) (p : PixelRow) : (s.setRow q p).stepMode = s.stepMode := rfl
@[simp] theorem setRow_advance (s : State) (q : Fin 32) (p : PixelRow) : (s.setRow q p).advance = s.advance := rfl
@[simp] theorem setRow_toneOn (s : State) (q : Fin 32) (p : PixelRow) : (s.setRow q p).toneOn = s.toneOn := rfl
@[simp] theorem setRow_faulted (s : State) (q : Fin 32) (p : PixelRow) : (s.setRow q p).faulted = s.faulted := rfl
@[simp] theorem setRow_schedule (s : State) (q : Fin 32) (p : PixelRow) : (s.setRow q p).schedule = s.schedule := rfl
@[simp] theorem setRow_emitted (s : State) (q : Fin 32) (p : PixelRow) : (s.setRow q p).emitted = s.emitted := rfl
@[simp] theorem setRow_shutDown (s : State) (q : Fin 32) (p : PixelRow) : (s.setRow q p).shutDown = s.shutDown := rfl
@[simp] theorem setRow_randomInput (s : State) (q : Fin 32) (p : PixelRow) : (s.setRow q p).randomInput = s.randomInput := rfl
@[simp] theorem setRow_draws (s : State) (q : Fin 32) (p : PixelRow) : (s.setRow q p).draws = s.draws := rfl
@[simp] theorem setRow_keyInput (s : State) (q : Fin 32) (p : PixelRow) : (s.setRow q p).keyInput = s.keyInput := rfl
@[simp] theorem setRow_picks (s : State) (q : Fin 32) (p : PixelRow) : (s.setRow q p).picks = s.picks := rfl
@[simp] theorem setRow_reg (s : State) (q : Fin 32) (p : PixelRow) (r : Reg) : (s.setRow q p).reg r = s.reg r := rfl
@[simp] theorem setRow_byteAt (s : State) (q : Fin 32) (p : PixelRow) (a : Nat) : (s.setRow q p).byteAt a = s.byteAt a := rfl
@[simp] theorem setRow_held (s : State) (q : Fin 32) (p : PixelRow) (k : Key) : (s.setRow q p).held k = s.held k := rfl

/-! ## `clearDisplay` -/

@[simp] theorem clearDisplay_v (s : State) : s.clearDisplay.v = s.v := rfl
@[simp] theorem clearDisplay_pc (s : State) : s.clearDisplay.pc = s.pc := rfl
@[simp] theorem clearDisplay_index (s : State) : s.clearDisplay.index = s.index := rfl
@[simp] theorem clearDisplay_sp (s : State) : s.clearDisplay.sp = s.sp := rfl
@[simp] theorem clearDisplay_dt (s : State) : s.clearDisplay.dt = s.dt := rfl
@[simp] theorem clearDisplay_st (s : State) : s.clearDisplay.st = s.st := rfl
@[simp] theorem clearDisplay_mem (s : State) : s.clearDisplay.mem = s.mem := rfl
@[simp] theorem clearDisplay_display (s : State) : s.clearDisplay.display = Vector.replicate 32 0 := rfl
@[simp] theorem clearDisplay_keysHeld (s : State) : s.clearDisplay.keysHeld = s.keysHeld := rfl
@[simp] theorem clearDisplay_waitingForKey (s : State) : s.clearDisplay.waitingForKey = s.waitingForKey := rfl
@[simp] theorem clearDisplay_keyCaptured (s : State) : s.clearDisplay.keyCaptured = s.keyCaptured := rfl
@[simp] theorem clearDisplay_currentOpcode (s : State) : s.clearDisplay.currentOpcode = s.currentOpcode := rfl
@[simp] theorem clearDisplay_yWrapEnabled (s : State) : s.clearDisplay.yWrapEnabled = s.yWrapEnabled := rfl
@[simp] theorem clearDisplay_stepMode (s : State) : s.clearDisplay.stepMode = s.stepMode := rfl
@[simp] theorem clearDisplay_advance (s : State) : s.clearDisplay.advance = s.advance := rfl
@[simp] theorem clearDisplay_toneOn (s : State) : s.clearDisplay.toneOn = s.toneOn := rfl
@[simp] theorem clearDisplay_faulted (s : State) : s.clearDisplay.faulted = s.faulted := rfl
@[simp] theorem clearDisplay_schedule (s : State) : s.clearDisplay.schedule = s.schedule := rfl
@[simp] theorem clearDisplay_emitted (s : State) : s.clearDisplay.emitted = s.emitted := rfl
@[simp] theorem clearDisplay_shutDown (s : State) : s.clearDisplay.shutDown = s.shutDown := rfl
@[simp] theorem clearDisplay_randomInput (s : State) : s.clearDisplay.randomInput = s.randomInput := rfl
@[simp] theorem clearDisplay_draws (s : State) : s.clearDisplay.draws = s.draws := rfl
@[simp] theorem clearDisplay_keyInput (s : State) : s.clearDisplay.keyInput = s.keyInput := rfl
@[simp] theorem clearDisplay_picks (s : State) : s.clearDisplay.picks = s.picks := rfl
@[simp] theorem clearDisplay_reg (s : State) (r : Reg) : s.clearDisplay.reg r = s.reg r := rfl
@[simp] theorem clearDisplay_byteAt (s : State) (a : Nat) : s.clearDisplay.byteAt a = s.byteAt a := rfl
@[simp] theorem clearDisplay_held (s : State) (k : Key) : s.clearDisplay.held k = s.held k := rfl

/-! ## `setHeld` -/

@[simp] theorem setHeld_v (s : State) (q : Key) (b : Bool) : (s.setHeld q b).v = s.v := rfl
@[simp] theorem setHeld_pc (s : State) (q : Key) (b : Bool) : (s.setHeld q b).pc = s.pc := rfl
@[simp] theorem setHeld_index (s : State) (q : Key) (b : Bool) : (s.setHeld q b).index = s.index := rfl
@[simp] theorem setHeld_sp (s : State) (q : Key) (b : Bool) : (s.setHeld q b).sp = s.sp := rfl
@[simp] theorem setHeld_dt (s : State) (q : Key) (b : Bool) : (s.setHeld q b).dt = s.dt := rfl
@[simp] theorem setHeld_st (s : State) (q : Key) (b : Bool) : (s.setHeld q b).st = s.st := rfl
@[simp] theorem setHeld_mem (s : State) (q : Key) (b : Bool) : (s.setHeld q b).mem = s.mem := rfl
@[simp] theorem setHeld_display (s : State) (q : Key) (b : Bool) : (s.setHeld q b).display = s.display := rfl
@[simp] theorem setHeld_keysHeld (s : State) (q : Key) (b : Bool) : (s.setHeld q b).keysHeld = s.keysHeld.set q b := rfl
@[simp] theorem setHeld_waitingForKey (s : State) (q : Key) (b : Bool) : (s.setHeld q b).waitingForKey = s.waitingForKey := rfl
@[simp] theorem setHeld_keyCaptured (s : State) (q : Key) (b : Bool) : (s.setHeld q b).keyCaptured = s.keyCaptured := rfl
@[simp] theorem setHeld_currentOpcode (s : State) (q : Key) (b : Bool) : (s.setHeld q b).currentOpcode = s.currentOpcode := rfl
@[simp] theorem setHeld_yWrapEnabled (s : State) (q : Key) (b : Bool) : (s.setHeld q b).yWrapEnabled = s.yWrapEnabled := rfl
@[simp] theorem setHeld_stepMode (s : State) (q : Key) (b : Bool) : (s.setHeld q b).stepMode = s.stepMode := rfl
@[simp] theorem setHeld_advance (s : State) (q : Key) (b : Bool) : (s.setHeld q b).advance = s.advance := rfl
@[simp] theorem setHeld_toneOn (s : State) (q : Key) (b : Bool) : (s.setHeld q b).toneOn = s.toneOn := rfl
@[simp] theorem setHeld_faulted (s : State) (q : Key) (b : Bool) : (s.setHeld q b).faulted = s.faulted := rfl
@[simp] theorem setHeld_schedule (s : State) (q : Key) (b : Bool) : (s.setHeld q b).schedule = s.schedule := rfl
@[simp] theorem setHeld_emitted (s : State) (q : Key) (b : Bool) : (s.setHeld q b).emitted = s.emitted := rfl
@[simp] theorem setHeld_shutDown (s : State) (q : Key) (b : Bool) : (s.setHeld q b).shutDown = s.shutDown := rfl
@[simp] theorem setHeld_randomInput (s : State) (q : Key) (b : Bool) : (s.setHeld q b).randomInput = s.randomInput := rfl
@[simp] theorem setHeld_draws (s : State) (q : Key) (b : Bool) : (s.setHeld q b).draws = s.draws := rfl
@[simp] theorem setHeld_keyInput (s : State) (q : Key) (b : Bool) : (s.setHeld q b).keyInput = s.keyInput := rfl
@[simp] theorem setHeld_picks (s : State) (q : Key) (b : Bool) : (s.setHeld q b).picks = s.picks := rfl
@[simp] theorem setHeld_reg (s : State) (q : Key) (b : Bool) (r : Reg) : (s.setHeld q b).reg r = s.reg r := rfl
@[simp] theorem setHeld_byteAt (s : State) (q : Key) (b : Bool) (a : Nat) : (s.setHeld q b).byteAt a = s.byteAt a := rfl
@[simp] theorem setHeld_row (s : State) (q : Key) (b : Bool) (r : Fin 32) : (s.setHeld q b).row r = s.row r := rfl

/-! ## `enterWaiting` -/

@[simp] theorem enterWaiting_v (s : State) : s.enterWaiting.v = s.v := rfl
@[simp] theorem enterWaiting_pc (s : State) : s.enterWaiting.pc = s.pc := rfl
@[simp] theorem enterWaiting_index (s : State) : s.enterWaiting.index = s.index := rfl
@[simp] theorem enterWaiting_sp (s : State) : s.enterWaiting.sp = s.sp := rfl
@[simp] theorem enterWaiting_dt (s : State) : s.enterWaiting.dt = s.dt := rfl
@[simp] theorem enterWaiting_st (s : State) : s.enterWaiting.st = s.st := rfl
@[simp] theorem enterWaiting_mem (s : State) : s.enterWaiting.mem = s.mem := rfl
@[simp] theorem enterWaiting_display (s : State) : s.enterWaiting.display = s.display := rfl
@[simp] theorem enterWaiting_keysHeld (s : State) : s.enterWaiting.keysHeld = s.keysHeld := rfl
@[simp] theorem enterWaiting_waitingForKey (s : State) : s.enterWaiting.waitingForKey = true := rfl
@[simp] theorem enterWaiting_keyCaptured (s : State) : s.enterWaiting.keyCaptured = false := rfl
@[simp] theorem enterWaiting_currentOpcode (s : State) : s.enterWaiting.currentOpcode = s.currentOpcode := rfl
@[simp] theorem enterWaiting_yWrapEnabled (s : State) : s.enterWaiting.yWrapEnabled = s.yWrapEnabled := rfl
@[simp] theorem enterWaiting_stepMode (s : State) : s.enterWaiting.stepMode = s.stepMode := rfl
@[simp] theorem enterWaiting_advance (s : State) : s.enterWaiting.advance = s.advance := rfl
@[simp] theorem enterWaiting_toneOn (s : State) : s.enterWaiting.toneOn = s.toneOn := rfl
@[simp] theorem enterWaiting_faulted (s : State) : s.enterWaiting.faulted = s.faulted := rfl
@[simp] theorem enterWaiting_schedule (s : State) : s.enterWaiting.schedule = s.schedule := rfl
@[simp] theorem enterWaiting_emitted (s : State) : s.enterWaiting.emitted = s.emitted := rfl
@[simp] theorem enterWaiting_shutDown (s : State) : s.enterWaiting.shutDown = s.shutDown := rfl
@[simp] theorem enterWaiting_randomInput (s : State) : s.enterWaiting.randomInput = s.randomInput := rfl
@[simp] theorem enterWaiting_draws (s : State) : s.enterWaiting.draws = s.draws := rfl
@[simp] theorem enterWaiting_keyInput (s : State) : s.enterWaiting.keyInput = s.keyInput := rfl
@[simp] theorem enterWaiting_picks (s : State) : s.enterWaiting.picks = s.picks := rfl
@[simp] theorem enterWaiting_reg (s : State) (r : Reg) : s.enterWaiting.reg r = s.reg r := rfl
@[simp] theorem enterWaiting_byteAt (s : State) (a : Nat) : s.enterWaiting.byteAt a = s.byteAt a := rfl
@[simp] theorem enterWaiting_row (s : State) (r : Fin 32) : s.enterWaiting.row r = s.row r := rfl
@[simp] theorem enterWaiting_held (s : State) (k : Key) : s.enterWaiting.held k = s.held k := rfl

/-! ## `leaveWaiting` -/

@[simp] theorem leaveWaiting_v (s : State) : s.leaveWaiting.v = s.v := rfl
@[simp] theorem leaveWaiting_pc (s : State) : s.leaveWaiting.pc = s.pc := rfl
@[simp] theorem leaveWaiting_index (s : State) : s.leaveWaiting.index = s.index := rfl
@[simp] theorem leaveWaiting_sp (s : State) : s.leaveWaiting.sp = s.sp := rfl
@[simp] theorem leaveWaiting_dt (s : State) : s.leaveWaiting.dt = s.dt := rfl
@[simp] theorem leaveWaiting_st (s : State) : s.leaveWaiting.st = s.st := rfl
@[simp] theorem leaveWaiting_mem (s : State) : s.leaveWaiting.mem = s.mem := rfl
@[simp] theorem leaveWaiting_display (s : State) : s.leaveWaiting.display = s.display := rfl
@[simp] theorem leaveWaiting_keysHeld (s : State) : s.leaveWaiting.keysHeld = s.keysHeld := rfl
@[simp] theorem leaveWaiting_waitingForKey (s : State) : s.leaveWaiting.waitingForKey = false := rfl
@[simp] theorem leaveWaiting_keyCaptured (s : State) : s.leaveWaiting.keyCaptured = true := rfl
@[simp] theorem leaveWaiting_currentOpcode (s : State) : s.leaveWaiting.currentOpcode = s.currentOpcode := rfl
@[simp] theorem leaveWaiting_yWrapEnabled (s : State) : s.leaveWaiting.yWrapEnabled = s.yWrapEnabled := rfl
@[simp] theorem leaveWaiting_stepMode (s : State) : s.leaveWaiting.stepMode = s.stepMode := rfl
@[simp] theorem leaveWaiting_advance (s : State) : s.leaveWaiting.advance = s.advance := rfl
@[simp] theorem leaveWaiting_toneOn (s : State) : s.leaveWaiting.toneOn = s.toneOn := rfl
@[simp] theorem leaveWaiting_faulted (s : State) : s.leaveWaiting.faulted = s.faulted := rfl
@[simp] theorem leaveWaiting_schedule (s : State) : s.leaveWaiting.schedule = s.schedule := rfl
@[simp] theorem leaveWaiting_emitted (s : State) : s.leaveWaiting.emitted = s.emitted := rfl
@[simp] theorem leaveWaiting_shutDown (s : State) : s.leaveWaiting.shutDown = s.shutDown := rfl
@[simp] theorem leaveWaiting_randomInput (s : State) : s.leaveWaiting.randomInput = s.randomInput := rfl
@[simp] theorem leaveWaiting_draws (s : State) : s.leaveWaiting.draws = s.draws := rfl
@[simp] theorem leaveWaiting_keyInput (s : State) : s.leaveWaiting.keyInput = s.keyInput.tail := rfl
@[simp] theorem leaveWaiting_picks (s : State) : s.leaveWaiting.picks = s.picks + 1 := rfl
@[simp] theorem leaveWaiting_reg (s : State) (r : Reg) : s.leaveWaiting.reg r = s.reg r := rfl
@[simp] theorem leaveWaiting_byteAt (s : State) (a : Nat) : s.leaveWaiting.byteAt a = s.byteAt a := rfl
@[simp] theorem leaveWaiting_row (s : State) (r : Fin 32) : s.leaveWaiting.row r = s.row r := rfl
@[simp] theorem leaveWaiting_held (s : State) (k : Key) : s.leaveWaiting.held k = s.held k := rfl

/-! ## `setOpcode` -/

@[simp] theorem setOpcode_v (s : State) (w : Word) : (s.setOpcode w).v = s.v := rfl
@[simp] theorem setOpcode_pc (s : State) (w : Word) : (s.setOpcode w).pc = s.pc := rfl
@[simp] theorem setOpcode_index (s : State) (w : Word) : (s.setOpcode w).index = s.index := rfl
@[simp] theorem setOpcode_sp (s : State) (w : Word) : (s.setOpcode w).sp = s.sp := rfl
@[simp] theorem setOpcode_dt (s : State) (w : Word) : (s.setOpcode w).dt = s.dt := rfl
@[simp] theorem setOpcode_st (s : State) (w : Word) : (s.setOpcode w).st = s.st := rfl
@[simp] theorem setOpcode_mem (s : State) (w : Word) : (s.setOpcode w).mem = s.mem := rfl
@[simp] theorem setOpcode_display (s : State) (w : Word) : (s.setOpcode w).display = s.display := rfl
@[simp] theorem setOpcode_keysHeld (s : State) (w : Word) : (s.setOpcode w).keysHeld = s.keysHeld := rfl
@[simp] theorem setOpcode_waitingForKey (s : State) (w : Word) : (s.setOpcode w).waitingForKey = s.waitingForKey := rfl
@[simp] theorem setOpcode_keyCaptured (s : State) (w : Word) : (s.setOpcode w).keyCaptured = s.keyCaptured := rfl
@[simp] theorem setOpcode_currentOpcode (s : State) (w : Word) : (s.setOpcode w).currentOpcode = w := rfl
@[simp] theorem setOpcode_yWrapEnabled (s : State) (w : Word) : (s.setOpcode w).yWrapEnabled = s.yWrapEnabled := rfl
@[simp] theorem setOpcode_stepMode (s : State) (w : Word) : (s.setOpcode w).stepMode = s.stepMode := rfl
@[simp] theorem setOpcode_advance (s : State) (w : Word) : (s.setOpcode w).advance = s.advance := rfl
@[simp] theorem setOpcode_toneOn (s : State) (w : Word) : (s.setOpcode w).toneOn = s.toneOn := rfl
@[simp] theorem setOpcode_faulted (s : State) (w : Word) : (s.setOpcode w).faulted = s.faulted := rfl
@[simp] theorem setOpcode_schedule (s : State) (w : Word) : (s.setOpcode w).schedule = s.schedule := rfl
@[simp] theorem setOpcode_emitted (s : State) (w : Word) : (s.setOpcode w).emitted = s.emitted := rfl
@[simp] theorem setOpcode_shutDown (s : State) (w : Word) : (s.setOpcode w).shutDown = s.shutDown := rfl
@[simp] theorem setOpcode_randomInput (s : State) (w : Word) : (s.setOpcode w).randomInput = s.randomInput := rfl
@[simp] theorem setOpcode_draws (s : State) (w : Word) : (s.setOpcode w).draws = s.draws := rfl
@[simp] theorem setOpcode_keyInput (s : State) (w : Word) : (s.setOpcode w).keyInput = s.keyInput := rfl
@[simp] theorem setOpcode_picks (s : State) (w : Word) : (s.setOpcode w).picks = s.picks := rfl
@[simp] theorem setOpcode_reg (s : State) (w : Word) (r : Reg) : (s.setOpcode w).reg r = s.reg r := rfl
@[simp] theorem setOpcode_byteAt (s : State) (w : Word) (a : Nat) : (s.setOpcode w).byteAt a = s.byteAt a := rfl
@[simp] theorem setOpcode_row (s : State) (w : Word) (r : Fin 32) : (s.setOpcode w).row r = s.row r := rfl
@[simp] theorem setOpcode_held (s : State) (w : Word) (k : Key) : (s.setOpcode w).held k = s.held k := rfl

/-! ## `setAdvance` -/

@[simp] theorem setAdvance_v (s : State) (b : Bool) : (s.setAdvance b).v = s.v := rfl
@[simp] theorem setAdvance_pc (s : State) (b : Bool) : (s.setAdvance b).pc = s.pc := rfl
@[simp] theorem setAdvance_index (s : State) (b : Bool) : (s.setAdvance b).index = s.index := rfl
@[simp] theorem setAdvance_sp (s : State) (b : Bool) : (s.setAdvance b).sp = s.sp := rfl
@[simp] theorem setAdvance_dt (s : State) (b : Bool) : (s.setAdvance b).dt = s.dt := rfl
@[simp] theorem setAdvance_st (s : State) (b : Bool) : (s.setAdvance b).st = s.st := rfl
@[simp] theorem setAdvance_mem (s : State) (b : Bool) : (s.setAdvance b).mem = s.mem := rfl
@[simp] theorem setAdvance_display (s : State) (b : Bool) : (s.setAdvance b).display = s.display := rfl
@[simp] theorem setAdvance_keysHeld (s : State) (b : Bool) : (s.setAdvance b).keysHeld = s.keysHeld := rfl
@[simp] theorem setAdvance_waitingForKey (s : State) (b : Bool) : (s.setAdvance b).waitingForKey = s.waitingForKey := rfl
@[simp] theorem setAdvance_keyCaptured (s : State) (b : Bool) : (s.setAdvance b).keyCaptured = s.keyCaptured := rfl
@[simp] theorem setAdvance_currentOpcode (s : State) (b : Bool) : (s.setAdvance b).currentOpcode = s.currentOpcode := rfl
@[simp] theorem setAdvance_yWrapEnabled (s : State) (b : Bool) : (s.setAdvance b).yWrapEnabled = s.yWrapEnabled := rfl
@[simp] theorem setAdvance_stepMode (s : State) (b : Bool) : (s.setAdvance b).stepMode = s.stepMode := rfl
@[simp] theorem setAdvance_advance (s : State) (b : Bool) : (s.setAdvance b).advance = b := rfl
@[simp] theorem setAdvance_toneOn (s : State) (b : Bool) : (s.setAdvance b).toneOn = s.toneOn := rfl
@[simp] theorem setAdvance_faulted (s : State) (b : Bool) : (s.setAdvance b).faulted = s.faulted := rfl
@[simp] theorem setAdvance_schedule (s : State) (b : Bool) : (s.setAdvance b).schedule = s.schedule := rfl
@[simp] theorem setAdvance_emitted (s : State) (b : Bool) : (s.setAdvance b).emitted = s.emitted := rfl
@[simp] theorem setAdvance_shutDown (s : State) (b : Bool) : (s.setAdvance b).shutDown = s.shutDown := rfl
@[simp] theorem setAdvance_randomInput (s : State) (b : Bool) : (s.setAdvance b).randomInput = s.randomInput := rfl
@[simp] theorem setAdvance_draws (s : State) (b : Bool) : (s.setAdvance b).draws = s.draws := rfl
@[simp] theorem setAdvance_keyInput (s : State) (b : Bool) : (s.setAdvance b).keyInput = s.keyInput := rfl
@[simp] theorem setAdvance_picks (s : State) (b : Bool) : (s.setAdvance b).picks = s.picks := rfl
@[simp] theorem setAdvance_reg (s : State) (b : Bool) (r : Reg) : (s.setAdvance b).reg r = s.reg r := rfl
@[simp] theorem setAdvance_byteAt (s : State) (b : Bool) (a : Nat) : (s.setAdvance b).byteAt a = s.byteAt a := rfl
@[simp] theorem setAdvance_row (s : State) (b : Bool) (r : Fin 32) : (s.setAdvance b).row r = s.row r := rfl
@[simp] theorem setAdvance_held (s : State) (b : Bool) (k : Key) : (s.setAdvance b).held k = s.held k := rfl

/-! ## `setStepMode` -/

@[simp] theorem setStepMode_v (s : State) (b : Bool) : (s.setStepMode b).v = s.v := rfl
@[simp] theorem setStepMode_pc (s : State) (b : Bool) : (s.setStepMode b).pc = s.pc := rfl
@[simp] theorem setStepMode_index (s : State) (b : Bool) : (s.setStepMode b).index = s.index := rfl
@[simp] theorem setStepMode_sp (s : State) (b : Bool) : (s.setStepMode b).sp = s.sp := rfl
@[simp] theorem setStepMode_dt (s : State) (b : Bool) : (s.setStepMode b).dt = s.dt := rfl
@[simp] theorem setStepMode_st (s : State) (b : Bool) : (s.setStepMode b).st = s.st := rfl
@[simp] theorem setStepMode_mem (s : State) (b : Bool) : (s.setStepMode b).mem = s.mem := rfl
@[simp] theorem setStepMode_display (s : State) (b : Bool) : (s.setStepMode b).display = s.display := rfl
@[simp] theorem setStepMode_keysHeld (s : State) (b : Bool) : (s.setStepMode b).keysHeld = s.keysHeld := rfl
@[simp] theorem setStepMode_waitingForKey (s : State) (b : Bool) : (s.setStepMode b).waitingForKey = s.waitingForKey := rfl
@[simp] theorem setStepMode_keyCaptured (s : State) (b : Bool) : (s.setStepMode b).keyCaptured = s.keyCaptured := rfl
@[simp] theorem setStepMode_currentOpcode (s : State) (b : Bool) : (s.setStepMode b).currentOpcode = s.currentOpcode := rfl
@[simp] theorem setStepMode_yWrapEnabled (s : State) (b : Bool) : (s.setStepMode b).yWrapEnabled = s.yWrapEnabled := rfl
@[simp] theorem setStepMode_stepMode (s : State) (b : Bool) : (s.setStepMode b).stepMode = b := rfl
@[simp] theorem setStepMode_advance (s : State) (b : Bool) : (s.setStepMode b).advance = s.advance := rfl
@[simp] theorem setStepMode_toneOn (s : State) (b : Bool) : (s.setStepMode b).toneOn = s.toneOn := rfl
@[simp] theorem setStepMode_faulted (s : State) (b : Bool) : (s.setStepMode b).faulted = s.faulted := rfl
@[simp] theorem setStepMode_schedule (s : State) (b : Bool) : (s.setStepMode b).schedule = s.schedule := rfl
@[simp] theorem setStepMode_emitted (s : State) (b : Bool) : (s.setStepMode b).emitted = s.emitted := rfl
@[simp] theorem setStepMode_shutDown (s : State) (b : Bool) : (s.setStepMode b).shutDown = s.shutDown := rfl
@[simp] theorem setStepMode_randomInput (s : State) (b : Bool) : (s.setStepMode b).randomInput = s.randomInput := rfl
@[simp] theorem setStepMode_draws (s : State) (b : Bool) : (s.setStepMode b).draws = s.draws := rfl
@[simp] theorem setStepMode_keyInput (s : State) (b : Bool) : (s.setStepMode b).keyInput = s.keyInput := rfl
@[simp] theorem setStepMode_picks (s : State) (b : Bool) : (s.setStepMode b).picks = s.picks := rfl
@[simp] theorem setStepMode_reg (s : State) (b : Bool) (r : Reg) : (s.setStepMode b).reg r = s.reg r := rfl
@[simp] theorem setStepMode_byteAt (s : State) (b : Bool) (a : Nat) : (s.setStepMode b).byteAt a = s.byteAt a := rfl
@[simp] theorem setStepMode_row (s : State) (b : Bool) (r : Fin 32) : (s.setStepMode b).row r = s.row r := rfl
@[simp] theorem setStepMode_held (s : State) (b : Bool) (k : Key) : (s.setStepMode b).held k = s.held k := rfl

/-! ## `countDraw` -/

@[simp] theorem countDraw_v (s : State) : s.countDraw.v = s.v := rfl
@[simp] theorem countDraw_pc (s : State) : s.countDraw.pc = s.pc := rfl
@[simp] theorem countDraw_index (s : State) : s.countDraw.index = s.index := rfl
@[simp] theorem countDraw_sp (s : State) : s.countDraw.sp = s.sp := rfl
@[simp] theorem countDraw_dt (s : State) : s.countDraw.dt = s.dt := rfl
@[simp] theorem countDraw_st (s : State) : s.countDraw.st = s.st := rfl
@[simp] theorem countDraw_mem (s : State) : s.countDraw.mem = s.mem := rfl
@[simp] theorem countDraw_display (s : State) : s.countDraw.display = s.display := rfl
@[simp] theorem countDraw_keysHeld (s : State) : s.countDraw.keysHeld = s.keysHeld := rfl
@[simp] theorem countDraw_waitingForKey (s : State) : s.countDraw.waitingForKey = s.waitingForKey := rfl
@[simp] theorem countDraw_keyCaptured (s : State) : s.countDraw.keyCaptured = s.keyCaptured := rfl
@[simp] theorem countDraw_currentOpcode (s : State) : s.countDraw.currentOpcode = s.currentOpcode := rfl
@[simp] theorem countDraw_yWrapEnabled (s : State) : s.countDraw.yWrapEnabled = s.yWrapEnabled := rfl
@[simp] theorem countDraw_stepMode (s : State) : s.countDraw.stepMode = s.stepMode := rfl
@[simp] theorem countDraw_advance (s : State) : s.countDraw.advance = s.advance := rfl
@[simp] theorem countDraw_toneOn (s : State) : s.countDraw.toneOn = s.toneOn := rfl
@[simp] theorem countDraw_faulted (s : State) : s.countDraw.faulted = s.faulted := rfl
@[simp] theorem countDraw_schedule (s : State) : s.countDraw.schedule = s.schedule := rfl
@[simp] theorem countDraw_emitted (s : State) : s.countDraw.emitted = s.emitted := rfl
@[simp] theorem countDraw_shutDown (s : State) : s.countDraw.shutDown = s.shutDown := rfl
@[simp] theorem countDraw_randomInput (s : State) : s.countDraw.randomInput = s.randomInput.tail := rfl
@[simp] theorem countDraw_draws (s : State) : s.countDraw.draws = s.draws + 1 := rfl
@[simp] theorem countDraw_keyInput (s : State) : s.countDraw.keyInput = s.keyInput := rfl
@[simp] theorem countDraw_picks (s : State) : s.countDraw.picks = s.picks := rfl
@[simp] theorem countDraw_reg (s : State) (r : Reg) : s.countDraw.reg r = s.reg r := rfl
@[simp] theorem countDraw_byteAt (s : State) (a : Nat) : s.countDraw.byteAt a = s.byteAt a := rfl
@[simp] theorem countDraw_row (s : State) (r : Fin 32) : s.countDraw.row r = s.row r := rfl
@[simp] theorem countDraw_held (s : State) (k : Key) : s.countDraw.held k = s.held k := rfl

/-! ## `raise` -/

@[simp] theorem raise_v (s : State) (c : FaultCause) : (raise c s).v = s.v := rfl
@[simp] theorem raise_pc (s : State) (c : FaultCause) : (raise c s).pc = s.pc := rfl
@[simp] theorem raise_index (s : State) (c : FaultCause) : (raise c s).index = s.index := rfl
@[simp] theorem raise_sp (s : State) (c : FaultCause) : (raise c s).sp = s.sp := rfl
@[simp] theorem raise_dt (s : State) (c : FaultCause) : (raise c s).dt = s.dt := rfl
@[simp] theorem raise_st (s : State) (c : FaultCause) : (raise c s).st = s.st := rfl
@[simp] theorem raise_mem (s : State) (c : FaultCause) : (raise c s).mem = s.mem := rfl
@[simp] theorem raise_display (s : State) (c : FaultCause) : (raise c s).display = s.display := rfl
@[simp] theorem raise_keysHeld (s : State) (c : FaultCause) : (raise c s).keysHeld = s.keysHeld := rfl
@[simp] theorem raise_waitingForKey (s : State) (c : FaultCause) : (raise c s).waitingForKey = s.waitingForKey := rfl
@[simp] theorem raise_keyCaptured (s : State) (c : FaultCause) : (raise c s).keyCaptured = s.keyCaptured := rfl
@[simp] theorem raise_currentOpcode (s : State) (c : FaultCause) : (raise c s).currentOpcode = s.currentOpcode := rfl
@[simp] theorem raise_yWrapEnabled (s : State) (c : FaultCause) : (raise c s).yWrapEnabled = s.yWrapEnabled := rfl
@[simp] theorem raise_stepMode (s : State) (c : FaultCause) : (raise c s).stepMode = s.stepMode := rfl
@[simp] theorem raise_advance (s : State) (c : FaultCause) : (raise c s).advance = s.advance := rfl
@[simp] theorem raise_toneOn (s : State) (c : FaultCause) : (raise c s).toneOn = s.toneOn := rfl
@[simp] theorem raise_faulted (s : State) (c : FaultCause) : (raise c s).faulted = some ⟨c, s.currentOpcode⟩ := rfl
@[simp] theorem raise_schedule (s : State) (c : FaultCause) : (raise c s).schedule = s.schedule := rfl
@[simp] theorem raise_emitted (s : State) (c : FaultCause) : (raise c s).emitted = s.emitted := rfl
@[simp] theorem raise_shutDown (s : State) (c : FaultCause) : (raise c s).shutDown = s.shutDown := rfl
@[simp] theorem raise_randomInput (s : State) (c : FaultCause) : (raise c s).randomInput = s.randomInput := rfl
@[simp] theorem raise_draws (s : State) (c : FaultCause) : (raise c s).draws = s.draws := rfl
@[simp] theorem raise_keyInput (s : State) (c : FaultCause) : (raise c s).keyInput = s.keyInput := rfl
@[simp] theorem raise_picks (s : State) (c : FaultCause) : (raise c s).picks = s.picks := rfl
@[simp] theorem raise_reg (s : State) (c : FaultCause) (r : Reg) : (raise c s).reg r = s.reg r := rfl
@[simp] theorem raise_byteAt (s : State) (c : FaultCause) (a : Nat) : (raise c s).byteAt a = s.byteAt a := rfl
@[simp] theorem raise_row (s : State) (c : FaultCause) (r : Fin 32) : (raise c s).row r = s.row r := rfl
@[simp] theorem raise_held (s : State) (c : FaultCause) (k : Key) : (raise c s).held k = s.held k := rfl

/-! ## `popSchedule` -/

@[simp] theorem popSchedule_v (s : State) : (popSchedule s).v = s.v := rfl
@[simp] theorem popSchedule_pc (s : State) : (popSchedule s).pc = s.pc := rfl
@[simp] theorem popSchedule_index (s : State) : (popSchedule s).index = s.index := rfl
@[simp] theorem popSchedule_sp (s : State) : (popSchedule s).sp = s.sp := rfl
@[simp] theorem popSchedule_dt (s : State) : (popSchedule s).dt = s.dt := rfl
@[simp] theorem popSchedule_st (s : State) : (popSchedule s).st = s.st := rfl
@[simp] theorem popSchedule_mem (s : State) : (popSchedule s).mem = s.mem := rfl
@[simp] theorem popSchedule_display (s : State) : (popSchedule s).display = s.display := rfl
@[simp] theorem popSchedule_keysHeld (s : State) : (popSchedule s).keysHeld = s.keysHeld := rfl
@[simp] theorem popSchedule_waitingForKey (s : State) : (popSchedule s).waitingForKey = s.waitingForKey := rfl
@[simp] theorem popSchedule_keyCaptured (s : State) : (popSchedule s).keyCaptured = s.keyCaptured := rfl
@[simp] theorem popSchedule_currentOpcode (s : State) : (popSchedule s).currentOpcode = s.currentOpcode := rfl
@[simp] theorem popSchedule_yWrapEnabled (s : State) : (popSchedule s).yWrapEnabled = s.yWrapEnabled := rfl
@[simp] theorem popSchedule_stepMode (s : State) : (popSchedule s).stepMode = s.stepMode := rfl
@[simp] theorem popSchedule_advance (s : State) : (popSchedule s).advance = s.advance := rfl
@[simp] theorem popSchedule_toneOn (s : State) : (popSchedule s).toneOn = s.toneOn := rfl
@[simp] theorem popSchedule_faulted (s : State) : (popSchedule s).faulted = s.faulted := rfl
@[simp] theorem popSchedule_schedule (s : State) : (popSchedule s).schedule = s.schedule.tail := rfl
@[simp] theorem popSchedule_emitted (s : State) : (popSchedule s).emitted = s.emitted := rfl
@[simp] theorem popSchedule_shutDown (s : State) : (popSchedule s).shutDown = s.shutDown := rfl
@[simp] theorem popSchedule_randomInput (s : State) : (popSchedule s).randomInput = s.randomInput := rfl
@[simp] theorem popSchedule_draws (s : State) : (popSchedule s).draws = s.draws := rfl
@[simp] theorem popSchedule_keyInput (s : State) : (popSchedule s).keyInput = s.keyInput := rfl
@[simp] theorem popSchedule_picks (s : State) : (popSchedule s).picks = s.picks := rfl
@[simp] theorem popSchedule_reg (s : State) (r : Reg) : (popSchedule s).reg r = s.reg r := rfl
@[simp] theorem popSchedule_byteAt (s : State) (a : Nat) : (popSchedule s).byteAt a = s.byteAt a := rfl
@[simp] theorem popSchedule_row (s : State) (r : Fin 32) : (popSchedule s).row r = s.row r := rfl
@[simp] theorem popSchedule_held (s : State) (k : Key) : (popSchedule s).held k = s.held k := rfl

/-! ## `emit` -/

@[simp] theorem emit_v (s : State) (os : List Output) : (s.emit os).v = s.v := rfl
@[simp] theorem emit_pc (s : State) (os : List Output) : (s.emit os).pc = s.pc := rfl
@[simp] theorem emit_index (s : State) (os : List Output) : (s.emit os).index = s.index := rfl
@[simp] theorem emit_sp (s : State) (os : List Output) : (s.emit os).sp = s.sp := rfl
@[simp] theorem emit_dt (s : State) (os : List Output) : (s.emit os).dt = s.dt := rfl
@[simp] theorem emit_st (s : State) (os : List Output) : (s.emit os).st = s.st := rfl
@[simp] theorem emit_mem (s : State) (os : List Output) : (s.emit os).mem = s.mem := rfl
@[simp] theorem emit_display (s : State) (os : List Output) : (s.emit os).display = s.display := rfl
@[simp] theorem emit_keysHeld (s : State) (os : List Output) : (s.emit os).keysHeld = s.keysHeld := rfl
@[simp] theorem emit_waitingForKey (s : State) (os : List Output) : (s.emit os).waitingForKey = s.waitingForKey := rfl
@[simp] theorem emit_keyCaptured (s : State) (os : List Output) : (s.emit os).keyCaptured = s.keyCaptured := rfl
@[simp] theorem emit_currentOpcode (s : State) (os : List Output) : (s.emit os).currentOpcode = s.currentOpcode := rfl
@[simp] theorem emit_yWrapEnabled (s : State) (os : List Output) : (s.emit os).yWrapEnabled = s.yWrapEnabled := rfl
@[simp] theorem emit_stepMode (s : State) (os : List Output) : (s.emit os).stepMode = s.stepMode := rfl
@[simp] theorem emit_advance (s : State) (os : List Output) : (s.emit os).advance = s.advance := rfl
@[simp] theorem emit_toneOn (s : State) (os : List Output) : (s.emit os).toneOn = s.toneOn := rfl
@[simp] theorem emit_faulted (s : State) (os : List Output) : (s.emit os).faulted = s.faulted := rfl
@[simp] theorem emit_schedule (s : State) (os : List Output) : (s.emit os).schedule = s.schedule := rfl
@[simp] theorem emit_emitted (s : State) (os : List Output) : (s.emit os).emitted = s.emitted ++ os := rfl
@[simp] theorem emit_shutDown (s : State) (os : List Output) : (s.emit os).shutDown = s.shutDown := rfl
@[simp] theorem emit_randomInput (s : State) (os : List Output) : (s.emit os).randomInput = s.randomInput := rfl
@[simp] theorem emit_draws (s : State) (os : List Output) : (s.emit os).draws = s.draws := rfl
@[simp] theorem emit_keyInput (s : State) (os : List Output) : (s.emit os).keyInput = s.keyInput := rfl
@[simp] theorem emit_picks (s : State) (os : List Output) : (s.emit os).picks = s.picks := rfl
@[simp] theorem emit_reg (s : State) (os : List Output) (r : Reg) : (s.emit os).reg r = s.reg r := rfl
@[simp] theorem emit_byteAt (s : State) (os : List Output) (a : Nat) : (s.emit os).byteAt a = s.byteAt a := rfl
@[simp] theorem emit_row (s : State) (os : List Output) (r : Fin 32) : (s.emit os).row r = s.row r := rfl
@[simp] theorem emit_held (s : State) (os : List Output) (k : Key) : (s.emit os).held k = s.held k := rfl

/-! ## `setTone` -/

@[simp] theorem setTone_v (s : State) (b : Bool) : (s.setTone b).v = s.v := rfl
@[simp] theorem setTone_pc (s : State) (b : Bool) : (s.setTone b).pc = s.pc := rfl
@[simp] theorem setTone_index (s : State) (b : Bool) : (s.setTone b).index = s.index := rfl
@[simp] theorem setTone_sp (s : State) (b : Bool) : (s.setTone b).sp = s.sp := rfl
@[simp] theorem setTone_dt (s : State) (b : Bool) : (s.setTone b).dt = s.dt := rfl
@[simp] theorem setTone_st (s : State) (b : Bool) : (s.setTone b).st = s.st := rfl
@[simp] theorem setTone_mem (s : State) (b : Bool) : (s.setTone b).mem = s.mem := rfl
@[simp] theorem setTone_display (s : State) (b : Bool) : (s.setTone b).display = s.display := rfl
@[simp] theorem setTone_keysHeld (s : State) (b : Bool) : (s.setTone b).keysHeld = s.keysHeld := rfl
@[simp] theorem setTone_waitingForKey (s : State) (b : Bool) : (s.setTone b).waitingForKey = s.waitingForKey := rfl
@[simp] theorem setTone_keyCaptured (s : State) (b : Bool) : (s.setTone b).keyCaptured = s.keyCaptured := rfl
@[simp] theorem setTone_currentOpcode (s : State) (b : Bool) : (s.setTone b).currentOpcode = s.currentOpcode := rfl
@[simp] theorem setTone_yWrapEnabled (s : State) (b : Bool) : (s.setTone b).yWrapEnabled = s.yWrapEnabled := rfl
@[simp] theorem setTone_stepMode (s : State) (b : Bool) : (s.setTone b).stepMode = s.stepMode := rfl
@[simp] theorem setTone_advance (s : State) (b : Bool) : (s.setTone b).advance = s.advance := rfl
@[simp] theorem setTone_toneOn (s : State) (b : Bool) : (s.setTone b).toneOn = b := rfl
@[simp] theorem setTone_faulted (s : State) (b : Bool) : (s.setTone b).faulted = s.faulted := rfl
@[simp] theorem setTone_schedule (s : State) (b : Bool) : (s.setTone b).schedule = s.schedule := rfl
@[simp] theorem setTone_emitted (s : State) (b : Bool) : (s.setTone b).emitted = s.emitted := rfl
@[simp] theorem setTone_shutDown (s : State) (b : Bool) : (s.setTone b).shutDown = s.shutDown := rfl
@[simp] theorem setTone_randomInput (s : State) (b : Bool) : (s.setTone b).randomInput = s.randomInput := rfl
@[simp] theorem setTone_draws (s : State) (b : Bool) : (s.setTone b).draws = s.draws := rfl
@[simp] theorem setTone_keyInput (s : State) (b : Bool) : (s.setTone b).keyInput = s.keyInput := rfl
@[simp] theorem setTone_picks (s : State) (b : Bool) : (s.setTone b).picks = s.picks := rfl
@[simp] theorem setTone_reg (s : State) (b : Bool) (r : Reg) : (s.setTone b).reg r = s.reg r := rfl
@[simp] theorem setTone_byteAt (s : State) (b : Bool) (a : Nat) : (s.setTone b).byteAt a = s.byteAt a := rfl
@[simp] theorem setTone_row (s : State) (b : Bool) (r : Fin 32) : (s.setTone b).row r = s.row r := rfl
@[simp] theorem setTone_held (s : State) (b : Bool) (k : Key) : (s.setTone b).held k = s.held k := rfl

/-! ## `tickTimers` -/

@[simp] theorem tickTimers_v (s : State) : s.tickTimers.v = s.v := rfl
@[simp] theorem tickTimers_pc (s : State) : s.tickTimers.pc = s.pc := rfl
@[simp] theorem tickTimers_index (s : State) : s.tickTimers.index = s.index := rfl
@[simp] theorem tickTimers_sp (s : State) : s.tickTimers.sp = s.sp := rfl
@[simp] theorem tickTimers_dt (s : State) : s.tickTimers.dt = countDown s.dt := rfl
@[simp] theorem tickTimers_st (s : State) : s.tickTimers.st = countDown s.st := rfl
@[simp] theorem tickTimers_mem (s : State) : s.tickTimers.mem = s.mem := rfl
@[simp] theorem tickTimers_display (s : State) : s.tickTimers.display = s.display := rfl
@[simp] theorem tickTimers_keysHeld (s : State) : s.tickTimers.keysHeld = s.keysHeld := rfl
@[simp] theorem tickTimers_waitingForKey (s : State) : s.tickTimers.waitingForKey = s.waitingForKey := rfl
@[simp] theorem tickTimers_keyCaptured (s : State) : s.tickTimers.keyCaptured = s.keyCaptured := rfl
@[simp] theorem tickTimers_currentOpcode (s : State) : s.tickTimers.currentOpcode = s.currentOpcode := rfl
@[simp] theorem tickTimers_yWrapEnabled (s : State) : s.tickTimers.yWrapEnabled = s.yWrapEnabled := rfl
@[simp] theorem tickTimers_stepMode (s : State) : s.tickTimers.stepMode = s.stepMode := rfl
@[simp] theorem tickTimers_advance (s : State) : s.tickTimers.advance = s.advance := rfl
@[simp] theorem tickTimers_toneOn (s : State) : s.tickTimers.toneOn = s.toneOn := rfl
@[simp] theorem tickTimers_faulted (s : State) : s.tickTimers.faulted = s.faulted := rfl
@[simp] theorem tickTimers_schedule (s : State) : s.tickTimers.schedule = s.schedule := rfl
@[simp] theorem tickTimers_emitted (s : State) : s.tickTimers.emitted = s.emitted := rfl
@[simp] theorem tickTimers_shutDown (s : State) : s.tickTimers.shutDown = s.shutDown := rfl
@[simp] theorem tickTimers_randomInput (s : State) : s.tickTimers.randomInput = s.randomInput := rfl
@[simp] theorem tickTimers_draws (s : State) : s.tickTimers.draws = s.draws := rfl
@[simp] theorem tickTimers_keyInput (s : State) : s.tickTimers.keyInput = s.keyInput := rfl
@[simp] theorem tickTimers_picks (s : State) : s.tickTimers.picks = s.picks := rfl
@[simp] theorem tickTimers_reg (s : State) (r : Reg) : s.tickTimers.reg r = s.reg r := rfl
@[simp] theorem tickTimers_byteAt (s : State) (a : Nat) : s.tickTimers.byteAt a = s.byteAt a := rfl
@[simp] theorem tickTimers_row (s : State) (r : Fin 32) : s.tickTimers.row r = s.row r := rfl
@[simp] theorem tickTimers_held (s : State) (k : Key) : s.tickTimers.held k = s.held k := rfl

/-! ## `discard` -/

@[simp] theorem discard_v (s : State) : s.discard.v = State.reset.v := rfl
@[simp] theorem discard_pc (s : State) : s.discard.pc = State.reset.pc := rfl
@[simp] theorem discard_index (s : State) : s.discard.index = State.reset.index := rfl
@[simp] theorem discard_sp (s : State) : s.discard.sp = State.reset.sp := rfl
@[simp] theorem discard_dt (s : State) : s.discard.dt = State.reset.dt := rfl
@[simp] theorem discard_st (s : State) : s.discard.st = State.reset.st := rfl
@[simp] theorem discard_mem (s : State) : s.discard.mem = State.reset.mem := rfl
@[simp] theorem discard_display (s : State) : s.discard.display = State.reset.display := rfl
@[simp] theorem discard_keysHeld (s : State) : s.discard.keysHeld = State.reset.keysHeld := rfl
@[simp] theorem discard_waitingForKey (s : State) : s.discard.waitingForKey = State.reset.waitingForKey := rfl
@[simp] theorem discard_keyCaptured (s : State) : s.discard.keyCaptured = State.reset.keyCaptured := rfl
@[simp] theorem discard_currentOpcode (s : State) : s.discard.currentOpcode = State.reset.currentOpcode := rfl
@[simp] theorem discard_yWrapEnabled (s : State) : s.discard.yWrapEnabled = State.reset.yWrapEnabled := rfl
@[simp] theorem discard_stepMode (s : State) : s.discard.stepMode = State.reset.stepMode := rfl
@[simp] theorem discard_advance (s : State) : s.discard.advance = State.reset.advance := rfl
@[simp] theorem discard_toneOn (s : State) : s.discard.toneOn = State.reset.toneOn := rfl
@[simp] theorem discard_faulted (s : State) : s.discard.faulted = State.reset.faulted := rfl
@[simp] theorem discard_schedule (s : State) : s.discard.schedule = s.schedule := rfl
@[simp] theorem discard_emitted (s : State) : s.discard.emitted = s.emitted := rfl
@[simp] theorem discard_shutDown (s : State) : s.discard.shutDown = s.shutDown := rfl
@[simp] theorem discard_randomInput (s : State) : s.discard.randomInput = s.randomInput := rfl
@[simp] theorem discard_draws (s : State) : s.discard.draws = s.draws := rfl
@[simp] theorem discard_keyInput (s : State) : s.discard.keyInput = s.keyInput := rfl
@[simp] theorem discard_picks (s : State) : s.discard.picks = s.picks := rfl

/-! ## `endRun` -/

@[simp] theorem endRun_v (s : State) : s.endRun.v = s.v := rfl
@[simp] theorem endRun_pc (s : State) : s.endRun.pc = s.pc := rfl
@[simp] theorem endRun_index (s : State) : s.endRun.index = s.index := rfl
@[simp] theorem endRun_sp (s : State) : s.endRun.sp = s.sp := rfl
@[simp] theorem endRun_dt (s : State) : s.endRun.dt = s.dt := rfl
@[simp] theorem endRun_st (s : State) : s.endRun.st = s.st := rfl
@[simp] theorem endRun_mem (s : State) : s.endRun.mem = s.mem := rfl
@[simp] theorem endRun_display (s : State) : s.endRun.display = s.display := rfl
@[simp] theorem endRun_keysHeld (s : State) : s.endRun.keysHeld = s.keysHeld := rfl
@[simp] theorem endRun_waitingForKey (s : State) : s.endRun.waitingForKey = s.waitingForKey := rfl
@[simp] theorem endRun_keyCaptured (s : State) : s.endRun.keyCaptured = s.keyCaptured := rfl
@[simp] theorem endRun_currentOpcode (s : State) : s.endRun.currentOpcode = s.currentOpcode := rfl
@[simp] theorem endRun_yWrapEnabled (s : State) : s.endRun.yWrapEnabled = s.yWrapEnabled := rfl
@[simp] theorem endRun_stepMode (s : State) : s.endRun.stepMode = s.stepMode := rfl
@[simp] theorem endRun_advance (s : State) : s.endRun.advance = s.advance := rfl
@[simp] theorem endRun_toneOn (s : State) : s.endRun.toneOn = s.toneOn := rfl
@[simp] theorem endRun_faulted (s : State) : s.endRun.faulted = s.faulted := rfl
@[simp] theorem endRun_schedule (s : State) : s.endRun.schedule = s.schedule := rfl
@[simp] theorem endRun_emitted (s : State) : s.endRun.emitted = s.emitted := rfl
@[simp] theorem endRun_shutDown (s : State) : s.endRun.shutDown = true := rfl
@[simp] theorem endRun_randomInput (s : State) : s.endRun.randomInput = s.randomInput := rfl
@[simp] theorem endRun_draws (s : State) : s.endRun.draws = s.draws := rfl
@[simp] theorem endRun_keyInput (s : State) : s.endRun.keyInput = s.keyInput := rfl
@[simp] theorem endRun_picks (s : State) : s.endRun.picks = s.picks := rfl
@[simp] theorem endRun_reg (s : State) (r : Reg) : s.endRun.reg r = s.reg r := rfl
@[simp] theorem endRun_byteAt (s : State) (a : Nat) : s.endRun.byteAt a = s.byteAt a := rfl
@[simp] theorem endRun_row (s : State) (r : Fin 32) : s.endRun.row r = s.row r := rfl
@[simp] theorem endRun_held (s : State) (k : Key) : s.endRun.held k = s.held k := rfl

/-! ## The stores that an update changes -/

@[simp] theorem setReg_reg (s : State) (q r : Reg) (b : Byte) :
    (s.setReg q b).reg r = if r = q then b else s.reg r := by
  simp [State.reg, State.setReg, Vector.get_eq_getElem, Vector.getElem_set, Fin.ext_iff, eq_comm]

@[simp] theorem setRow_row (s : State) (q r : Fin 32) (p : PixelRow) :
    (s.setRow q p).row r = if r = q then p else s.row r := by
  simp [State.row, State.setRow, Vector.get_eq_getElem, Vector.getElem_set, Fin.ext_iff, eq_comm]

@[simp] theorem clearDisplay_row (s : State) (r : Fin 32) : s.clearDisplay.row r = 0 := by
  simp [State.row, State.clearDisplay, Vector.get_eq_getElem]

@[simp] theorem setHeld_held (s : State) (q k : Key) (b : Bool) :
    (s.setHeld q b).held k = if k = q then b else s.held k := by
  simp [State.held, State.setHeld, Vector.get_eq_getElem, Vector.getElem_set, Fin.ext_iff, eq_comm]

/-! ## Updates made of named updates -/

@[simp] theorem skip_eq (s : State) : s.skip = s.setPc (s.pc + 2) := rfl
@[simp] theorem rewind_eq (s : State) : s.rewind = s.setPc (s.pc - 2) := rfl
@[simp] theorem setFlag_eq (s : State) (f : Bool) : s.setFlag f = s.setReg vf (flagByte f) := rfl
@[simp] theorem setResultThenFlag_eq (s : State) (x : Reg) (b : Byte) (f : Bool) :
    s.setResultThenFlag x b f = (s.setReg x b).setReg vf (flagByte f) := rfl
@[simp] theorem advancePast_eq (w : Word) (s : State) : advancePast w s = (s.setOpcode w).setPc (s.pc + 2) := rfl
@[simp] theorem setDebug_stepMode (s : State) (b : Bool) : s.setDebug .stepMode b = s.setStepMode b := rfl
@[simp] theorem setDebug_advance (s : State) (b : Bool) : s.setDebug .advance b = s.setAdvance b := rfl
@[simp] theorem signal_eq (s : State) :
    s.signal = (s.setTone (toneLatch s.toneOn s.st)).emit (toneCommand s.toneOn s.st ++ [.frameReady]) := rfl
@[simp] theorem setAdvance_self (s : State) : s.setAdvance s.advance = s := rfl

/-- Two states with equal stores and registers are equal. -/
theorem eq_of_reg_row_held {s t : State} (hreg : ∀ r, t.reg r = s.reg r) (hrow : ∀ r, t.row r = s.row r)
    (hheld : ∀ k, t.held k = s.held k) : t.v = s.v ∧ t.display = s.display ∧ t.keysHeld = s.keysHeld := by
  refine ⟨Vector.ext fun i hi => ?_, Vector.ext fun i hi => ?_, Vector.ext fun i hi => ?_⟩
  · exact hreg ⟨i, hi⟩
  · exact hrow ⟨i, hi⟩
  · exact hheld ⟨i, hi⟩

end Sys2Proof.Machine
end

