-- ==== Sys2Proof/Laws/Ops.lean ====
section
/-! SUPPORT. Laws/Ops.lean: what each shared operation over memory and registers can do, said once: the access primitives,
block stores and loads, and how an attempt ends. -/

namespace Sys2Proof.Machine

/-! ## Attempts -/

@[simp] theorem andThen_done {α β : Type} (x : α) (f : α → Attempt β) : andThen (.done x) f = f x := rfl
@[simp] theorem andThen_raised {α β : Type} (c : FaultCause) (s : State) (f : α → Attempt β) :
    andThen (.raised c s) f = .raised c s := rfl
@[simp] theorem finish_done (s : State) : finish (.done s) = .next s := rfl
@[simp] theorem finish_raised (c : FaultCause) (s : State) : finish (.raised c s) = .next (raise c s) := rfl

/-- How an attempt ends: done in a state that has `P`, or raised with a cause that has `Q`, in a state that has `P`. -/
def Ends (P : State → Prop) (Q : FaultCause → Prop) : Attempt State → Prop
  | .done t     => P t
  | .raised c t => P t ∧ Q c

theorem Ends.mono {P P' : State → Prop} {Q Q' : FaultCause → Prop} (hP : ∀ t, P t → P' t) (hQ : ∀ c, Q c → Q' c)
    {a : Attempt State} (h : Ends P Q a) : Ends P' Q' a := by
  cases a with
  | done t     => exact hP t h
  | raised c t => exact ⟨hP t h.1, hQ c h.2⟩

/-- Inversion of `finish`: the next state is the attempt's own or the fault taken in it. -/
theorem next_of_finish {P : State → Prop} {Q : FaultCause → Prop} {a : Attempt State} {t : State} (h : Ends P Q a)
    (hn : finish a = .next t) : P t ∨ ∃ c u, P u ∧ Q c ∧ t = raise c u := by
  cases a with
  | done u     => cases hn; exact .inl h
  | raised c u => cases hn; exact .inr ⟨c, u, h.1, h.2, rfl⟩

/-- Every attempt finishes in a next state. -/
theorem finish_next (a : Attempt State) : ∃ t, finish a = .next t := by
  cases a with
  | done t     => exact ⟨t, rfl⟩
  | raised c t => exact ⟨raise c t, rfl⟩

/-! ## Addresses and bytes of words -/

theorem elementAddr_toNat (a : Word) (i : Nat) : (elementAddr a i).toNat = (a.toNat + i) % 65536 := by
  simp [elementAddr, BitVec.toNat_add]

theorem elementAddr_zero (a : Word) : elementAddr a 0 = a := by simp [elementAddr]

theorem elementAddr_elementAddr (a : Word) (i j : Nat) : elementAddr (elementAddr a i) j = elementAddr a (i + j) := by
  apply BitVec.eq_of_toNat_eq
  simp only [elementAddr_toNat]
  omega

/-- The address after the last byte of memory. -/
theorem elementAddr_past_end {a : Word} (h : a.toNat = 4095) : elementAddr a 1 = 0x1000 :=
  BitVec.eq_of_toNat_eq (by rw [elementAddr_toNat, h]; rfl)

theorem highByte_toNat (w : Word) : (highByte w).toNat = w.toNat / 256 := by
  simp only [highByte, BitVec.extractLsb'_toNat, Nat.shiftRight_eq_div_pow]
  have := w.isLt
  omega

theorem lowByte_toNat (w : Word) : (lowByte w).toNat = w.toNat % 256 := by
  simp [lowByte, BitVec.extractLsb'_toNat]

theorem wordOfBytes_toNat (a b : Byte) : (wordOfBytes a b).toNat = a.toNat * 256 + b.toNat := by
  have := b.isLt
  rw [wordOfBytes, BitVec.toNat_append, Nat.shiftLeft_eq, Nat.mul_comm, ← Nat.two_pow_add_eq_or_of_lt this,
    Nat.mul_comm]

theorem wordOfBytes_high_low (w : Word) : wordOfBytes (highByte w) (lowByte w) = w :=
  BitVec.eq_of_toNat_eq (by rw [wordOfBytes_toNat, highByte_toNat, lowByte_toNat]; omega)

/-! ## Reads -/

theorem memRead_inside {s : State} {a : Word} (h : a.toNat < 4096) : memRead s a = .done (s.byteAt a.toNat) :=
  if_pos h

theorem memRead_outside {s : State} {a : Word} (h : 4096 ≤ a.toNat) :
    memRead s a = .raised (.memoryOutOfRange a) s :=
  if_neg (by show ¬ a.toNat < 4096; omega)

theorem memRead2_inside {s : State} {a : Word} (h : a.toNat + 1 < 4096) :
    memRead2 s a = .done (wordOfBytes (s.byteAt a.toNat) (s.byteAt (a.toNat + 1))) := by
  have ha : (elementAddr a 1).toNat = a.toNat + 1 := by rw [elementAddr_toNat]; omega
  rw [memRead2, memRead_inside (by omega), andThen_done, memRead_inside (by omega), ha, andThen_done]

theorem memRead2_outside {s : State} {a : Word} (h : 4095 ≤ a.toNat) :
    memRead2 s a = .raised (.memoryOutOfRange (if a.toNat = 4095 then 0x1000 else a)) s := by
  by_cases e : a.toNat = 4095
  · rw [memRead2, memRead_inside (by omega), andThen_done, elementAddr_past_end e, memRead_outside (by decide),
      andThen_raised, if_pos e]
  · rw [memRead2, memRead_outside (by omega), andThen_raised, if_neg e]

/-! ## Block stores -/

/-- The state with bytes loaded from an address on. -/
def State.setBytes (s : State) (a : Nat) (bs : List Byte) : State := { s with mem := s.mem.load a bs }

theorem setBytes_byteAt {s : State} (hs : s.mem.wf) (a : Nat) (bs : List Byte) (a' : Nat) :
    (s.setBytes a bs).byteAt a' = if a ≤ a' ∧ a' < a + bs.length then bs.getD (a' - a) 0 else s.byteAt a' :=
  Memory.read_load hs.1 a bs a'

/-- A block store inside memory. -/
theorem storeBytes_inside {s : State} {a : Word} {bs : List Byte} (h : a.toNat + bs.length ≤ 4096) :
    storeBytes s a bs = .done (s.setBytes a.toNat bs) := by
  induction bs generalizing s a with
  | nil => rfl
  | cons b bs ih =>
    simp only [List.length_cons] at h
    have hw : memWrite s a b = .done (s.setByte a.toNat b) := if_pos (by show a.toNat < 4096; omega)
    rw [storeBytes, hw, andThen_done]
    cases bs with
    | nil => rfl
    | cons b' bs =>
      simp only [List.length_cons] at h ih
      have ha : (elementAddr a 1).toNat = a.toNat + 1 := by rw [elementAddr_toNat]; omega
      rw [ih (by omega), ha]
      rfl

/-- A block store that leaves memory: the fault of the first address outside, with the bytes below it stored. -/
theorem storeBytes_outside {s : State} {a : Word} {bs : List Byte} (hbs : bs ≠ []) (h : 4096 < a.toNat + bs.length) :
    storeBytes s a bs = .raised (.memoryOutOfRange (if a.toNat < 4096 then 0x1000 else a))
      (s.setBytes a.toNat (bs.take (4096 - a.toNat))) := by
  induction bs generalizing s a with
  | nil => exact absurd rfl hbs
  | cons b bs ih =>
    simp only [List.length_cons] at h
    by_cases e : a.toNat < 4096
    · have hw : memWrite s a b = .done (s.setByte a.toNat b) := if_pos e
      have ha : (elementAddr a 1).toNat = a.toNat + 1 := by rw [elementAddr_toNat]; omega
      have hne : bs ≠ [] := by intro e'; rw [e'] at h; simp at h; omega
      have ht : 4096 - a.toNat = (4096 - (a.toNat + 1)) + 1 := by omega
      rw [storeBytes, hw, andThen_done, ih hne (by omega), ha, if_pos e, ht, List.take_succ_cons]
      by_cases e' : a.toNat + 1 < 4096
      · rw [if_pos e']; rfl
      · rw [if_neg e', elementAddr_past_end (by omega)]; rfl
    · have hw : memWrite s a b = .raised (.memoryOutOfRange a) s := if_neg e
      rw [storeBytes, hw, andThen_raised, if_neg e, show 4096 - a.toNat = 0 by omega]
      rfl

/-- A recorded value is out of its range (R250). -/
def CauseIsReal : FaultCause → Prop
  | .memoryOutOfRange a  => 0x0FFF < a.toNat
  | .keyIndexOutOfRange k => 0x0F < k.toNat

/-- The cause of a failing memory access: an address outside memory. -/
def MemoryCause (c : FaultCause) : Prop := ∃ a, c = .memoryOutOfRange a ∧ 0x0FFF < a.toNat

theorem MemoryCause.isReal {c : FaultCause} : MemoryCause c → CauseIsReal c
  | ⟨_, e, h⟩ => by subst e; exact h

/-- A block store changes memory only and keeps its canonical form. -/
theorem storeBytes_ends (s : State) (a : Word) (bs : List Byte) :
    Ends (fun t => ∃ m, t = { s with mem := m } ∧ (s.mem.wf → m.wf)) MemoryCause (storeBytes s a bs) := by
  induction bs generalizing s a with
  | nil => exact ⟨s.mem, rfl, id⟩
  | cons b bs ih =>
    rw [storeBytes]
    by_cases e : a.toNat < 4096
    · have hw : memWrite s a b = .done (s.setByte a.toNat b) := if_pos e
      rw [hw, andThen_done]
      refine (ih (s.setByte a.toNat b) _).mono (fun t ⟨m, ht, hm⟩ => ⟨m, ht, fun hs => hm ?_⟩) fun _ h => h
      exact Memory.wf_write hs e b
    · have hw : memWrite s a b = .raised (.memoryOutOfRange a) s := if_neg e
      rw [hw, andThen_raised]
      exact ⟨⟨s.mem, rfl, id⟩, a, rfl, by omega⟩

/-! ## Block loads -/

/-- A block load inside memory: register `j` of the list holds the byte at `a + j`, the others what they held. -/
theorem loadBytes_inside {s : State} {a : Word} {rs : List Reg} (hn : rs.Nodup) (h : a.toNat + rs.length ≤ 4096) :
    ∃ v, loadBytes s a rs = .done { s with v := v } ∧
      (∀ j r, rs[j]? = some r → v.get r = s.byteAt (a.toNat + j)) ∧ (∀ r, r ∉ rs → v.get r = s.reg r) := by
  induction rs generalizing s a with
  | nil => exact ⟨s.v, rfl, by simp, fun r _ => rfl⟩
  | cons q rs ih =>
    simp only [List.length_cons] at h
    obtain ⟨hq, hn⟩ := List.nodup_cons.1 hn
    rw [loadBytes, memRead_inside (by omega), andThen_done]
    cases rs with
    | nil =>
      refine ⟨_, rfl, fun j r hj => ?_, fun r hr => ?_⟩
      · obtain ⟨rfl, rfl⟩ : j = 0 ∧ q = r := by cases j <;> simp_all
        exact (setReg_reg s q q _).trans (if_pos rfl)
      · exact (setReg_reg s q r _).trans (if_neg (by simpa using hr))
    | cons q' rs =>
      simp only [List.length_cons] at h ih
      have ha : (elementAddr a 1).toNat = a.toNat + 1 := by rw [elementAddr_toNat]; omega
      obtain ⟨v, he, hv, hv'⟩ := ih (s := s.setReg q (s.byteAt a.toNat)) (a := elementAddr a 1) hn (by omega)
      refine ⟨v, he, fun j r hj => ?_, fun r hr => ?_⟩
      · cases j with
        | zero =>
          obtain rfl : q = r := by simpa using hj
          rw [hv' q hq, setReg_reg, if_pos rfl, Nat.add_zero]
        | succ j =>
          rw [hv j r (by simpa using hj), ha, setReg_byteAt]
          congr 1; omega
      · simp only [List.mem_cons, not_or] at hr
        rw [hv' r (by simpa using hr.2), setReg_reg, if_neg hr.1]

/-- A block load that leaves memory: the fault of the first address outside, with the registers before it loaded. -/
theorem loadBytes_outside {s : State} {a : Word} {rs : List Reg} (hn : rs.Nodup) (hrs : rs ≠ [])
    (h : 4096 < a.toNat + rs.length) :
    ∃ v, loadBytes s a rs =
        .raised (.memoryOutOfRange (if a.toNat < 4096 then 0x1000 else a)) { s with v := v } ∧
      (∀ j r, rs[j]? = some r → v.get r = if a.toNat + j < 4096 then s.byteAt (a.toNat + j) else s.reg r) ∧
      (∀ r, r ∉ rs → v.get r = s.reg r) := by
  induction rs generalizing s a with
  | nil => exact absurd rfl hrs
  | cons q rs ih =>
    simp only [List.length_cons] at h
    obtain ⟨hq, hn⟩ := List.nodup_cons.1 hn
    by_cases e : a.toNat < 4096
    · have ha : (elementAddr a 1).toNat = a.toNat + 1 := by rw [elementAddr_toNat]; omega
      have hne : rs ≠ [] := by intro e'; rw [e'] at h; simp at h; omega
      obtain ⟨v, he, hv, hv'⟩ := ih (s := s.setReg q (s.byteAt a.toNat)) (a := elementAddr a 1) hn hne (by omega)
      rw [loadBytes, memRead_inside e, andThen_done]
      refine ⟨v, ?_, fun j r hj => ?_, fun r hr => ?_⟩
      · rw [he, ha, if_pos e]
        by_cases e' : a.toNat + 1 < 4096
        · rw [if_pos e']; rfl
        · rw [if_neg e', elementAddr_past_end (by omega)]; rfl
      · cases j with
        | zero =>
          obtain rfl : q = r := by simpa using hj
          rw [hv' q hq, setReg_reg, if_pos rfl, Nat.add_zero, if_pos e]
        | succ j =>
          have hj : rs[j]? = some r := by simpa using hj
          have hrq : r ≠ q := fun e' => hq (e' ▸ List.mem_of_getElem? hj)
          rw [hv j r hj, ha, setReg_byteAt, setReg_reg, if_neg hrq, show a.toNat + 1 + j = a.toNat + (j + 1) by omega]
      · simp only [List.mem_cons, not_or] at hr
        rw [hv' r hr.2, setReg_reg, if_neg hr.1]
    · rw [loadBytes, memRead_outside (by omega), andThen_raised, if_neg e]
      exact ⟨s.v, rfl, fun j r _ => by rw [if_neg (by omega)]; rfl, fun r _ => rfl⟩

/-- A block load changes the listed registers only. -/
theorem loadBytes_ends (s : State) (a : Word) (rs : List Reg) :
    Ends (fun t => ∃ v, t = { s with v := v } ∧ ∀ r, r ∉ rs → t.reg r = s.reg r) MemoryCause (loadBytes s a rs) := by
  induction rs generalizing s a with
  | nil => exact ⟨s.v, rfl, fun _ _ => rfl⟩
  | cons q rs ih =>
    rw [loadBytes]
    by_cases e : a.toNat < 4096
    · rw [memRead_inside e, andThen_done]
      refine (ih (s.setReg q _) _).mono (fun t ⟨v, ht, hr⟩ => ⟨v, ht, fun r hq => ?_⟩) fun _ h => h
      simp only [List.mem_cons, not_or] at hq
      rw [hr r hq.2, setReg_reg, if_neg hq.1]
    · rw [memRead_outside (by omega), andThen_raised]
      exact ⟨⟨s.v, rfl, fun _ _ => rfl⟩, a, rfl, by omega⟩

end Sys2Proof.Machine
end

