-- ==== Sys2Proof/Laws/Operands.lean ====
section
/-! SUPPORT. Laws/Operands.lean: what the operand forms and the flag computations are worth: in numbers, as lists, bit by
bit. -/

namespace Sys2Proof.Machine

/-! ## Immediates and addresses -/

@[simp] theorem addressOf_toNat (nnn : BitVec 12) : (addressOf nnn).toNat = nnn.toNat := by
  simp [addressOf, BitVec.toNat_setWidth]; omega

@[simp] theorem widen_toNat (b : Byte) : (widen b).toNat = b.toNat := by
  simp [widen, BitVec.toNat_setWidth]; omega

theorem glyphAddress_toNat (d : Byte) : (glyphAddress d).toNat = 0x050 + 5 * d.toNat := by
  have := d.isLt
  simp [glyphAddress, BitVec.toNat_add, BitVec.toNat_mul]
  omega

theorem decimalDigits_length (b : Byte) : (decimalDigits b).length = 3 := rfl

/-! ## Register lists -/

theorem regsUpTo_getElem (x r : Reg) : (regsUpTo x)[r.val]? = if r ≤ x then some r else none := by
  revert x r; decide

theorem regsUpTo_getElem_eq {x : Reg} {j : Nat} {r : Reg} (h : (regsUpTo x)[j]? = some r) : j = r.val ∧ r ≤ x := by
  have hj : j < 16 := by
    have := (List.getElem?_eq_some_iff.1 h).1
    simp only [regsUpTo, allRegs, List.length_take] at this
    simp at this; omega
  have := regsUpTo_getElem x ⟨j, hj⟩
  rw [h] at this
  split at this
  · cases this; exact ⟨rfl, by assumption⟩
  · cases this

theorem regsUpTo_length (x : Reg) : (regsUpTo x).length = x.val + 1 := by revert x; decide

theorem regsUpTo_nodup (x : Reg) : (regsUpTo x).Nodup := by revert x; decide

theorem mem_regsUpTo (x r : Reg) : r ∈ regsUpTo x ↔ r ≤ x := by revert x r; decide

/-! ## Keys -/

theorem mem_allKeys (k : Key) : k ∈ allKeys := by revert k; decide

theorem mem_heldKeys (s : State) (k : Key) : k ∈ heldKeys s ↔ s.held k = true := by
  simp [heldKeys, mem_allKeys]

theorem keyOf_inside {b : Byte} {k : Key} (h : b.toNat = k.val) : keyOf b = some k := by
  have := k.isLt
  rw [keyOf, dif_pos (by omega)]
  congr 1
  exact Fin.ext h

theorem keyOf_outside {b : Byte} (h : 15 < b.toNat) : keyOf b = none := dif_neg (by omega)

theorem keyHeld_inside {s : State} {b : Byte} {k : Key} (h : b.toNat = k.val) : keyHeld s b = .done (s.held k) := by
  rw [keyHeld, keyOf_inside h]

theorem keyHeld_outside {s : State} {b : Byte} (h : 15 < b.toNat) :
    keyHeld s b = .raised (.keyIndexOutOfRange b) s := by
  rw [keyHeld, keyOf_outside h]

@[simp] theorem keyByte_toNat (k : Key) : (keyByte k).toNat = k.val := by
  have := k.isLt
  simp [keyByte]; omega

/-- Whatever the choice is, what is chosen is a member of the list, and from a list that is not empty something is. -/
theorem chooseKey_spec (n : Nat) (ks : List Key) :
    match chooseKey n ks with
    | some k => k ∈ ks
    | none   => ks = [] := by
  match ks with
  | []           => rfl
  | [k]          => exact List.mem_singleton.2 rfl
  | k :: l :: ks =>
    have h : n % (ks.length + 2) < (k :: l :: ks).length := Nat.mod_lt _ (by omega)
    rw [chooseKey, List.getElem?_eq_getElem h]
    exact List.getElem_mem h

theorem chooseKey_mem {n : Nat} {ks : List Key} {k : Key} (h : chooseKey n ks = some k) : k ∈ ks := by
  have := chooseKey_spec n ks; rwa [h] at this

theorem chooseKey_none {n : Nat} {ks : List Key} (h : chooseKey n ks = none) : ks = [] := by
  have := chooseKey_spec n ks; rwa [h] at this

/-! ## Sprite rows -/

theorem displayRow_inside (wrap : Bool) {r : Nat} (h : r < 32) : displayRow wrap r = some ⟨r, h⟩ := dif_pos h

theorem displayRow_val {wrap : Bool} {r : Nat} {d : Fin 32} (h : displayRow wrap r = some d) : d.val = r % 32 := by
  unfold displayRow at h
  split at h
  · next hr => cases h; exact (Nat.mod_eq_of_lt hr).symm
  · split at h
    · cases h; rfl
    · cases h

/-- Once a row index is clipped, every later one is. -/
theorem displayRow_none_mono {wrap : Bool} {r r' : Nat} (h : displayRow wrap r = none) (hr : r ≤ r') :
    displayRow wrap r' = none := by
  unfold displayRow at h ⊢
  split at h
  · cases h
  · next hlt =>
    split at h
    · cases h
    · next hw => rw [dif_neg (by omega), if_neg hw]

/-- Fewer than 32 rows apart, two row indices never share a display row. -/
theorem displayRow_injective {wrap : Bool} {r r' : Nat} {d : Fin 32} (h : displayRow wrap r = some d)
    (h' : displayRow wrap r' = some d) (hr : r ≤ r') (hd : r' < r + 32) : r = r' := by
  have := displayRow_val h
  have := displayRow_val h'
  omega

/-! ## Flags -/

theorem flagByte_toNat (f : Bool) : (flagByte f).toNat = f.toNat := by cases f <;> rfl

theorem flagByte_bit (f : Bool) : flagByte f = 0 ∨ flagByte f = 1 := by cases f <;> simp [flagByte]

theorem flagByte_decide (p : Prop) [Decidable p] : flagByte (decide p) = if p then 1 else 0 := by
  by_cases h : p <;> simp [flagByte, h]

theorem carry_eq (a b : Byte) : carry a b = decide (255 < a.toNat + b.toNat) := by
  have ha := a.isLt
  have hb := b.isLt
  have h : (a.setWidth 9 + b.setWidth 9).toNat = a.toNat + b.toNat := by
    simp only [BitVec.toNat_add, BitVec.toNat_setWidth]; omega
  rw [carry, BitVec.getLsbD, Nat.testBit_eq_decide_div_mod_eq, h]
  simp only [decide_eq_decide]
  omega

theorem noBorrow_eq (a b : Byte) : noBorrow a b = decide (b.toNat ≤ a.toNat) := rfl

theorem lowBit_toNat (a : Byte) : (lowBit a).toNat = a.toNat % 2 := by
  rw [lowBit, BitVec.getLsbD, Nat.testBit_eq_decide_div_mod_eq]
  have : a.toNat % 2 = 0 ∨ a.toNat % 2 = 1 := by omega
  rcases this with h | h <;> simp [h]

theorem highBit_toNat (a : Byte) : (highBit a).toNat = a.toNat / 128 := by
  have := a.isLt
  rw [highBit, BitVec.getLsbD, Nat.testBit_eq_decide_div_mod_eq]
  have : a.toNat / 128 = 0 ∨ a.toNat / 128 = 1 := by omega
  rcases this with h | h <;> simp [h]

theorem collides_iff (row mask : PixelRow) : collides row mask = true ↔ row &&& mask ≠ 0 := by
  simp [collides]

end Sys2Proof.Machine
end

