-- ==== Sys2Proof/Laws/Display.lean ====
section
/-! SUPPORT. Laws/Display.lean: what the draw loop of DRW can do, said once: it changes VF and display rows only; the rows it
draws, the collision flag, and where it faults. -/

namespace Sys2Proof.Machine

/-! ## One row -/

theorem drawRow_row (s : State) (q r : Fin 32) (mask : PixelRow) :
    (drawRow s q mask).row r = if r = q then s.row q ^^^ mask else s.row r := by
  unfold drawRow
  split <;> simp

theorem drawRow_reg (s : State) (q : Fin 32) (mask : PixelRow) (r : Reg) :
    (drawRow s q mask).reg r = if r = vf ∧ s.row q &&& mask ≠ 0 then 1 else s.reg r := by
  have hc := collides_iff (s.row q) mask
  rw [drawRow, setRow_reg]
  by_cases h : collides (s.row q) mask = true
  · rw [if_pos h, setFlag_eq, setReg_reg]
    by_cases hr : r = vf
    · rw [if_pos hr, if_pos ⟨hr, hc.1 h⟩]; rfl
    · rw [if_neg hr, if_neg fun h' => hr h'.1]
  · rw [if_neg h, if_neg fun h' => h (hc.2 h'.2)]

/-- One drawn row changes registers and the display only. -/
theorem drawRow_shape (s : State) (q : Fin 32) (mask : PixelRow) :
    drawRow s q mask = { s with v := (drawRow s q mask).v, display := (drawRow s q mask).display } := by
  unfold drawRow
  split <;> rfl

/-! ## The loop -/

/-- The draw loop changes registers and the display only, and leaves every register but VF. -/
theorem drawRows_ends (s : State) (cx ry left i : Nat) :
    Ends (fun t => t = { s with v := t.v, display := t.display } ∧ (∀ r, r ≠ vf → t.reg r = s.reg r) ∧
      (t.reg vf = s.reg vf ∨ t.reg vf = 1)) MemoryCause (drawRows s cx ry left i) := by
  induction left generalizing s i with
  | zero => exact ⟨rfl, fun _ _ => rfl, .inl rfl⟩
  | succ left ih =>
    rw [drawRows]
    split
    · exact ⟨rfl, fun _ _ => rfl, .inl rfl⟩
    · next q _ =>
      by_cases e : (elementAddr s.index i).toNat < 4096
      · rw [memRead_inside e, andThen_done]
        refine (ih _ _).mono (fun t ⟨ht, hr, hf⟩ => ⟨?_, fun r h => ?_, ?_⟩) fun _ h => h
        · rw [ht, drawRow_shape]
        · rw [hr r h, drawRow_reg, if_neg (by simp [h])]
        · rw [drawRow_reg] at hf
          split at hf
          · exact .inr (hf.elim id id)
          · exact hf
      · rw [memRead_outside (by omega), andThen_raised]
        exact ⟨⟨rfl, fun _ _ => rfl, .inl rfl⟩, elementAddr s.index i, rfl, by omega⟩

/-- What a run of the loop over the rows `i` to `i + left - 1` leaves, when each of them that is drawn can be read: each
drawn row XORed with its mask, the other rows as before, VF set iff some drawn row collided. -/
structure DrawnRows (s : State) (cx ry left i : Nat) (t : State) : Prop where
  shape  : t = { s with v := t.v, display := t.display }
  others : ∀ r, r ≠ vf → t.reg r = s.reg r
  drawn  : ∀ j r, i ≤ j → j < i + left → displayRow s.yWrapEnabled (ry + j) = some r →
    t.row r = s.row r ^^^ rowMask s.yWrapEnabled (s.byteAt (elementAddr s.index j).toNat) cx
  kept   : ∀ r, (∀ j, i ≤ j → j < i + left → displayRow s.yWrapEnabled (ry + j) ≠ some r) → t.row r = s.row r
  hit    : (∃ j r, i ≤ j ∧ j < i + left ∧ displayRow s.yWrapEnabled (ry + j) = some r ∧
    s.row r &&& rowMask s.yWrapEnabled (s.byteAt (elementAddr s.index j).toNat) cx ≠ 0) → t.reg vf = 1
  miss   : (∀ j r, i ≤ j → j < i + left → displayRow s.yWrapEnabled (ry + j) = some r →
    s.row r &&& rowMask s.yWrapEnabled (s.byteAt (elementAddr s.index j).toNat) cx = 0) → t.reg vf = s.reg vf

theorem drawRow_index (s : State) (q : Fin 32) (m : PixelRow) : (drawRow s q m).index = s.index := by
  rw [drawRow_shape]
theorem drawRow_yWrap (s : State) (q : Fin 32) (m : PixelRow) : (drawRow s q m).yWrapEnabled = s.yWrapEnabled := by
  rw [drawRow_shape]
theorem drawRow_byteAt (s : State) (q : Fin 32) (m : PixelRow) (a : Nat) : (drawRow s q m).byteAt a = s.byteAt a := by
  rw [drawRow_shape]; rfl

/-- VF only ever rises in the loop. -/
theorem drawRows_flag_sticky {s : State} {cx ry left i : Nat} {t : State} (h : drawRows s cx ry left i = .done t)
    (hf : s.reg vf = 1) : t.reg vf = 1 := by
  have := drawRows_ends s cx ry left i
  rw [h] at this
  exact this.2.2.elim (·.trans hf) id

theorem drawRows_spec {s : State} {cx ry left i : Nat} (hl : left ≤ 32)
    (hm : ∀ j, i ≤ j → j < i + left → displayRow s.yWrapEnabled (ry + j) ≠ none →
      (elementAddr s.index j).toNat < 4096) :
    ∃ t, drawRows s cx ry left i = .done t ∧ DrawnRows s cx ry left i t := by
  induction left generalizing s i with
  | zero =>
    exact ⟨s, rfl, ⟨rfl, fun _ _ => rfl, fun _ _ _ _ _ => by omega, fun _ _ => rfl,
      fun ⟨_, _, _, _, _⟩ => by omega, fun _ => rfl⟩⟩
  | succ left ih =>
    rw [drawRows]
    cases hq : displayRow s.yWrapEnabled (ry + i) with
    | none =>
      have hnone : ∀ j r, i ≤ j → displayRow s.yWrapEnabled (ry + j) ≠ some r := fun j r hj => by
        rw [displayRow_none_mono hq (by omega)]; exact fun h => nomatch h
      exact ⟨s, rfl, ⟨rfl, fun _ _ => rfl, fun j r hj _ h => absurd h (hnone j r hj), fun _ _ => rfl,
        fun ⟨j, r, hj, _, h, _⟩ => absurd h (hnone j r hj), fun _ => rfl⟩⟩
    | some q =>
      have e := hm i (by omega) (by omega) (by rw [hq]; exact fun h => nomatch h)
      simp only [memRead_inside e, andThen_done]
      generalize hM : rowMask s.yWrapEnabled (s.byteAt (elementAddr s.index i).toNat) cx = M
      obtain ⟨t, ht, D⟩ := ih (s := drawRow s q M) (i := i + 1) (by omega) (fun j hj hj' h => by
        rw [drawRow_yWrap] at h; rw [drawRow_index]
        exact hm j (by omega) (by omega) h)
      have hshape := D.shape
      have hothers := D.others
      have hdrawn := D.drawn
      have hkept := D.kept
      have hhit := D.hit
      have hmiss := D.miss
      simp only [drawRow_yWrap, drawRow_index, drawRow_byteAt] at hdrawn hkept hhit hmiss
      have hne : ∀ j r, i + 1 ≤ j → j < i + 1 + left → displayRow s.yWrapEnabled (ry + j) = some r → r ≠ q := by
        intro j r hj hj' h e
        have := displayRow_injective hq (e ▸ h) (by omega) (by omega)
        omega
      have hlater : ∀ j r, i + 1 ≤ j → j < i + 1 + left → displayRow s.yWrapEnabled (ry + j) = some r →
          (drawRow s q M).row r = s.row r := fun j r hj hj' h => by
        rw [drawRow_row, if_neg (hne j r hj hj' h)]
      refine ⟨t, ht, ⟨?_, ?_, ?_, ?_, ?_, ?_⟩⟩
      · rw [hshape, drawRow_shape]
      · intro r hr
        rw [hothers r hr, drawRow_reg, if_neg (by simp [hr])]
      · intro j r hj hj' h
        by_cases e' : j = i
        · subst e'
          obtain rfl : q = r := by rw [hq] at h; cases h; rfl
          rw [hkept q (fun j hj hj' h' => hne j q hj hj' h' rfl), drawRow_row, if_pos rfl, hM]
        · rw [hdrawn j r (by omega) (by omega) h, hlater j r (by omega) (by omega) h]
      · intro r hr
        have hrq : r ≠ q := fun e' => hr i (by omega) (by omega) (e' ▸ hq)
        rw [hkept r (fun j hj hj' => hr j (by omega) (by omega)), drawRow_row, if_neg hrq]
      · rintro ⟨j, r, hj, hj', h, hc⟩
        by_cases e' : j = i
        · subst e'
          obtain rfl : q = r := by rw [hq] at h; cases h; rfl
          exact drawRows_flag_sticky ht (by rw [drawRow_reg, if_pos ⟨rfl, hM ▸ hc⟩])
        · exact hhit ⟨j, r, by omega, by omega, h, by rwa [hlater j r (by omega) (by omega) h]⟩
      · intro hc
        have h0 := hc i q (by omega) (by omega) hq
        rw [hM] at h0
        rw [hmiss (fun j r hj hj' h => by
          rw [hlater j r hj hj' h]; exact hc j r (by omega) (by omega) h), drawRow_reg, if_neg (by simp [h0])]

/-- The loop over `a + b` rows is the loop over the first `a`, none of them clipped, and then the loop over the rest. -/
theorem drawRows_append {s t : State} {cx ry a b i : Nat} (h : drawRows s cx ry a i = .done t)
    (hv : ∀ j, i ≤ j → j < i + a → displayRow s.yWrapEnabled (ry + j) ≠ none) :
    drawRows s cx ry (a + b) i = drawRows t cx ry b (i + a) := by
  induction a generalizing s i with
  | zero => cases h; rw [Nat.zero_add, Nat.add_zero]
  | succ a ih =>
    rw [Nat.succ_add, drawRows]
    rw [drawRows] at h
    cases hq : displayRow s.yWrapEnabled (ry + i) with
    | none => exact absurd hq (hv i (by omega) (by omega))
    | some q =>
      simp only [hq] at h
      by_cases e : (elementAddr s.index i).toNat < 4096
      · simp only [memRead_inside e, andThen_done] at h ⊢
        rw [ih h (fun j hj hj' => by rw [drawRow_yWrap]; exact hv j (by omega) (by omega)),
          show i + 1 + a = i + (a + 1) by omega]
      · rw [memRead_outside (by omega)] at h
        cases h

/-- The loop faults at the first drawn row outside memory. -/
theorem drawRows_outside {s : State} {cx ry b i : Nat} {q : Fin 32}
    (hq : displayRow s.yWrapEnabled (ry + i) = some q) (h : 4096 ≤ (elementAddr s.index i).toNat) :
    drawRows s cx ry (b + 1) i = .raised (.memoryOutOfRange (elementAddr s.index i)) s := by
  rw [drawRows, hq]
  simp only [memRead_outside h, andThen_raised]

end Sys2Proof.Machine
end

