-- ==== Sys2Proof/Laws/Exec.lean ====
section
/-! SUPPORT. Laws/Exec.lean: what executing an instruction can do, said once for every instruction, and that it always answers
a next state. -/

namespace Sys2Proof.Machine

/-- The general registers an instruction may write: its destinations, and VF where it writes the flag (R22, R124). -/
def destinations : Instr → List Reg
  | .ldImm x _ | .addImm x _ | .ldReg x _ | .orReg x _ | .andReg x _ | .xorReg x _ | .rnd x _ | .ldVxDt x | .ldVxK x => [x]
  | .addReg x _ | .subReg x _ | .shr x _ | .subnReg x _ | .shl x _ => [x, vf]
  | .loadRegs x => regsUpTo x
  | .drw _ _ _ => [vf]
  | .cls | .ret | .jp _ | .call _ | .seImm _ _ | .sneImm _ _ | .seReg _ _ | .sneReg _ _ | .ldI _ | .jpV0 _ | .skp _
  | .sknp _ | .ldDtVx _ | .ldStVx _ | .addI _ | .ldF _ | .ldB _ | .storeRegs _ | .nop _ => []

/-- The registers outside a list are the same in two states. -/
def RegsKept (rs : List Reg) (s u : State) : Prop := ∀ r, r ∉ rs → u.reg r = s.reg r

/-- What the execute phase of an instruction makes of the state, before a fault, if any, is recorded: which fields it may
write and what it keeps of them. -/
def Effect (i : Instr) (s u : State) : Prop :=
  match i with
  | .cls => u = s.clearDisplay
  | .ret => u = s ∨ ∃ p, u = (s.setPc p).setSp (s.sp + 2)
  | .call _ => ∃ m p, u = { s with mem := m, sp := s.sp - 2, pc := p } ∧ (s.mem.wf → m.wf)
  | .jp _ | .jpV0 _ | .seImm _ _ | .sneImm _ _ | .seReg _ _ | .sneReg _ _ | .skp _ | .sknp _ => ∃ p, u = s.setPc p
  | .ldImm _ _ | .addImm _ _ | .ldReg _ _ | .orReg _ _ | .andReg _ _ | .xorReg _ _ | .addReg _ _ | .subReg _ _
  | .shr _ _ | .subnReg _ _ | .shl _ _ | .ldVxDt _ | .loadRegs _ =>
    (∃ v, u = { s with v := v }) ∧ RegsKept (destinations i) s u
  | .rnd x _ => ∃ b, u = (s.setReg x b).countDraw
  | .ldI _ | .addI _ | .ldF _ => ∃ w, u = s.setIndex w
  | .ldB _ | .storeRegs _ => ∃ m, u = { s with mem := m } ∧ (s.mem.wf → m.wf)
  | .drw _ _ _ => (∃ v d, u = { s with v := v, display := d }) ∧ RegsKept [vf] s u
  | .ldDtVx _ => ∃ b, u = s.setDt b
  | .ldStVx _ => ∃ b, u = s.setSt b
  | .ldVxK x =>
    s.waitingForKey = false ∧ u = s.enterWaiting.rewind ∨
    s.waitingForKey = true ∧ (u = s.rewind ∨ ∃ k, u = (s.setReg x (keyByte k)).leaveWaiting)
  | .nop _ => u = s

/-- The faults an instruction can take in a state, with their recorded values (R250). -/
def Raises (i : Instr) (s : State) (c : FaultCause) : Prop :=
  match i with
  | .ret | .call _ | .drw _ _ _ | .ldB _ | .storeRegs _ | .loadRegs _ => MemoryCause c
  | .skp x | .sknp x => c = .keyIndexOutOfRange (s.reg x) ∧ 0x0F < (s.reg x).toNat
  | .cls | .jp _ | .seImm _ _ | .sneImm _ _ | .seReg _ _ | .ldImm _ _ | .addImm _ _ | .ldReg _ _ | .orReg _ _
  | .andReg _ _ | .xorReg _ _ | .addReg _ _ | .subReg _ _ | .shr _ _ | .subnReg _ _ | .shl _ _ | .sneReg _ _ | .ldI _
  | .jpV0 _ | .rnd _ _ | .ldVxDt _ | .ldVxK _ | .ldDtVx _ | .ldStVx _ | .addI _ | .ldF _ | .nop _ => False

theorem Raises.isReal {i : Instr} {s : State} {c : FaultCause} (h : Raises i s c) : CauseIsReal c := by
  cases i with
  | ret | call | drw | ldB | storeRegs | loadRegs => exact MemoryCause.isReal h
  | skp | sknp => obtain ⟨rfl, h⟩ := h; exact h
  | _ => exact False.elim h

/-- A key test moves `pc` only. -/
theorem keySkip_ends (s : State) (b : Byte) (f : Bool → Bool) :
    Ends (fun u => ∃ p, u = s.setPc p) (fun c => c = .keyIndexOutOfRange b ∧ 0x0F < b.toNat) (andThen (keyHeld s b) fun h => .done (skipIf (f h) s)) := by
  by_cases e : 15 < b.toNat
  · rw [keyHeld_outside e, andThen_raised]
    exact ⟨⟨s.pc, rfl⟩, rfl, e⟩
  · rw [keyHeld_inside (k := ⟨b.toNat, by omega⟩) rfl, andThen_done]
    show ∃ p, skipIf _ s = s.setPc p
    unfold skipIf
    split
    · exact ⟨_, skip_eq s⟩
    · exact ⟨s.pc, rfl⟩

/-- Inversion of `exec`: the next state is one its instruction's effect allows, or the fault taken in one. -/
theorem exec_cases {i : Instr} {s t : State} (h : exec i s = .next t) :
    ∃ u, Effect i s u ∧ (t = u ∨ ∃ c, Raises i s c ∧ t = raise c u) := by
  have plain : ∀ u, exec i s = .next u → Effect i s u → ∃ u, Effect i s u ∧ (t = u ∨ ∃ c, Raises i s c ∧ t = raise c u) :=
    fun u hu he => ⟨u, he, .inl (by rw [hu] at h; cases h; rfl)⟩
  have tried : ∀ a, exec i s = finish a → Ends (Effect i s) (Raises i s) a →
      ∃ u, Effect i s u ∧ (t = u ∨ ∃ c, Raises i s c ∧ t = raise c u) := fun a ha he => by
    rw [ha] at h
    rcases next_of_finish he h with hp | ⟨c, u, hp, hc, rfl⟩
    · exact ⟨t, hp, .inl rfl⟩
    · exact ⟨u, hp, .inr ⟨c, hc, rfl⟩⟩
  have skipped : ∀ c : Bool, ∃ p, skipIf c s = s.setPc p := fun c => by
    cases c
    · exact ⟨s.pc, rfl⟩
    · exact ⟨_, rfl⟩
  have one : ∀ x b, (∃ v, s.setReg x b = { s with v := v }) ∧ RegsKept [x] s (s.setReg x b) := fun x b =>
    ⟨⟨_, rfl⟩, fun r hr => by rw [setReg_reg, if_neg (by simpa using hr)]⟩
  have flagged : ∀ x b f, (∃ v, s.setResultThenFlag x b f = { s with v := v }) ∧
      RegsKept [x, vf] s (s.setResultThenFlag x b f) := fun x b f =>
    ⟨⟨_, rfl⟩, fun r hr => by
      simp only [List.mem_cons, List.not_mem_nil, or_false, not_or] at hr
      rw [setResultThenFlag_eq, setReg_reg, if_neg hr.2, setReg_reg, if_neg hr.1]⟩
  cases i with
  | cls => exact plain _ rfl rfl
  | ret =>
    refine tried _ rfl ?_
    by_cases e : s.sp.toNat + 1 < 4096
    · rw [memRead2_inside e, andThen_done]; exact .inr ⟨_, rfl⟩
    · rw [memRead2_outside (by omega), andThen_raised]
      refine ⟨.inl rfl, _, rfl, ?_⟩
      split
      · decide
      · omega
  | call nnn =>
    refine tried _ rfl ?_
    have := storeBytes_ends (s.setSp (s.sp - 2)) (s.sp - 2) [highByte s.pc, lowByte s.pc]
    show Ends _ _ (andThen (storeBytes (s.setSp (s.sp - 2)) (s.sp - 2) [highByte s.pc, lowByte s.pc]) _)
    cases hb : storeBytes (s.setSp (s.sp - 2)) (s.sp - 2) [highByte s.pc, lowByte s.pc] with
    | done t =>
      rw [hb] at this
      obtain ⟨m, rfl, hm⟩ := this
      exact ⟨m, _, rfl, hm⟩
    | raised c t =>
      rw [hb] at this
      obtain ⟨⟨m, rfl, hm⟩, hc⟩ := this
      exact ⟨⟨m, _, rfl, hm⟩, hc⟩
  | jp => exact plain _ rfl ⟨_, rfl⟩
  | jpV0 => exact plain _ rfl ⟨_, rfl⟩
  | seImm => exact plain _ rfl (skipped _)
  | sneImm => exact plain _ rfl (skipped _)
  | seReg => exact plain _ rfl (skipped _)
  | sneReg => exact plain _ rfl (skipped _)
  | skp x => exact tried _ rfl (keySkip_ends s _ id)
  | sknp x => exact tried _ rfl (keySkip_ends s _ not)
  | ldImm => exact plain _ rfl (one _ _)
  | addImm => exact plain _ rfl (one _ _)
  | ldReg => exact plain _ rfl (one _ _)
  | orReg => exact plain _ rfl (one _ _)
  | andReg => exact plain _ rfl (one _ _)
  | xorReg => exact plain _ rfl (one _ _)
  | addReg => exact plain _ rfl (flagged _ _ _)
  | subReg => exact plain _ rfl (flagged _ _ _)
  | shr => exact plain _ rfl (flagged _ _ _)
  | subnReg => exact plain _ rfl (flagged _ _ _)
  | shl => exact plain _ rfl (flagged _ _ _)
  | ldVxDt => exact plain _ rfl (one _ _)
  | loadRegs x =>
    exact tried _ rfl ((loadBytes_ends s _ _).mono (fun u ⟨v, hu, hr⟩ => ⟨⟨v, hu⟩, hr⟩) fun _ h => h)
  | rnd => exact plain _ rfl ⟨_, rfl⟩
  | ldI => exact plain _ rfl ⟨_, rfl⟩
  | addI => exact plain _ rfl ⟨_, rfl⟩
  | ldF => exact plain _ rfl ⟨_, rfl⟩
  | ldB x => exact tried _ rfl (storeBytes_ends s _ _)
  | storeRegs x => exact tried _ rfl (storeBytes_ends s _ _)
  | drw x y n =>
    refine tried _ rfl ((drawRows_ends _ _ _ _ _).mono (fun u ⟨hu, hr, _⟩ => ⟨⟨u.v, u.display, hu⟩, fun r h => ?_⟩)
      fun _ h => h)
    have hv : r ≠ vf := by simpa using h
    rw [hr r hv, setFlag_eq, setReg_reg, if_neg hv]
  | ldDtVx => exact plain _ rfl ⟨_, rfl⟩
  | ldStVx => exact plain _ rfl ⟨_, rfl⟩
  | ldVxK x =>
    refine plain _ rfl ?_
    by_cases hw : s.waitingForKey = true
    · rw [if_pos hw]
      refine .inr ⟨hw, ?_⟩
      unfold pollKey
      split
      · exact .inr ⟨_, rfl⟩
      · exact .inl rfl
    · rw [if_neg hw]
      exact .inl ⟨by simpa using hw, rfl⟩
  | nop => exact plain _ rfl rfl

/-- An instruction writes no general register but its destinations. -/
theorem exec_regs_kept {i : Instr} {s t : State} (h : exec i s = .next t) : RegsKept (destinations i) s t := by
  obtain ⟨u, hu, ht⟩ := exec_cases h
  have hr : RegsKept (destinations i) s u := by
    cases i with
    | ldImm | addImm | ldReg | orReg | andReg | xorReg | addReg | subReg | shr | subnReg | shl | ldVxDt | loadRegs
    | drw => exact hu.2
    | rnd x nn =>
      obtain ⟨b, rfl⟩ := hu
      exact fun r hr => (setReg_reg s x r b).trans (if_neg (by simpa [destinations] using hr))
    | ldVxK x =>
      rcases hu with ⟨-, rfl⟩ | ⟨-, rfl | ⟨k, rfl⟩⟩
      · exact fun _ _ => rfl
      · exact fun _ _ => rfl
      · exact fun r hr => (setReg_reg s x r _).trans (if_neg (by simpa [destinations] using hr))
    | cls | nop => cases hu; exact fun _ _ => rfl
    | ret => rcases hu with rfl | ⟨p, rfl⟩ <;> exact fun _ _ => rfl
    | call => obtain ⟨m, p, rfl, -⟩ := hu; exact fun _ _ => rfl
    | ldB | storeRegs => obtain ⟨m, rfl, -⟩ := hu; exact fun _ _ => rfl
    | _ => obtain ⟨p, rfl⟩ := hu; exact fun _ _ => rfl
  rcases ht with rfl | ⟨c, -, rfl⟩
  · exact hr
  · exact hr

/-- Every instruction answers a next state: none stops the machine by a fault or a refusal outcome (R126). -/
theorem exec_answers_next (i : Instr) (s : State) : ∃ t, exec i s = .next t := by
  cases i <;> first | exact ⟨_, rfl⟩ | exact finish_next _

end Sys2Proof.Machine
end

