-- ==== Sys2Proof/Laws/Frame.lean ====
section
/-! SUPPORT. Laws/Frame.lean: which parts a frame names, and how frames are shown and composed. -/

namespace Sys2Proof.Machine

@[simp] theorem mem_cellsFrom (p : Part) (a n : Nat) : p ∈ cellsFrom a n ↔ ∃ b, p = .cell b ∧ a ≤ b ∧ b < a + n := by
  simp only [cellsFrom, List.mem_map, List.mem_range]
  constructor
  · rintro ⟨i, h, rfl⟩
    exact ⟨a + i, rfl, by omega, by omega⟩
  · rintro ⟨b, rfl, h⟩
    exact ⟨b - a, by omega, by congr 1; omega⟩

@[simp] theorem mem_allRows (p : Part) : p ∈ allRows ↔ ∃ r, p = .row r := by
  simp [allRows, eq_comm]

/-- A frame may name more than it needs. -/
theorem SameBut.mono {ps qs : List Part} {s t : State} (h : SameBut ps s t) (hs : ∀ p ∈ ps, p ∈ qs) :
    SameBut qs s t := by
  have n : ∀ {p}, p ∉ qs → p ∉ ps := fun hp h' => hp (hs _ h')
  obtain ⟨⟨h1, h2, h3, h4⟩, ⟨c1, c2, c3, c4, c5, c6, c7, c8, c9, c10, c11, c12, c13⟩, ⟨e1, e2, e3, e4, e5, e6, e7⟩⟩ := h
  exact ⟨⟨fun r p => h1 r (n p), fun a p => h2 a (n p), fun r p => h3 r (n p), fun k p => h4 k (n p)⟩,
    ⟨fun p => c1 (n p), fun p => c2 (n p), fun p => c3 (n p), fun p => c4 (n p), fun p => c5 (n p), fun p => c6 (n p),
      fun p => c7 (n p), fun p => c8 (n p), fun p => c9 (n p), fun p => c10 (n p), fun p => c11 (n p),
      fun p => c12 (n p), fun p => c13 (n p)⟩,
    ⟨fun p => e1 (n p), fun p => e2 (n p), fun p => e3 (n p), fun p => e4 (n p), fun p => e5 (n p),
      fun p => e6 (n p), fun p => e7 (n p)⟩⟩

theorem SameBut.trans {ps : List Part} {s t u : State} (h : SameBut ps s t) (h' : SameBut ps t u) : SameBut ps s u := by
  obtain ⟨⟨h1, h2, h3, h4⟩, ⟨c1, c2, c3, c4, c5, c6, c7, c8, c9, c10, c11, c12, c13⟩, ⟨e1, e2, e3, e4, e5, e6, e7⟩⟩ := h
  obtain ⟨⟨k1, k2, k3, k4⟩, ⟨d1, d2, d3, d4, d5, d6, d7, d8, d9, d10, d11, d12, d13⟩, ⟨f1, f2, f3, f4, f5, f6, f7⟩⟩ := h'
  exact ⟨⟨fun r p => (k1 r p).trans (h1 r p), fun a p => (k2 a p).trans (h2 a p), fun r p => (k3 r p).trans (h3 r p),
      fun k p => (k4 k p).trans (h4 k p)⟩,
    ⟨fun p => (d1 p).trans (c1 p), fun p => (d2 p).trans (c2 p), fun p => (d3 p).trans (c3 p),
      fun p => (d4 p).trans (c4 p), fun p => (d5 p).trans (c5 p), fun p => (d6 p).trans (c6 p),
      fun p => (d7 p).trans (c7 p), fun p => (d8 p).trans (c8 p), fun p => (d9 p).trans (c9 p),
      fun p => (d10 p).trans (c10 p), fun p => (d11 p).trans (c11 p), fun p => (d12 p).trans (c12 p),
      fun p => (d13 p).trans (c13 p)⟩,
    ⟨fun p => (f1 p).trans (e1 p), fun p => (f2 p).trans (e2 p), fun p => (f3 p).trans (e3 p),
      fun p => (f4 p).trans (e4 p), fun p => (f5 p).trans (e5 p), fun p => (f6 p).trans (e6 p),
      fun p => (f7 p).trans (e7 p)⟩⟩

end Sys2Proof.Machine
end

