-- ==== Sys2Proof/Laws/PerInstr.lean ====
section
/-! SUPPORT. Laws/PerInstr.lean: statements about every instruction as syntax, one lemma per constructor. The family
MatchesRow: the encoded word of an instruction is accepted by its own row of the opcode map (spec/30_encoding.md R95), and that
of the no-op by none (R96). -/

namespace Sys2Proof.Laws.MatchesRow

/-- The word of a well-formed instruction is accepted by the row of its rule, or, for the no-op, by no row. -/
def Statement (i : Instr) : Prop :=
  i.wf = true →
    (∃ r ∈ opcodeMap, r.rule = i.rule ∧ r.accepts (encode i) = true) ∨ (i.rule = 122 ∧ recognized (encode i) = false)

theorem cls : Statement .cls :=
  fun _ => .inl ⟨⟨210, 0xFFFF, 0x00E0⟩, by decide, rfl, by decide⟩

theorem ret : Statement .ret :=
  fun _ => .inl ⟨⟨141, 0xFFFF, 0x00EE⟩, by decide, rfl, by decide⟩

theorem jp (nnn : BitVec 12) : Statement (.jp nnn) :=
  fun _ => .inl ⟨⟨140, 0xF000, 0x1000⟩, by decide, rfl, (accepts_F000 _ _ _).2 (by
    have := nnn.isLt; rw [encode, wordNnn_toNat]; simp; omega)⟩

theorem call (nnn : BitVec 12) : Statement (.call nnn) :=
  fun _ => .inl ⟨⟨142, 0xF000, 0x2000⟩, by decide, rfl, (accepts_F000 _ _ _).2 (by
    have := nnn.isLt; rw [encode, wordNnn_toNat]; simp; omega)⟩

theorem seImm (x : Reg) (nn : Byte) : Statement (.seImm x nn) :=
  fun _ => .inl ⟨⟨145, 0xF000, 0x3000⟩, by decide, rfl, (accepts_F000 _ _ _).2 (by
    have := nn.isLt; rw [encode, wordXNn_toNat]; simp; omega)⟩

theorem sneImm (x : Reg) (nn : Byte) : Statement (.sneImm x nn) :=
  fun _ => .inl ⟨⟨146, 0xF000, 0x4000⟩, by decide, rfl, (accepts_F000 _ _ _).2 (by
    have := nn.isLt; rw [encode, wordXNn_toNat]; simp; omega)⟩

theorem seReg (x y : Reg) : Statement (.seReg x y) :=
  fun _ => .inl ⟨⟨147, 0xF00F, 0x5000⟩, by decide, rfl, (accepts_F00F _ _ _).2 (by
    rw [encode, wordOfNibbles_toNat]; simp; omega)⟩

theorem ldImm (x : Reg) (nn : Byte) : Statement (.ldImm x nn) :=
  fun _ => .inl ⟨⟨161, 0xF000, 0x6000⟩, by decide, rfl, (accepts_F000 _ _ _).2 (by
    have := nn.isLt; rw [encode, wordXNn_toNat]; simp; omega)⟩

theorem addImm (x : Reg) (nn : Byte) : Statement (.addImm x nn) :=
  fun _ => .inl ⟨⟨162, 0xF000, 0x7000⟩, by decide, rfl, (accepts_F000 _ _ _).2 (by
    have := nn.isLt; rw [encode, wordXNn_toNat]; simp; omega)⟩

theorem ldReg (x y : Reg) : Statement (.ldReg x y) :=
  fun _ => .inl ⟨⟨163, 0xF00F, 0x8000⟩, by decide, rfl, (accepts_F00F _ _ _).2 (by
    rw [encode, wordOfNibbles_toNat]; simp; omega)⟩

theorem orReg (x y : Reg) : Statement (.orReg x y) :=
  fun _ => .inl ⟨⟨164, 0xF00F, 0x8001⟩, by decide, rfl, (accepts_F00F _ _ _).2 (by
    rw [encode, wordOfNibbles_toNat]; simp; omega)⟩

theorem andReg (x y : Reg) : Statement (.andReg x y) :=
  fun _ => .inl ⟨⟨165, 0xF00F, 0x8002⟩, by decide, rfl, (accepts_F00F _ _ _).2 (by
    rw [encode, wordOfNibbles_toNat]; simp; omega)⟩

theorem xorReg (x y : Reg) : Statement (.xorReg x y) :=
  fun _ => .inl ⟨⟨166, 0xF00F, 0x8003⟩, by decide, rfl, (accepts_F00F _ _ _).2 (by
    rw [encode, wordOfNibbles_toNat]; simp; omega)⟩

theorem addReg (x y : Reg) : Statement (.addReg x y) :=
  fun _ => .inl ⟨⟨167, 0xF00F, 0x8004⟩, by decide, rfl, (accepts_F00F _ _ _).2 (by
    rw [encode, wordOfNibbles_toNat]; simp; omega)⟩

theorem subReg (x y : Reg) : Statement (.subReg x y) :=
  fun _ => .inl ⟨⟨168, 0xF00F, 0x8005⟩, by decide, rfl, (accepts_F00F _ _ _).2 (by
    rw [encode, wordOfNibbles_toNat]; simp; omega)⟩

theorem shr (x y : Reg) : Statement (.shr x y) :=
  fun _ => .inl ⟨⟨169, 0xF00F, 0x8006⟩, by decide, rfl, (accepts_F00F _ _ _).2 (by
    rw [encode, wordOfNibbles_toNat]; simp; omega)⟩

theorem subnReg (x y : Reg) : Statement (.subnReg x y) :=
  fun _ => .inl ⟨⟨170, 0xF00F, 0x8007⟩, by decide, rfl, (accepts_F00F _ _ _).2 (by
    rw [encode, wordOfNibbles_toNat]; simp; omega)⟩

theorem shl (x y : Reg) : Statement (.shl x y) :=
  fun _ => .inl ⟨⟨171, 0xF00F, 0x800E⟩, by decide, rfl, (accepts_F00F _ _ _).2 (by
    rw [encode, wordOfNibbles_toNat]; simp; omega)⟩

theorem sneReg (x y : Reg) : Statement (.sneReg x y) :=
  fun _ => .inl ⟨⟨148, 0xF00F, 0x9000⟩, by decide, rfl, (accepts_F00F _ _ _).2 (by
    rw [encode, wordOfNibbles_toNat]; simp; omega)⟩

theorem ldI (nnn : BitVec 12) : Statement (.ldI nnn) :=
  fun _ => .inl ⟨⟨190, 0xF000, 0xA000⟩, by decide, rfl, (accepts_F000 _ _ _).2 (by
    have := nnn.isLt; rw [encode, wordNnn_toNat]; simp; omega)⟩

theorem jpV0 (nnn : BitVec 12) : Statement (.jpV0 nnn) :=
  fun _ => .inl ⟨⟨143, 0xF000, 0xB000⟩, by decide, rfl, (accepts_F000 _ _ _).2 (by
    have := nnn.isLt; rw [encode, wordNnn_toNat]; simp; omega)⟩

theorem rnd (x : Reg) (nn : Byte) : Statement (.rnd x nn) :=
  fun _ => .inl ⟨⟨172, 0xF000, 0xC000⟩, by decide, rfl, (accepts_F000 _ _ _).2 (by
    have := nn.isLt; rw [encode, wordXNn_toNat]; simp; omega)⟩

theorem drw (x y : Reg) (n : Fin 16) : Statement (.drw x y n) :=
  fun _ => .inl ⟨⟨212, 0xF000, 0xD000⟩, by decide, rfl, (accepts_F000 _ _ _).2 (by
    rw [encode, wordOfNibbles_toNat]; simp; omega)⟩

theorem skp (x : Reg) : Statement (.skp x) :=
  fun _ => .inl ⟨⟨231, 0xF0FF, 0xE09E⟩, by decide, rfl, (accepts_F0FF _ _ _).2 (by
    rw [encode, wordXNn_toNat]; simp; omega)⟩

theorem sknp (x : Reg) : Statement (.sknp x) :=
  fun _ => .inl ⟨⟨232, 0xF0FF, 0xE0A1⟩, by decide, rfl, (accepts_F0FF _ _ _).2 (by
    rw [encode, wordXNn_toNat]; simp; omega)⟩

theorem ldVxDt (x : Reg) : Statement (.ldVxDt x) :=
  fun _ => .inl ⟨⟨234, 0xF0FF, 0xF007⟩, by decide, rfl, (accepts_F0FF _ _ _).2 (by
    rw [encode, wordXNn_toNat]; simp; omega)⟩

theorem ldVxK (x : Reg) : Statement (.ldVxK x) :=
  fun _ => .inl ⟨⟨233, 0xF0FF, 0xF00A⟩, by decide, rfl, (accepts_F0FF _ _ _).2 (by
    rw [encode, wordXNn_toNat]; simp; omega)⟩

theorem ldDtVx (x : Reg) : Statement (.ldDtVx x) :=
  fun _ => .inl ⟨⟨235, 0xF0FF, 0xF015⟩, by decide, rfl, (accepts_F0FF _ _ _).2 (by
    rw [encode, wordXNn_toNat]; simp; omega)⟩

theorem ldStVx (x : Reg) : Statement (.ldStVx x) :=
  fun _ => .inl ⟨⟨236, 0xF0FF, 0xF018⟩, by decide, rfl, (accepts_F0FF _ _ _).2 (by
    rw [encode, wordXNn_toNat]; simp; omega)⟩

theorem addI (x : Reg) : Statement (.addI x) :=
  fun _ => .inl ⟨⟨191, 0xF0FF, 0xF01E⟩, by decide, rfl, (accepts_F0FF _ _ _).2 (by
    rw [encode, wordXNn_toNat]; simp; omega)⟩

theorem ldF (x : Reg) : Statement (.ldF x) :=
  fun _ => .inl ⟨⟨192, 0xF0FF, 0xF029⟩, by decide, rfl, (accepts_F0FF _ _ _).2 (by
    rw [encode, wordXNn_toNat]; simp; omega)⟩

theorem ldB (x : Reg) : Statement (.ldB x) :=
  fun _ => .inl ⟨⟨194, 0xF0FF, 0xF033⟩, by decide, rfl, (accepts_F0FF _ _ _).2 (by
    rw [encode, wordXNn_toNat]; simp; omega)⟩

theorem storeRegs (x : Reg) : Statement (.storeRegs x) :=
  fun _ => .inl ⟨⟨195, 0xF0FF, 0xF055⟩, by decide, rfl, (accepts_F0FF _ _ _).2 (by
    rw [encode, wordXNn_toNat]; simp; omega)⟩

theorem loadRegs (x : Reg) : Statement (.loadRegs x) :=
  fun _ => .inl ⟨⟨196, 0xF0FF, 0xF065⟩, by decide, rfl, (accepts_F0FF _ _ _).2 (by
    rw [encode, wordXNn_toNat]; simp; omega)⟩

theorem nop (w : Word) : Statement (.nop w) :=
  fun h => .inr ⟨rfl, by simpa [Instr.wf, encode] using h⟩

end Sys2Proof.Laws.MatchesRow
end

