-- ==== Sys2Proof/Laws/Step.lean ====
section
/-! SUPPORT. Laws/Step.lean: what one step can do, said once: by the kind of the step, and for an instruction tick by what the
gate and the fetch allow. -/

namespace Sys2Proof.Machine

/-! ## Devices -/

theorem countDown_toNat (b : Byte) : (countDown b).toNat = b.toNat - 1 := by
  have hb := b.isLt
  unfold countDown
  by_cases h : b = 0
  · subst h; rfl
  · have h0 : b.toNat ≠ 0 := fun e => h (BitVec.eq_of_toNat_eq e)
    rw [if_neg h, BitVec.toNat_sub]
    show (256 - 1 + b.toNat) % 256 = _
    omega

theorem toneLatch_eq (on : Bool) (st : Byte) : toneLatch on st = decide (st ≠ 0) := by
  unfold toneLatch
  by_cases h : st = 0#8 <;> cases on <;> simp [h]

theorem toneCommand_eq (on : Bool) (st : Byte) :
    toneCommand on st = if on = decide (st ≠ 0) then [] else if st ≠ 0 then [.toneStart] else [.toneStop] := by
  unfold toneCommand
  by_cases h : st = 0#8 <;> cases on <;> simp [h]

theorem unlessFaulted_none {f : State → State} {s : State} (h : s.faulted = none) : unlessFaulted f s = f s := by
  unfold unlessFaulted; rw [h]

theorem unlessFaulted_some {f : State → State} {s : State} (h : s.faulted ≠ none) : unlessFaulted f s = s := by
  unfold unlessFaulted; split
  · contradiction
  · rfl

theorem shutdown_running {s : State} (h : s.faulted = none) : shutdown s = s.discard.endRun :=
  congrArg State.endRun (unlessFaulted_none h)

theorem shutdown_faulted {s : State} (h : s.faulted ≠ none) : shutdown s = s.endRun :=
  congrArg State.endRun (unlessFaulted_some h)

/-! ## The gate and the tick -/

theorem gate_open {m a : Bool} (h : m = false ∨ a = true) : gate m a = (true, false) := by
  revert m a; decide

theorem gate_closed {m a : Bool} (h : ¬ (m = false ∨ a = true)) : gate m a = (false, false) := by
  revert m a; decide

theorem instrTick_faulted {s : State} (h : s.faulted ≠ none) : instrTick s = .next s := by
  unfold instrTick; split
  · rfl
  · contradiction

theorem instrTick_closed {s : State} (h : s.faulted = none) (hg : ¬ s.gateOpen) : instrTick s = .next s := by
  have ha : s.advance = false := by
    cases e : s.advance
    · rfl
    · exact absurd (.inr e) hg
  unfold instrTick
  rw [h]
  simp only [gate_closed hg]
  rw [← ha, setAdvance_self]

theorem instrTick_open {s : State} (h : s.faulted = none) (hg : s.gateOpen) :
    instrTick s = fetchExecute (s.setAdvance false) := by
  unfold instrTick
  rw [h]
  simp only [gate_open hg]

theorem fetchExecute_inside {s : State} (h : s.pc.toNat + 1 < 4096) :
    fetchExecute s = exec s.instructionAtPc (advancePast (s.wordAt s.pc.toNat) s) := by
  unfold fetchExecute fetch
  rw [memRead2_inside h]
  rfl

theorem fetchExecute_outside {s : State} (h : 4095 ≤ s.pc.toNat) :
    fetchExecute s = .next (raise (.memoryOutOfRange (if s.pc.toNat = 4095 then 0x1000 else s.pc)) s) := by
  unfold fetchExecute fetch
  rw [memRead2_outside h]
  rfl

/-! ## The step -/

theorem step_shutDown {s : State} (h : s.shutDown = true) : step s = .fault .shutDown := by
  unfold step scheduledStep; rw [if_pos h]

theorem step_running {s : State} (h : s.shutDown = false) : step s = perform (nextKind s) (popSchedule s) := by
  unfold step scheduledStep; rw [if_neg (by simp [h])]

theorem step_runs {s : State} (h : s.runsInstruction) : step s = exec s.instructionAtPc s.beforeExecute := by
  obtain ⟨⟨hf, hs⟩, hk, hg, hp⟩ := h
  rw [step_running hs, hk]
  exact (instrTick_open (s := popSchedule s) hf hg).trans (fetchExecute_inside hp)

theorem step_fetch_faults {s : State} (h : s.safe) (hk : nextKind s = .instrTick) (hg : s.gateOpen)
    (hp : 4095 ≤ s.pc.toNat) :
    step s = .next (raise (.memoryOutOfRange (if s.pc.toNat = 4095 then 0x1000 else s.pc))
      ((popSchedule s).setAdvance false)) := by
  rw [step_running h.2, hk]
  exact (instrTick_open (s := popSchedule s) h.1 hg).trans (fetchExecute_outside hp)

theorem step_gated {s : State} (h : s.safe) (hk : nextKind s = .instrTick) (hg : ¬ s.gateOpen) :
    step s = .next (popSchedule s) := by
  rw [step_running h.2, hk]
  exact instrTick_closed (s := popSchedule s) h.1 hg

/-- While faulted a step of any kind changes nothing but the schedule and, for `Shutdown`, its flag (R38, R251). -/
theorem step_faulted {s : State} (h : s.faulted ≠ none) (hs : s.shutDown = false) :
    step s = .next (if nextKind s = .shutdown then (popSchedule s).endRun else popSchedule s) := by
  have hp : (popSchedule s).faulted ≠ none := h
  rw [step_running hs]
  cases hk : nextKind s with
  | instrTick => rw [if_neg (by simp)]; exact instrTick_faulted hp
  | timerTick => rw [if_neg (by simp)]; exact congrArg _ (unlessFaulted_some hp)
  | keyDown k => rw [if_neg (by simp)]; exact congrArg _ (unlessFaulted_some hp)
  | keyUp k => rw [if_neg (by simp)]; exact congrArg _ (unlessFaulted_some hp)
  | debugSet f b => rw [if_neg (by simp)]; exact congrArg _ (unlessFaulted_some hp)
  | shutdown => rw [if_pos rfl]; exact congrArg _ (shutdown_faulted hp)

/-- What a step other than an instruction tick does when no fault stands. -/
def deviceStep (k : StepKind) (s : State) : State :=
  match k with
  | .instrTick    => s
  | .timerTick    => s.tickTimers.signal
  | .keyDown k    => s.setHeld k true
  | .keyUp k      => s.setHeld k false
  | .debugSet f b => s.setDebug f b
  | .shutdown     => s.discard.endRun

theorem step_device {s : State} (h : s.safe) (hk : nextKind s ≠ .instrTick) :
    step s = .next (deviceStep (nextKind s) (popSchedule s)) := by
  have hp : (popSchedule s).faulted = none := h.1
  rw [step_running h.2]
  cases hk' : nextKind s with
  | instrTick => exact absurd hk' hk
  | timerTick => exact congrArg _ (unlessFaulted_none hp)
  | keyDown k => exact congrArg _ (unlessFaulted_none hp)
  | keyUp k => exact congrArg _ (unlessFaulted_none hp)
  | debugSet f b => exact congrArg _ (unlessFaulted_none hp)
  | shutdown => exact congrArg _ (shutdown_running hp)

/-- Inversion of `step`: every way it can answer a next state. -/
theorem step_cases {s t : State} (h : step s = .next t) :
    s.shutDown = false ∧
    (t = popSchedule s ∨ (s.faulted ≠ none ∧ nextKind s = .shutdown ∧ t = (popSchedule s).endRun) ∨
      (nextKind s = .instrTick ∧
        ∃ a, 0x0FFF < a.toNat ∧ t = raise (.memoryOutOfRange a) ((popSchedule s).setAdvance false)) ∨
      (s.runsInstruction ∧ exec s.instructionAtPc s.beforeExecute = .next t) ∨
      (s.safe ∧ nextKind s ≠ .instrTick ∧ t = deviceStep (nextKind s) (popSchedule s))) := by
  have hs : s.shutDown = false := by
    cases e : s.shutDown
    · rfl
    · rw [step_shutDown e] at h; cases h
  refine ⟨hs, ?_⟩
  by_cases hf : s.faulted = none
  · by_cases hk : nextKind s = .instrTick
    · by_cases hg : s.gateOpen
      · by_cases hp : s.pc.toNat + 1 < 4096
        · have hr : s.runsInstruction := ⟨⟨hf, hs⟩, hk, hg, hp⟩
          exact .inr (.inr (.inr (.inl ⟨hr, (step_runs hr).symm.trans h⟩)))
        · rw [step_fetch_faults ⟨hf, hs⟩ hk hg (by omega)] at h
          cases h
          refine .inr (.inr (.inl ⟨hk, _, ?_, rfl⟩))
          split
          · decide
          · omega
      · rw [step_gated ⟨hf, hs⟩ hk hg] at h
        cases h; exact .inl rfl
    · rw [step_device ⟨hf, hs⟩ hk] at h
      cases h; exact .inr (.inr (.inr (.inr ⟨⟨hf, hs⟩, hk, rfl⟩)))
  · rw [step_faulted hf hs] at h
    cases h
    split
    · exact .inr (.inl ⟨hf, ‹_›, rfl⟩)
    · exact .inl rfl

/-! ## Runs -/

theorem run_zero (s : State) : core.run 0 s = .next s := rfl

/-- A run goes on from the next state. -/
theorem run_succ {s t : State} (h : step s = .next t) (n : Nat) : core.run (n + 1) s = core.run n t := by
  have h : core.step s = .next t := h
  simp only [Host.Core.run, h]

/-- A run ends where a step does. -/
theorem run_fault {s : State} {r : Fault} (h : step s = .fault r) (n : Nat) : core.run (n + 1) s = .fault r := by
  have h : core.step s = .fault r := h
  simp only [Host.Core.run, h]

end Sys2Proof.Machine
end

