-- ==== Sys2Proof/Tests/Slice0.lean ====
section
/-! SUPPORT. Tests/Slice0.lean: the model's own small tests. Expected values are those of spec/95_test_vectors.md (S1 to S8,
T1 to T7), of the worked examples of the instruction rules, and words written out from spec/30_encoding.md R95. -/

namespace Sys2Proof.Tests

open Sys2Proof.Machine

/-! ## Helpers -/

/-- Read something off the state a step ends in. -/
def seen {α : Type} (f : State → α) : Host.Outcome State Fault Refusal → Option α
  | .next t    => some (f t)
  | .fault _   => none
  | .refused _ => none

/-- One step that runs the word `w` at 0x200, from the reset state changed by `f`. -/
def run (w : Nat) (f : State → State := id) : Host.Outcome State Fault Refusal :=
  step ((f State.reset).withFetchWord 16 w)

/-! ## Decoding: every constructor's word, bit by bit from the patterns of R95 -/

theorem test_decode_system :
    decodeWord 0b0000000011100000 = .cls ∧ decodeWord 0b0000000011101110 = .ret := by decide

theorem test_decode_address :
    decodeWord 0b0001101010111100 = .jp 0xABC ∧ decodeWord 0b0010001010100000 = .call 0x2A0 ∧
    decodeWord 0b1010001011110000 = .ldI 0x2F0 ∧ decodeWord 0b1011111111111111 = .jpV0 0xFFF := by decide

theorem test_decode_register_immediate :
    decodeWord 0b0011001100010000 = .seImm 3 0x10 ∧ decodeWord 0b0100101000010000 = .sneImm 0xA 0x10 ∧
    decodeWord 0b0110101000101111 = .ldImm 0xA 0x2F ∧ decodeWord 0b0111000100000101 = .addImm 1 0x05 ∧
    decodeWord 0b1100000100001111 = .rnd 1 0x0F := by decide

theorem test_decode_register_register :
    decodeWord 0b0101000100100000 = .seReg 1 2 ∧ decodeWord 0b1001000100100000 = .sneReg 1 2 ∧
    decodeWord 0b1000000100100000 = .ldReg 1 2 ∧ decodeWord 0b1000000100100001 = .orReg 1 2 ∧
    decodeWord 0b1000000100100010 = .andReg 1 2 ∧ decodeWord 0b1000000100100011 = .xorReg 1 2 := by decide

theorem test_decode_arithmetic :
    decodeWord 0b1000000100100100 = .addReg 1 2 ∧ decodeWord 0b1000000100100101 = .subReg 1 2 ∧
    decodeWord 0b1000000100100110 = .shr 1 2 ∧ decodeWord 0b1000000100100111 = .subnReg 1 2 ∧
    decodeWord 0b1000000100101110 = .shl 1 2 ∧ decodeWord 0b1101000000010101 = .drw 0 1 5 := by decide

theorem test_decode_keys_and_timers :
    decodeWord 0b1110001010011110 = .skp 2 ∧ decodeWord 0b1110001010100001 = .sknp 2 ∧
    decodeWord 0b1111010100000111 = .ldVxDt 5 ∧ decodeWord 0b1111010100001010 = .ldVxK 5 ∧
    decodeWord 0b1111010100010101 = .ldDtVx 5 ∧ decodeWord 0b1111010100011000 = .ldStVx 5 := by decide

theorem test_decode_index :
    decodeWord 0b1111001000011110 = .addI 2 ∧ decodeWord 0b1111001100101001 = .ldF 3 ∧
    decodeWord 0b1111010000110011 = .ldB 4 ∧ decodeWord 0b1111001001010101 = .storeRegs 2 ∧
    decodeWord 0b1111000101100101 = .loadRegs 1 := by decide

/-- T6: decode edges. -/
theorem test_decode_unrecognized :
    (([0x0000, 0xFFFF, 0x01E0, 0x00E1, 0x5121, 0x8128, 0x9121, 0xE19F, 0xF100, 0xF134] : List Word).all
      fun w => decide (decodeWord w = .nop w)) = true := by decide

theorem test_decode_bytes_big_endian : decode [0x81, 0x24, 0x77] = .ok (.addReg 1 2, [0x77]) := by decide

theorem test_decode_truncated : decode [0x81] = .error .truncated := by decide

theorem test_decodeTableWord : decodeTableWord 16 0xD015 = some (.drw 0 1 5) := by decide

theorem test_encode_bytes : encodeBytes (.seImm 3 0x10) = [0x33, 0x10] := by decide

/-! ## WellFormed -/

theorem test_wf_refuses_nop_of_a_recognized_word :
    (Instr.nop 0x00E0).wf = false ∧ (Instr.nop 0xF065).wf = false := by decide

theorem test_wf_accepts_nop_of_an_unrecognized_word : (Instr.nop 0x5AB1).wf = true := by decide

/-! ## The tick -/

/-- R122's example. -/
theorem test_nop_advances :
    seen (fun t => (t.pc, t.currentOpcode)) (run 0x5AB1) = some (0x0202, 0x5AB1) := by decide

theorem test_fetch_at_odd_pc :
    seen (fun t => (t.pc, t.reg 0)) (run 0x6042 (·.setPc 0x0203)) = some (0x0205, 0x42) := by decide

/-- T7, first row: the fetch at 0xFFF. -/
theorem test_fetch_past_the_end :
    seen (fun t => (t.pc, t.currentOpcode, t.faulted))
      (step ((State.reset.setPc 0x0FFF).setOpcode 0x1FFF)) =
    some (0x0FFF, 0x1FFF, some ⟨.memoryOutOfRange 0x1000, 0x1FFF⟩) := by decide

theorem test_gate_closed :
    step (State.reset.setStepMode true) = .next (State.reset.setStepMode true) := by rfl

/-- S8: one `advance` lets one tick through and is cleared. -/
theorem test_gate_advance :
    seen (fun t => (t.pc, t.reg 0, t.advance))
      (run 0x6001 (fun s => (s.setStepMode true).setAdvance true)) = some (0x0202, 0x01, false) := by decide

theorem test_faulted_tick_changes_nothing :
    step (raise (.keyIndexOutOfRange 0x10) State.reset) = .next (raise (.keyIndexOutOfRange 0x10) State.reset) := by
  rfl

/-! ## Control flow (T1) -/

theorem test_jp : seen (·.pc) (run 0x1ABC) = some 0x0ABC := by decide

theorem test_call :
    seen (fun t => (t.sp, t.byteAt 0x1FE, t.byteAt 0x1FF, t.pc)) (run 0x2300) =
    some (0x01FE, 0x02, 0x02, 0x0300) := by decide

/-- T7: the push faults after `sp` has changed. -/
theorem test_call_overflow :
    seen (fun t => (t.sp, t.pc, t.faulted)) (run 0x2300 (·.setSp 0)) =
    some (0xFFFE, 0x0202, some ⟨.memoryOutOfRange 0xFFFE, 0x2300⟩) := by decide

/-- An odd `sp` at the edge: the first byte of the push lands, the second faults. -/
theorem test_call_half_push :
    seen (fun t => (t.byteAt 0xFFF, t.faulted.map (·.cause))) (run 0x2300 (·.setSp 0x1001)) =
    some (0x02, some (.memoryOutOfRange 0x1000)) := by decide

theorem test_ret_of_an_empty_stack :
    seen (fun t => (t.pc, t.sp)) (run 0x00EE) = some (0x00EE, 0x0202) := by decide

theorem test_ret_fault :
    seen (fun t => (t.pc, t.sp, t.faulted.map (·.cause))) (run 0x00EE (·.setSp 0x0FFF)) =
    some (0x0202, 0x0FFF, some (.memoryOutOfRange 0x1000)) := by decide

theorem test_jpV0 : seen (·.pc) (run 0xBFFF (·.setReg 0 0xFF)) = some 0x10FE := by decide

theorem test_seImm :
    seen (·.pc) (run 0x3A10 (·.setReg 0xA 0x10)) = some 0x0204 ∧
    seen (·.pc) (run 0x3A10 (·.setReg 0xA 0x11)) = some 0x0202 := by decide

theorem test_sneImm :
    seen (·.pc) (run 0x4A10 (·.setReg 0xA 0x10)) = some 0x0202 ∧
    seen (·.pc) (run 0x4A10 (·.setReg 0xA 0x11)) = some 0x0204 := by decide

theorem test_seReg :
    seen (·.pc) (run 0x5120 (fun s => (s.setReg 1 7).setReg 2 7)) = some 0x0204 ∧
    seen (·.pc) (run 0x5120 (fun s => (s.setReg 1 7).setReg 2 8)) = some 0x0202 := by decide

theorem test_sneReg :
    seen (·.pc) (run 0x9120 (fun s => (s.setReg 1 7).setReg 2 7)) = some 0x0202 ∧
    seen (·.pc) (run 0x9120 (fun s => (s.setReg 1 7).setReg 2 8)) = some 0x0204 := by decide

/-! ## ALU (T2); VF starts at 0xAA -/

/-- V1, V2 and VF = 0xAA before the word. -/
def alu (w : Nat) (a b : Byte) : Option (Byte × Byte × Byte) :=
  seen (fun t => (t.reg 1, t.reg 2, t.reg vf)) (run w (fun s => ((s.setReg vf 0xAA).setReg 1 a).setReg 2 b))

theorem test_ldImm : seen (·.reg 0xA) (run 0x6A42) = some 0x42 := by decide
theorem test_addImm : alu 0x7101 0xFF 0 = some (0x00, 0x00, 0xAA) := by decide
theorem test_addImm_vf : seen (·.reg vf) (run 0x7F01 (·.setReg vf 0xFF)) = some 0x00 := by decide
theorem test_ldReg : alu 0x8120 0x01 0x99 = some (0x99, 0x99, 0xAA) := by decide
theorem test_orReg : alu 0x8121 0x0F 0xF0 = some (0xFF, 0xF0, 0xAA) := by decide
theorem test_andReg : alu 0x8122 0x3C 0x0F = some (0x0C, 0x0F, 0xAA) := by decide
theorem test_xorReg : alu 0x8123 0xFF 0x0F = some (0xF0, 0x0F, 0xAA) := by decide
theorem test_addReg : alu 0x8124 0xFF 0x01 = some (0x00, 0x01, 0x01) := by decide
theorem test_addReg_vf_keeps_the_flag :
    seen (·.reg vf) (run 0x8F24 (fun s => (s.setReg vf 0xF0).setReg 2 0x20)) = some 0x01 := by decide
theorem test_subReg : alu 0x8125 0x03 0x05 = some (0xFE, 0x05, 0x00) := by decide
theorem test_subReg_equal : alu 0x8125 0x07 0x07 = some (0x00, 0x07, 0x01) := by decide
theorem test_shr : alu 0x8126 0x05 0x99 = some (0x02, 0x99, 0x01) := by decide
theorem test_subnReg : alu 0x8127 0x03 0x05 = some (0x02, 0x05, 0x01) := by decide
theorem test_subnReg_borrow : alu 0x8127 0x05 0x03 = some (0xFE, 0x03, 0x00) := by decide
theorem test_shl : alu 0x812E 0x81 0x99 = some (0x02, 0x99, 0x01) := by decide
theorem test_shl_vf : seen (·.reg vf) (run 0x8F0E (·.setReg vf 0x81)) = some 0x01 := by decide

/-- R172's example: draw 0xA7, mask 0x0F. -/
theorem test_rnd_draw :
    seen (fun t => (t.reg 1, t.randomInput)) (run 0xC10F (fun s => { s with randomInput := [0xA7, 0x55] })) =
    some (0x07, [0x55]) := by decide

/-- R172: the mask 0x00 gives 0x00 whatever the draw, and one draw is used. -/
theorem test_rnd_mask_zero :
    seen (fun t => (t.reg 1, t.draws)) (exec (.rnd 1 0x00) (State.reset.setReg 1 0x55)) = some (0x00, 1) := by
  have masked (b : Byte) : b &&& 0x00 = 0x00 := by simp
  simp only [exec, execRnd, masked]
  decide

/-! ## Index and memory (T3) -/

theorem test_ldI : seen (·.index) (run 0xA123) = some 0x0123 := by decide

theorem test_addI_wraps :
    seen (fun t => (t.index, t.reg vf)) (run 0xF21E (fun s => ((s.setIndex 0xFFFF).setReg 2 1).setReg vf 0xAA)) =
    some (0x0000, 0xAA) := by decide

theorem test_ldF_unmasked :
    seen (·.index) (run 0xF329 (·.setReg 3 0x0A)) = some 0x0082 ∧
    seen (·.index) (run 0xF329 (·.setReg 3 0xFF)) = some 0x054B := by decide

theorem test_ldB :
    seen (fun t => (t.byteAt 0x300, t.byteAt 0x301, t.byteAt 0x302, t.index))
      (run 0xF433 (fun s => (s.setIndex 0x300).setReg 4 0x9C)) = some (1, 5, 6, 0x300) := by decide

/-- T7: the third digit is out of range. -/
theorem test_ldB_fault :
    seen (fun t => (t.byteAt 0xFFE, t.byteAt 0xFFF, t.faulted.map (·.cause)))
      (run 0xF033 (fun s => (s.setIndex 0xFFE).setReg 0 0x7B)) =
    some (1, 2, some (.memoryOutOfRange 0x1000)) := by decide

theorem test_storeRegs :
    seen (fun t => (t.byteAt 0x300, t.byteAt 0x301, t.byteAt 0x302, t.byteAt 0x303))
      (run 0xF255 (fun s => ((((s.setIndex 0x300).setReg 0 0x11).setReg 1 0x22).setReg 2 0x33).setReg 3 0x44)) =
    some (0x11, 0x22, 0x33, 0x00) := by decide

theorem test_storeRegs_fault :
    seen (fun t => (t.byteAt 0xFFE, t.byteAt 0xFFF, t.pc, t.faulted.map (·.cause)))
      (run 0xF255 (fun s => (((s.setIndex 0xFFE).setReg 0 1).setReg 1 2).setReg 2 3)) =
    some (1, 2, 0x0202, some (.memoryOutOfRange 0x1000)) := by decide

theorem test_loadRegs :
    seen (fun t => (t.reg 0, t.reg 1, t.reg 2, t.reg 3))
      (run 0xF265 (fun s => ((((s.setIndex 0x300).setByte 0x300 0x0A).setByte 0x301 0x0B).setByte 0x302 0x0C).setReg 3 0x77)) =
    some (0x0A, 0x0B, 0x0C, 0x77) := by decide

theorem test_loadRegs_fault :
    seen (fun t => (t.reg 0, t.reg 1, t.faulted.map (·.cause)))
      (run 0xF165 (fun s => (((s.setIndex 0xFFF).setReg 0 5).setReg 1 6).setByte 0xFFF 0x00)) =
    some (0x00, 6, some (.memoryOutOfRange 0x1000)) := by decide

/-! ## Display (T4) -/

theorem test_rowMask_clipped :
    rowMask false 0xFF 60 = 0x000000000000000F ∧ rowMask false 0x81 63 = 0x0000000000000001 := by decide

theorem test_rowMask_wrapped :
    rowMask true 0xFF 60 = 0xF00000000000000F ∧ rowMask true 0x81 63 = 0x0200000000000001 := by decide

theorem test_cls :
    seen (fun t => (t.row 5, t.reg vf)) (run 0x00E0 (fun s => (s.setRow 5 0xFF00000000000000).setReg vf 0xAA)) =
    some (0, 0xAA) := by decide

/-- S4: the second draw of the same sprite. -/
theorem test_drw_collision :
    seen (fun t => (t.row 0, t.reg vf))
      (run 0xD011 (fun s => ((s.setIndex 0x300).setByte 0x300 0xFF).setRow 0 0xFF00000000000000)) =
    some (0, 1) := by decide

/-- T4: the start column is the old VF. -/
theorem test_drw_old_vf_is_the_column :
    seen (fun t => (t.row 1, t.reg vf))
      (run 0xDF11 (fun s => (((s.setIndex 0x300).setByte 0x300 0x80).setReg vf 8).setReg 1 1)) =
    some (0x0080000000000000, 0) := by decide

/-- R216 without wrap: rows past the bottom are cut off. -/
theorem test_drw_clip :
    seen (fun t => (t.row 30, t.row 31, t.row 0, t.reg vf))
      (run 0xD015 (fun s => ((s.setIndex 0x050).setReg 0 0x3E).setReg 1 0x1E)) =
    some (0x3, 0x2, 0x0, 0) := by decide

/-- R216 with wrap. -/
theorem test_drw_wrap :
    seen (fun t => (t.row 30, t.row 31, t.row 0, t.row 2))
      (run 0xD015 (fun s => { ((s.setIndex 0x050).setReg 0 0x3E).setReg 1 0x1E with yWrapEnabled := true })) =
    some (0xC000000000000003, 0x4000000000000002, 0x4000000000000002, 0xC000000000000003) := by decide

/-! ## Keys and timers (T5) -/

theorem test_skp :
    seen (·.pc) (run 0xE29E (fun s => (s.setReg 2 5).setHeld 5 true)) = some 0x0204 ∧
    seen (·.pc) (run 0xE29E (·.setReg 2 5)) = some 0x0202 := by decide

theorem test_skp_fault :
    seen (fun t => (t.pc, t.faulted)) (run 0xE39E (·.setReg 3 0x10)) =
    some (0x0202, some ⟨.keyIndexOutOfRange 0x10, 0xE39E⟩) := by decide

theorem test_sknp :
    seen (·.pc) (run 0xE2A1 (fun s => (s.setReg 2 5).setHeld 5 true)) = some 0x0202 ∧
    seen (·.pc) (run 0xE2A1 (·.setReg 2 5)) = some 0x0204 := by decide

/-- S6: the first execution only enters Waiting, whatever is held. -/
theorem test_ldVxK_enters_waiting :
    seen (fun t => (t.waitingForKey, t.pc)) (run 0xF30A (·.setHeld 7 true)) = some (true, 0x0200) := by decide

theorem test_ldVxK_captures :
    seen (fun t => (t.reg 3, t.waitingForKey, t.keyCaptured, t.pc))
      (run 0xF30A (fun s => s.enterWaiting.setHeld 7 true)) = some (0x07, false, true, 0x0202) := by decide

/-- R233 (c): of several held keys any one can be captured. -/
theorem test_ldVxK_chooses :
    seen (·.reg 3) (run 0xF30A (fun s => { (s.enterWaiting.setHeld 7 true).setHeld 9 true with keyInput := [1] })) =
      some 0x09 ∧
    seen (·.reg 3) (run 0xF30A (fun s => { (s.enterWaiting.setHeld 7 true).setHeld 9 true with keyInput := [0] })) =
      some 0x07 := by decide

theorem test_ldVxDt : seen (·.reg 5) (run 0xF507 (·.setDt 0x2A)) = some 0x2A := by decide
theorem test_ldDtVx : seen (·.dt) (run 0xF515 (·.setReg 5 0x3C)) = some 0x3C := by decide
theorem test_ldStVx :
    seen (fun t => (t.st, t.soundActive, t.emitted)) (run 0xF518 (·.setReg 5 0x08)) = some (0x08, true, []) := by
  decide

/-! ## The other step kinds -/

/-- The reset state with one scheduled step. -/
def next1 (k : StepKind) (f : State → State := id) : Host.Outcome State Fault Refusal :=
  step { f State.reset with schedule := [k] }

/-- S7: `DT = 02`, `ST = 01`, no audio command. -/
theorem test_timerTick :
    seen (fun t => (t.dt, t.st, t.emitted, t.schedule)) (next1 .timerTick (fun s => (s.setDt 2).setSt 1)) =
    some (1, 0, [.frameReady], []) := by decide

/-- T5: the first tick of `ST = 03`. -/
theorem test_timerTick_tone_start :
    seen (fun t => (t.st, t.emitted, t.toneOn)) (next1 .timerTick (·.setSt 3)) =
    some (2, [.toneStart, .frameReady], true) := by decide

theorem test_timerTick_while_faulted :
    seen (fun t => (t.dt, t.emitted)) (next1 .timerTick (fun s => raise (.memoryOutOfRange 0x1000) (s.setDt 5))) =
    some (5, []) := by decide

theorem test_keyDown : seen (fun t => (t.held 7, t.held 6)) (next1 (.keyDown 7)) = some (true, false) := by decide
theorem test_keyUp : seen (·.held 7) (next1 (.keyUp 7) (·.setHeld 7 true)) = some false := by decide
theorem test_debugSet : seen (fun t => (t.stepMode, t.advance)) (next1 (.debugSet .stepMode true)) =
    some (true, false) := by decide
theorem test_shutdown : seen (·.shutDown) (next1 .shutdown) = some true := by decide
/-- R277: the state is discarded. -/
theorem test_shutdown_discards :
    seen (fun t => (t.reg 1, t.byteAt 0x300)) (next1 .shutdown (fun s => (s.setReg 1 5).setByte 0x300 7)) =
    some (0, 0) := by decide
/-- R38, D34: in a faulted state a step of every kind leaves the state as it is. -/
theorem test_shutdown_while_faulted :
    seen (fun t => (t.reg 1, t.byteAt 0x300, t.faulted.isSome))
      (next1 .shutdown (fun s => raise (.keyIndexOutOfRange 0x10) ((s.setReg 1 5).setByte 0x300 7))) =
    some (5, 7, true) := by decide
theorem test_no_step_after_shutdown : step { State.reset with shutDown := true } = .fault .shutDown := by rfl

/-! ## Reset and boot -/

/-- S1, with the stack pointer and the last glyph byte. -/
theorem test_boot :
    (State.boot Config.font false [0x12, 0x34, 0x56]).map
      (fun s => (s.byteAt 0x200, s.byteAt 0x202, s.byteAt 0x203, s.byteAt 0x9F, s.pc, s.sp)) =
    some (0x12, 0x56, 0x00, 0x80, 0x0200, 0x0200) := by decide

theorem test_boot_of_nothing_is_reset : State.boot Config.font Config.yWrap [] = some State.reset := by decide

theorem test_font_size : Config.font.length = 80 := by decide

/-! ## Witnesses: for each statement of Obligations.lean with hypotheses, a state and operands that meet them together -/

theorem witness_DecodeOfEncodeIsTheInstruction : (Instr.drw 0 1 5).wf = true ∧ (Instr.nop 0x5AB1).wf = true := by decide

theorem witness_DecoderFollowsTheOpcodeMap :
    (∃ r ∈ opcodeMap, r.accepts 0x8124 = true) ∧ (∀ r ∈ opcodeMap, r.accepts 0x5121 = false) := by
  exact ⟨⟨⟨167, 0xF00F, 0x8004⟩, by decide, by decide⟩, by decide⟩

/-- One listed cell, at the last address. -/
def lastCell : Memory := [(0xFFF, 0x12)]

theorem witness_MemoryReadsTheLastWrite : lastCell.wf ∧ 0xFFF < Config.memSize := by decide

theorem witness_CanonicalMemoriesThatReadAlikeAreEqual :
    lastCell.wf ∧ (Memory.write [] 0xFFF 0x12).wf ∧
    ∀ a, a < Config.memSize → lastCell.read a = (Memory.write [] 0xFFF 0x12).read a :=
  ⟨by decide, by decide, fun _ _ => rfl⟩

theorem witness_BootPlacesFontAndImage :
    Config.font.length = 80 ∧ (List.replicate 3584 (0x12 : Byte)).length ≤ 3584 ∧
    3584 < (List.replicate 3585 (0x12 : Byte)).length :=
  ⟨by decide, by rw [List.length_replicate], by rw [List.length_replicate]; decide⟩

/-- The reset state resting on an Fx0A at 0x200 in the state Waiting. -/
def waitingState : State :=
  { State.reset.enterWaiting with mem := [(0x200, 0xF3), (0x201, 0x0A)], currentOpcode := 0xF30A }

theorem witness_EveryStepKeepsTheInvariant : Inv waitingState ∧ ∃ t, step waitingState = .next t :=
  ⟨⟨by decide, by decide, fun _ => ⟨⟨3, by decide⟩, by decide, by decide⟩, trivial⟩, _, rfl⟩

theorem witness_InstructionTickRunsTheFetchedInstruction :
    (State.reset.setPc 0x0FFE).runsInstruction ∧
    ((State.reset.setPc 0x0FFF).safe ∧ nextKind (State.reset.setPc 0x0FFF) = .instrTick ∧
      (State.reset.setPc 0x0FFF).gateOpen ∧ 0x0FFF ≤ (State.reset.setPc 0x0FFF).pc.toNat) ∧
    ((State.reset.setPc 0x1000).safe ∧ nextKind (State.reset.setPc 0x1000) = .instrTick ∧
      (State.reset.setPc 0x1000).gateOpen ∧ 0x0FFF ≤ (State.reset.setPc 0x1000).pc.toNat) ∧
    ((State.reset.setStepMode true).safe ∧ nextKind (State.reset.setStepMode true) = .instrTick ∧
      ¬ (State.reset.setStepMode true).gateOpen) ∧
    ((raise (.memoryOutOfRange 0x1000) State.reset).shutDown = false ∧
      (raise (.memoryOutOfRange 0x1000) State.reset).faulted ≠ none ∧
      nextKind (raise (.memoryOutOfRange 0x1000) State.reset) = .instrTick) :=
  ⟨⟨⟨rfl, rfl⟩, rfl, .inl rfl, by decide⟩, ⟨⟨rfl, rfl⟩, rfl, .inl rfl, by decide⟩,
    ⟨⟨rfl, rfl⟩, rfl, .inl rfl, by decide⟩, ⟨⟨rfl, rfl⟩, rfl, fun h => h.elim (nomatch ·) (nomatch ·)⟩,
    rfl, nofun, rfl⟩

theorem witness_UnrecognizedWordOnlyAdvances :
    State.reset.runsInstruction ∧ recognized (State.reset.wordAt State.reset.pc.toNat) = false :=
  ⟨⟨⟨rfl, rfl⟩, rfl, .inl rfl, by decide⟩, by decide⟩

theorem witness_PlacedWordRunsNext :
    waitingState.mem.wf ∧ 0xFFFF < 65536 ∧ (waitingState.setPc 0x0FFE).pc.toNat < 0x0FFF := by decide

/-- The last slot a push can use. -/
theorem witness_CallPushesAndJumps :
    (waitingState.setSp 0x1000).mem.wf ∧ ((waitingState.setSp 0x1000).sp - 2).toNat + 1 < 4096 := by decide

theorem witness_ReturnPops : (State.reset.setSp 0x0FFE).sp.toNat + 1 < 4096 := by decide

theorem witness_ReturnUndoesCall :
    (waitingState.setSp 0x0002).mem.wf ∧ ((waitingState.setSp 0x0002).sp - 2).toNat + 1 < 4096 := by decide

theorem witness_StackAccessFaults :
    4096 ≤ ((State.reset.setSp 0x0000).sp - 2).toNat ∧ 4096 ≤ ((State.reset.setSp 0x1002).sp - 2).toNat ∧
    ((waitingState.setSp 0x1001).mem.wf ∧ (waitingState.setSp 0x1001).sp = 0x1001) ∧
    4096 ≤ (State.reset.setSp 0x1000).sp.toNat ∧ (State.reset.setSp 0x0FFF).sp = 0x0FFF := by decide

theorem witness_AddAndSubtractWithFlag : (1 : Reg) ≠ vf := by decide

theorem witness_ShiftsMoveOneBit : (14 : Reg) ≠ vf := by decide

theorem witness_FlagWritersLeaveABit :
    Instr.shl vf 0 ∈ [.addReg vf 0, .subReg vf 0, .shr vf 0, .subnReg vf 0, .shl vf 0, .drw vf 0 3] ∧
    ∃ t, exec (.shl vf 0) (State.reset.setReg vf 0x81) = .next t := ⟨by decide, _, rfl⟩

theorem witness_DecimalDigitsAreStored :
    (waitingState.setIndex 0x0FFD).mem.wf ∧ (waitingState.setIndex 0x0FFD).index.toNat + 2 < 4096 := by decide

theorem witness_RegistersAreStored :
    (waitingState.setIndex 0x0FF0).mem.wf ∧ (waitingState.setIndex 0x0FF0).index.toNat + (15 : Reg).val < 4096 := by
  decide

theorem witness_RegistersAreLoaded : (State.reset.setIndex 0x0FF0).index.toNat + (15 : Reg).val < 4096 := by decide

/-- Each clause at both edges: the last element outside, and the first. -/
theorem witness_BlockAccessFaults :
    (waitingState.setIndex 0x0FFE).mem.wf ∧ 4096 ≤ (waitingState.setIndex 0x0FFE).index.toNat + 2 ∧
    4096 ≤ (waitingState.setIndex 0xFFFF).index.toNat + 2 ∧
    4096 ≤ (waitingState.setIndex 0x0FFF).index.toNat + (1 : Reg).val ∧
    4096 ≤ (waitingState.setIndex 0x1000).index.toNat + (0 : Reg).val := by decide

theorem witness_RowMaskPlacesEachPixel :
    (63 < 64 ∧ 0 < 64) ∧ (rowMask true 0xFF 63).getLsbD (63 - 0) = true ∧
    (∃ j, j < 8 ∧ (0xFF : Byte).getLsbD (7 - j) = true ∧ (63 + j) % 64 = 0) :=
  ⟨by decide, by decide, 1, by decide, by decide, by decide⟩

/-- One sprite row of eight set pixels at 0xFFF, row 31 of the display, clipping: a second sprite row would lie outside
memory and is never read. -/
def drawState : State := ((State.reset.setIndex 0x0FFF).setByte 0xFFF 0xFF).setReg 1 31

theorem drawState_rows (i : Nat) (r : Fin 32) (hi : i < 2) (h : displayRow false ((drawState.reg 1).toNat % 64 + i) = some r) :
    drawState.index.toNat + i < 4096 := by
  match i, hi with
  | 0, _ => decide
  | 1, _ => exact absurd h (by rw [show displayRow false ((drawState.reg 1).toNat % 64 + 1) = none by decide]; exact nofun)

theorem witness_DrawXorsTheSprite :
    (∀ i r, i < (2 : Fin 16).val ∧ displayRow drawState.yWrapEnabled ((drawState.reg 1).toNat % 64 + i) = some r →
      drawState.index.toNat + i < 4096) ∧
    (0 < (2 : Fin 16).val ∧ displayRow drawState.yWrapEnabled ((drawState.reg 1).toNat % 64 + 0) = some 31) ∧
    (drawState.setRow 31 1).row 31 &&& rowMask false ((drawState.setRow 31 1).byteAt 0xFFF) 63 ≠ 0 ∧
    drawState.row 31 &&& rowMask false (drawState.byteAt 0xFFF) 63 = 0 :=
  ⟨fun i r h => drawState_rows i r h.1 h.2, by decide, by decide, by decide⟩

theorem witness_DrawingTwiceRestores :
    (2 : Reg) ≠ vf ∧ (1 : Reg) ≠ vf ∧
    ∀ i r, i < (2 : Fin 16).val → displayRow drawState.yWrapEnabled ((drawState.reg 1).toNat % 64 + i) = some r →
      drawState.index.toNat + i < 4096 :=
  ⟨by decide, by decide, fun i r hi h => drawState_rows i r hi h⟩

/-- The same sprite one row higher: its second row is drawn, and lies outside memory. -/
theorem witness_DrawFaultsAtTheFirstRowOutside :
    (1 < (2 : Fin 16).val ∧ displayRow false (((drawState.setReg 1 30).reg 1).toNat % 64 + 1) = some 31 ∧
      (∀ i, i < 1 → (drawState.setReg 1 30).index.toNat + i < 4096) ∧
      4096 ≤ (drawState.setReg 1 30).index.toNat + 1) ∧
    (0 < (1 : Fin 16).val ∧ 4096 ≤ (drawState.setIndex 0xFFFF).index.toNat + 0) :=
  ⟨⟨by decide, by decide, by decide, by decide⟩, by decide⟩

theorem witness_KeySkips :
    ((State.reset.setReg 3 15).reg 3).toNat = (15 : Key).val ∧ 15 < ((State.reset.setReg 3 16).reg 3).toNat := by decide

theorem witness_BlockingKeyRead :
    State.reset.waitingForKey = false ∧ (waitingState.waitingForKey = true ∧ ∀ k, waitingState.held k = false) ∧
    ((waitingState.setHeld 15 true).waitingForKey = true ∧ ∃ k, (waitingState.setHeld 15 true).held k = true) :=
  ⟨rfl, ⟨rfl, by decide⟩, rfl, 15, by decide⟩

/-- The reset state with one scheduled step. -/
def scheduled (k : StepKind) : State := { State.reset with schedule := [k] }

theorem witness_TimerTickCountsDown :
    ((scheduled .timerTick).setSt 1).safe ∧ nextKind ((scheduled .timerTick).setSt 1) = .timerTick := ⟨⟨rfl, rfl⟩, rfl⟩

theorem witness_KeyEventsSetOneKey :
    ((scheduled (.keyDown 15)).safe ∧ nextKind (scheduled (.keyDown 15)) = .keyDown 15) ∧
    ((scheduled (.keyUp 0)).safe ∧ nextKind (scheduled (.keyUp 0)) = .keyUp 0) :=
  ⟨⟨⟨rfl, rfl⟩, rfl⟩, ⟨rfl, rfl⟩, rfl⟩

theorem witness_DebugWritesSetOneFlag :
    ((scheduled (.debugSet .stepMode true)).safe ∧
      nextKind (scheduled (.debugSet .stepMode true)) = .debugSet .stepMode true) ∧
    ((scheduled (.debugSet .advance false)).safe ∧
      nextKind (scheduled (.debugSet .advance false)) = .debugSet .advance false) :=
  ⟨⟨⟨rfl, rfl⟩, rfl⟩, ⟨rfl, rfl⟩, rfl⟩

theorem witness_StepModeGatesTheTick :
    ((State.reset.setStepMode true).schedule = [] ∧ (State.reset.setStepMode true).safe ∧
      (State.reset.setStepMode true).stepMode = true ∧ (State.reset.setStepMode true).advance = false) ∧
    (((State.reset.setStepMode true).setAdvance true).safe ∧
      ((State.reset.setStepMode true).setAdvance true).advance = true ∧
      (((State.reset.setStepMode true).setAdvance true).setPc 0x0FFE).pc.toNat < 0x0FFF) :=
  ⟨⟨rfl, ⟨rfl, rfl⟩, rfl, rfl⟩, ⟨rfl, rfl⟩, rfl, by decide⟩

/-- Two states with the same environment and different registers; and the fault that `Shutdown` meets. -/
theorem witness_NoStepAfterShutdown :
    ((scheduled .shutdown).safe ∧ nextKind (scheduled .shutdown) = .shutdown ∧
      SameEnvironment [] (scheduled .shutdown) ((scheduled .shutdown).setReg 1 5) ∧
      ((scheduled .shutdown).setReg 1 5).faulted = none) ∧
    ((raise (.keyIndexOutOfRange 0x10) (scheduled .shutdown)).shutDown = false ∧
      (raise (.keyIndexOutOfRange 0x10) (scheduled .shutdown)).faulted ≠ none ∧
      nextKind (raise (.keyIndexOutOfRange 0x10) (scheduled .shutdown)) = .shutdown) ∧
    (shutdown State.reset).shutDown = true ∧
    ∃ t, exec (.jp 0x300) State.reset = .next t :=
  ⟨⟨⟨rfl, rfl⟩, rfl, ⟨fun _ => rfl, fun _ => rfl, fun _ => rfl, fun _ => rfl, fun _ => rfl, fun _ => rfl, fun _ => rfl⟩,
    rfl⟩, ⟨rfl, nofun, rfl⟩, rfl, _, rfl⟩

theorem witness_FaultIsTerminal :
    (raise (.keyIndexOutOfRange 0x10) (scheduled .timerTick)).faulted ≠ none ∧
    (raise (.keyIndexOutOfRange 0x10) (scheduled .timerTick)).shutDown = false ∧
    nextKind (raise (.keyIndexOutOfRange 0x10) (scheduled .timerTick)) ≠ .shutdown ∧
    (raise (.keyIndexOutOfRange 0x10) (scheduled .shutdown)).shutDown = false ∧
    nextKind (raise (.keyIndexOutOfRange 0x10) (scheduled .shutdown)) = .shutdown := ⟨nofun, rfl, nofun, rfl, rfl⟩

theorem witness_OnlyInstructionsMoveThePc :
    (∃ t, step (scheduled .timerTick) = .next t) ∧ nextKind (scheduled .timerTick) ≠ .instrTick ∧
    nextKind (scheduled .timerTick) ≠ .shutdown ∧
    (∃ t, step (raise (.keyIndexOutOfRange 0x10) (scheduled .shutdown)) = .next t) ∧
    nextKind (raise (.keyIndexOutOfRange 0x10) (scheduled .shutdown)) = .shutdown ∧
    (raise (.keyIndexOutOfRange 0x10) (scheduled .shutdown)).faulted ≠ none :=
  ⟨⟨_, rfl⟩, nofun, nofun, ⟨_, rfl⟩, rfl, nofun⟩

theorem witness_FaultsComeFromTheirInstructions :
    State.reset.faulted = none ∧ (∃ t, exec (.skp 3) (State.reset.setReg 3 0x10) = .next t ∧ t.faulted ≠ none) ∧
    ∃ t, exec (.ldB 0) (State.reset.setIndex 0x0FFE) = .next t ∧ t.faulted ≠ none :=
  ⟨rfl, ⟨_, rfl, nofun⟩, _, rfl, nofun⟩

/-- A step that moves `pc`, `sp` and memory at once. -/
theorem witness_EachRegisterHasItsWriters :
    ∃ t, exec (.call 0x300) State.reset = .next t ∧ t.pc ≠ State.reset.pc ∧ t.sp ≠ State.reset.sp ∧
      t.byteAt 0x1FE ≠ State.reset.byteAt 0x1FE := ⟨_, rfl, by decide, by decide, by decide⟩

/-- A step that writes VF and no destination. -/
theorem witness_EachRegisterHasItsWriters_flag :
    ∃ t, exec (.addReg 1 2) ((State.reset.setReg 1 0xFF).setReg 2 0x01) = .next t ∧
      t.reg vf ≠ ((State.reset.setReg 1 0xFF).setReg 2 0x01).reg vf := ⟨_, rfl, by decide⟩

theorem witness_DebugFlagsAreInvisible : ∃ t, exec (.ldVxK 3) waitingState = .next t := ⟨_, rfl⟩

/-- `JP` to itself at 0x200. -/
def finishedState : State := { State.reset with mem := [(0x200, 0x12)] }

theorem witness_FinishedProgramStaysPut :
    finishedState.finished ∧ finishedState.safe ∧ finishedState.gateOpen ∧ nextKind finishedState = .instrTick :=
  ⟨⟨rfl, by decide, rfl, by decide⟩, ⟨rfl, rfl⟩, .inl rfl, rfl⟩

/-! ## Whole-program definitions -/

/-- R251: Ex9E with `V[3]` = 0x10 faults with `pc` on a self-jump, and the faulted state is not finished. -/
theorem test_a_faulted_state_is_not_finished :
    ∃ t, step { State.reset.setReg 3 0x10 with mem := [(0x200, 0xE3), (0x201, 0x9E), (0x202, 0x12), (0x203, 0x02)] } =
      .next t ∧ t.faulted = some ⟨.keyIndexOutOfRange 0x10, 0xE39E⟩ ∧ t.wordAt t.pc.toNat = 0x1000 ||| t.pc ∧
      ¬ t.finished := ⟨_, rfl, rfl, by decide, fun h => nomatch h.1⟩

/-- R305 (c) with R172: a program that skips on a random key number has runs in which the number names no key. -/
theorem test_random_key_number_is_not_well_formed : ¬ WellFormedProgram [0xC0, 0xFF, 0xE0, 0x9E] := fun h =>
  nomatch (((h Config.font false [] [0x10] [] _ 2 rfl _ rfl).2.1 ⟨⟨rfl, rfl⟩, rfl, .inl rfl, by decide⟩).2 _ rfl).1
end Sys2Proof.Tests
end

section
/-! PROOFS. spec/41_control_flow.md: JP nnn (R140), SE Vx, nn (R145) and SNE Vx, nn (R146). Each changes at most `pc`: the frame
of `setPc` and what a skip does are said once, then each instruction is its word, its meaning and that frame. -/

namespace Sys2Proof.Machine

/-! ## What moves `pc` only -/

theorem sameBut_setPc (s : State) (w : Word) : SameBut [.pc] s (s.setPc w) := by
  have stores : SameStores [.pc] s (s.setPc w) := ⟨fun _ _ => rfl, fun _ _ => rfl, fun _ _ => rfl, fun _ _ => rfl⟩
  have control : SameControl [.pc] s (s.setPc w) := by simp [SameControl]
  have environment : SameEnvironment [.pc] s (s.setPc w) := by simp [SameEnvironment]
  exact ⟨stores, control, environment⟩

/-- A skip is a write of `pc`, whether it is taken or not (R144). -/
theorem skipIf_eq_setPc (c : Bool) (s : State) : skipIf c s = s.setPc (if c = true then s.pc + 2 else s.pc) := by
  cases c with
  | false => rfl
  | true => rfl

theorem skipIf_pc (c : Bool) (s : State) : (skipIf c s).pc = if c = true then s.pc + 2 else s.pc := by
  rw [skipIf_eq_setPc, setPc_pc]

theorem skipIf_sameBut (c : Bool) (s : State) : SameBut [.pc] s (skipIf c s) := by
  rw [skipIf_eq_setPc]
  exact sameBut_setPc s _

/-! ## The three words -/

theorem decodeWord_jp (nnn : BitVec 12) : decodeWord (wordNnn 0x1 nnn) = .jp nnn := by
  simp [decodeWord]

theorem decodeWord_seImm (x : Reg) (nn : Byte) : decodeWord (wordXNn 0x3 x nn) = .seImm x nn := by
  simp [decodeWord]

theorem decodeWord_sneImm (x : Reg) (nn : Byte) : decodeWord (wordXNn 0x4 x nn) = .sneImm x nn := by
  simp [decodeWord]

/-! ## The three meanings -/

theorem exec_jp (nnn : BitVec 12) (s : State) : exec (.jp nnn) s = .next (s.setPc (addressOf nnn)) := rfl

theorem exec_seImm (x : Reg) (nn : Byte) (s : State) : exec (.seImm x nn) s = .next (skipIf (s.reg x == nn) s) := rfl

theorem exec_sneImm (x : Reg) (nn : Byte) (s : State) : exec (.sneImm x nn) s = .next (skipIf (s.reg x != nn) s) := rfl

/-! ## The obligations -/

/-- Settles O14: the word is `decodeWord_jp`, the meaning one write of `pc`. -/
theorem jumpGoesToItsAddress : Obligations.JumpGoesToItsAddress := by
  intro nnn s
  exact ⟨decodeWord_jp nnn, _, exec_jp nnn s, addressOf_toNat nnn, sameBut_setPc s _⟩

/-- Settles O15: both meanings are a `skipIf` on the condition. -/
theorem immediateComparisonsSkip : Obligations.ImmediateComparisonsSkip := by
  intro x nn s
  refine ⟨decodeWord_seImm x nn, decodeWord_sneImm x nn, ?_, ?_⟩
  · refine ⟨_, exec_seImm x nn s, ?_, skipIf_sameBut _ s⟩
    simp only [skipIf_pc, beq_iff_eq]
  · refine ⟨_, exec_sneImm x nn s, ?_, skipIf_sameBut _ s⟩
    simp only [skipIf_pc, bne_iff_ne]

end Sys2Proof.Machine
end

section
/-! PROOFS. spec/42_alu.md: LD Vx, nn (R161) and ADD Vx, nn (R162). Each is one write of `V[x]`: its frame is said once, and it
leaves VF out unless `x` is F. -/

namespace Sys2Proof.Machine

/-! ## What writes one register only -/

theorem setReg_reg_self (s : State) (x : Reg) (b : Byte) : (s.setReg x b).reg x = b := by
  rw [setReg_reg, if_pos rfl]

theorem sameBut_setReg (s : State) (x : Reg) (b : Byte) : SameBut [.reg x] s (s.setReg x b) := by
  have others (r : Reg) (h : .reg r ∉ [Part.reg x]) : (s.setReg x b).reg r = s.reg r := by
    rw [setReg_reg, if_neg (by simpa using h)]
  have stores : SameStores [.reg x] s (s.setReg x b) := ⟨others, fun _ _ => rfl, fun _ _ => rfl, fun _ _ => rfl⟩
  have control : SameControl [.reg x] s (s.setReg x b) := by simp [SameControl]
  have environment : SameEnvironment [.reg x] s (s.setReg x b) := by simp [SameEnvironment]
  exact ⟨stores, control, environment⟩

/-! ## The two words -/

theorem decodeWord_ldImm (x : Reg) (nn : Byte) : decodeWord (wordXNn 0x6 x nn) = .ldImm x nn := by
  simp [decodeWord]

theorem decodeWord_addImm (x : Reg) (nn : Byte) : decodeWord (wordXNn 0x7 x nn) = .addImm x nn := by
  simp [decodeWord]

/-! ## The two meanings -/

theorem exec_ldImm (x : Reg) (nn : Byte) (s : State) : exec (.ldImm x nn) s = .next (s.setReg x nn) := rfl

theorem exec_addImm (x : Reg) (nn : Byte) (s : State) : exec (.addImm x nn) s = .next (s.setReg x (s.reg x + nn)) := rfl

/-! ## The obligation -/

/-- Settles O22: both meanings are one write of `V[x]`; the addition of bytes wraps modulo 256. -/
theorem immediateLoadAndAdd : Obligations.ImmediateLoadAndAdd := by
  intro x nn s
  refine ⟨decodeWord_ldImm x nn, decodeWord_addImm x nn, ?_, ?_⟩
  · exact ⟨_, exec_ldImm x nn s, setReg_reg_self s x nn, sameBut_setReg s x nn⟩
  · refine ⟨_, exec_addImm x nn s, ?_, sameBut_setReg s x _⟩
    rw [setReg_reg_self, BitVec.toNat_add]

end Sys2Proof.Machine
end

section
/-! PROOFS. spec/43_index_memory.md: LD I, nnn (R190). It is one write of `I`, whose frame is said once. -/

namespace Sys2Proof.Machine

/-! ## What writes `I` only -/

theorem sameBut_setIndex (s : State) (w : Word) : SameBut [.index] s (s.setIndex w) := by
  have stores : SameStores [.index] s (s.setIndex w) := ⟨fun _ _ => rfl, fun _ _ => rfl, fun _ _ => rfl, fun _ _ => rfl⟩
  have control : SameControl [.index] s (s.setIndex w) := by simp [SameControl]
  have environment : SameEnvironment [.index] s (s.setIndex w) := by simp [SameEnvironment]
  exact ⟨stores, control, environment⟩

/-! ## The word and the meaning -/

theorem decodeWord_ldI (nnn : BitVec 12) : decodeWord (wordNnn 0xA nnn) = .ldI nnn := by
  simp [decodeWord]

theorem exec_ldI (nnn : BitVec 12) (s : State) : exec (.ldI nnn) s = .next (s.setIndex (addressOf nnn)) := rfl

/-! ## The obligation -/

/-- Settles O28: the word is `decodeWord_ldI`, the meaning one write of `I` with the address zero-extended. -/
theorem indexIsSet : Obligations.IndexIsSet := by
  intro nnn s
  exact ⟨decodeWord_ldI nnn, _, exec_ldI nnn s, addressOf_toNat nnn, sameBut_setIndex s _⟩

end Sys2Proof.Machine
end

section
/-! PROOFS. spec/44_display.md: CLS (R210). It is `clearDisplay`, which writes the display rows only. -/

namespace Sys2Proof.Machine

/-! ## What clears the display only -/

theorem pixel_eq_false_of_row_eq_zero (s : State) (r : Fin 32) (h : s.row r = 0) (c : Fin 64) : s.pixel r c = false := by
  rw [State.pixel, h]
  exact BitVec.getLsbD_zero

theorem sameBut_clearDisplay (s : State) : SameBut allRows s s.clearDisplay := by
  have rows (r : Fin 32) (h : .row r ∉ allRows) : s.clearDisplay.row r = s.row r :=
    absurd ((mem_allRows _).2 ⟨r, rfl⟩) h
  have stores : SameStores allRows s s.clearDisplay := ⟨fun _ _ => rfl, fun _ _ => rfl, rows, fun _ _ => rfl⟩
  have control : SameControl allRows s s.clearDisplay := by simp [SameControl]
  have environment : SameEnvironment allRows s s.clearDisplay := by simp [SameEnvironment]
  exact ⟨stores, control, environment⟩

/-! ## The word and the meaning -/

theorem decodeWord_cls : decodeWord 0x00E0 = .cls := by decide

theorem exec_cls (s : State) : exec .cls s = .next s.clearDisplay := rfl

/-! ## The obligation -/

/-- Settles O34: the meaning is `clearDisplay`, whose rows are all 0; a pixel is a bit of its row. -/
theorem clearDisplayTurnsEveryPixelOff : Obligations.ClearDisplayTurnsEveryPixelOff := by
  refine ⟨decodeWord_cls, fun s => ?_⟩
  have off (r : Fin 32) (c : Fin 64) : s.clearDisplay.pixel r c = false :=
    pixel_eq_false_of_row_eq_zero _ r (clearDisplay_row s r) c
  exact ⟨_, exec_cls s, clearDisplay_row s, off, sameBut_clearDisplay s⟩

end Sys2Proof.Machine
end

section
/-! PROOFS. spec/60_exceptions.md: step-mode gating (R274). No instruction writes what the gate and the choice of the next step
read. A state with an empty schedule and the gate closed steps to itself, faulted or not, and the one instruction that
`advance` lets through ends in such a state. -/

namespace Sys2Proof.Machine

/-! ## What the next tick reads -/

/-- The fields that decide whether the next step is a tick that runs (R260, R273, R277) are the same in two states. -/
structure GateKept (s t : State) : Prop where
  schedule : t.schedule = s.schedule
  stepMode : t.stepMode = s.stepMode
  advance : t.advance = s.advance
  shutDown : t.shutDown = s.shutDown

theorem Effect.gateKept {i : Instr} {s u : State} (h : Effect i s u) : GateKept s u := by
  cases i with
  | cls | nop => subst h; exact ⟨rfl, rfl, rfl, rfl⟩
  | ret => obtain rfl | ⟨p, rfl⟩ := h <;> exact ⟨rfl, rfl, rfl, rfl⟩
  | call => obtain ⟨m, p, rfl, -⟩ := h; exact ⟨rfl, rfl, rfl, rfl⟩
  | ldB | storeRegs => obtain ⟨m, rfl, -⟩ := h; exact ⟨rfl, rfl, rfl, rfl⟩
  | ldImm | addImm | ldReg | orReg | andReg | xorReg | addReg | subReg | shr | subnReg | shl | ldVxDt | loadRegs =>
    obtain ⟨⟨v, rfl⟩, -⟩ := h; exact ⟨rfl, rfl, rfl, rfl⟩
  | drw => obtain ⟨⟨v, d, rfl⟩, -⟩ := h; exact ⟨rfl, rfl, rfl, rfl⟩
  | ldVxK => obtain ⟨-, rfl⟩ | ⟨-, rfl | ⟨k, rfl⟩⟩ := h <;> exact ⟨rfl, rfl, rfl, rfl⟩
  | _ => obtain ⟨w, rfl⟩ := h; exact ⟨rfl, rfl, rfl, rfl⟩

theorem GateKept.raise {s u : State} (h : GateKept s u) (c : FaultCause) : GateKept s (raise c u) :=
  ⟨h.schedule, h.stepMode, h.advance, h.shutDown⟩

/-- No instruction moves the gate (R36, R256), whether it faults or not. -/
theorem exec_gateKept {i : Instr} {s t : State} (h : exec i s = .next t) : GateKept s t := by
  obtain ⟨u, hu, rfl | ⟨c, -, rfl⟩⟩ := exec_cases h
  · exact hu.gateKept
  · exact hu.gateKept.raise c

/-! ## States that step to themselves -/

theorem nextKind_of_schedule_nil {s : State} (h : s.schedule = []) : nextKind s = .instrTick := by
  unfold nextKind; rw [h]

theorem popSchedule_of_schedule_nil {s : State} (h : s.schedule = []) : popSchedule s = s := by
  unfold popSchedule; rw [h, List.tail_nil, ← h]

theorem not_gateOpen {s : State} (hm : s.stepMode = true) (ha : s.advance = false) : ¬ s.gateOpen := by
  simp [State.gateOpen, hm, ha]

/-- With nothing scheduled and the gate closed a step changes nothing, in a faulted state as in a running one. -/
theorem step_self_of_gate_closed {s : State} (hq : s.schedule = []) (hd : s.shutDown = false) (hg : ¬ s.gateOpen) :
    step s = .next s := by
  have hk : nextKind s = .instrTick := nextKind_of_schedule_nil hq
  by_cases hf : s.faulted = none
  · rw [step_gated ⟨hf, hd⟩ hk hg, popSchedule_of_schedule_nil hq]
  · rw [step_faulted hf hd, if_neg (by simp [hk]), popSchedule_of_schedule_nil hq]

theorem run_self_of_step_self {s : State} (h : step s = .next s) (n : Nat) : core.run n s = .next s := by
  induction n with
  | zero => exact run_zero s
  | succ n ih => exact (run_succ h n).trans ih

/-! ## The obligation -/

/-- Settles O46: with `advance` off the gate is closed and the state steps to itself; with it on the first tick is the
instruction, and the gate is closed in the state it leaves. -/
theorem stepModeGatesTheTick : Obligations.StepModeGatesTheTick := by
  intro s n hq hs hm
  refine ⟨fun ha => ?_, fun ha hp => ?_⟩
  · exact run_self_of_step_self (step_self_of_gate_closed hq hs.2 (not_gateOpen hm ha)) n
  · have runs : s.runsInstruction := ⟨hs, nextKind_of_schedule_nil hq, .inr ha, Nat.succ_lt_succ hp⟩
    obtain ⟨t, ht⟩ := exec_answers_next s.instructionAtPc s.beforeExecute
    have kept : GateKept s.beforeExecute t := exec_gateKept ht
    have advanceOff : t.advance = false := kept.advance
    have modeOn : t.stepMode = true := kept.stepMode.trans hm
    have notShutDown : t.shutDown = false := kept.shutDown.trans hs.2
    have nothingScheduled : t.schedule = [] := kept.schedule.trans (congrArg List.tail hq)
    have rests : step t = .next t :=
      step_self_of_gate_closed nothingScheduled notShutDown (not_gateOpen modeOn advanceOff)
    exact ⟨t, ht, advanceOff, (run_succ ((step_runs runs).trans ht) n).trans (run_self_of_step_self rests n)⟩

end Sys2Proof.Machine
end

section
/-! PROOFS. spec/30_encoding.md: decoder, encoder and opcode map agree (R91 to R97). Two facts carry all of it: encoding what the
decoder answers gives the word back, and a row's mask keeps the fields the decoder dispatches on, so the decoder answers every
word that a row accepts as it answers the row's own value. -/

namespace Sys2Proof

/-! ## A word from its fields -/

theorem wordNnn_of_fields {w : Word} {t : Fin 16} (ht : (fieldType w).val = t.val) : wordNnn t (fieldNnn w) = w := by
  apply BitVec.eq_of_toNat_eq
  rw [fieldType_val] at ht
  rw [wordNnn_toNat, fieldNnn_toNat]
  omega

theorem wordXNn_of_fields {w : Word} {t : Fin 16} {nn : Byte} (ht : (fieldType w).val = t.val)
    (hn : (fieldNn w).toNat = nn.toNat) : wordXNn t (fieldX w) nn = w := by
  apply BitVec.eq_of_toNat_eq
  rw [fieldType_val] at ht
  rw [fieldNn_toNat] at hn
  rw [wordXNn_toNat, fieldX_val]
  omega

theorem wordOfNibbles_of_fields {w : Word} {t n : Fin 16} (ht : (fieldType w).val = t.val)
    (hn : (fieldN w).val = n.val) : wordOfNibbles t (fieldX w) (fieldY w) n = w := by
  apply BitVec.eq_of_toNat_eq
  rw [fieldType_val] at ht
  rw [fieldN_val] at hn
  rw [wordOfNibbles_toNat, fieldX_val, fieldY_val]
  omega

/-! ## Encoding what is decoded -/

theorem encode_decodeSystem (w : Word) : encode (decodeSystem w) = w := by
  unfold decodeSystem
  split
  · next h => exact h.symm
  · split
    · next h => exact h.symm
    · rfl

theorem encode_decodeAlu {w : Word} (ht : (fieldType w).val = 8) : encode (decodeAlu w) = w := by
  unfold decodeAlu
  split
  case h_10 => rfl
  all_goals next hn => exact wordOfNibbles_of_fields ht hn

theorem encode_decodeKey {w : Word} (ht : (fieldType w).val = 14) : encode (decodeKey w) = w := by
  unfold decodeKey
  split
  · next hn => exact wordXNn_of_fields ht (congrArg BitVec.toNat hn)
  · split
    · next hn => exact wordXNn_of_fields ht (congrArg BitVec.toNat hn)
    · rfl

theorem encode_decodeMisc {w : Word} (ht : (fieldType w).val = 15) : encode (decodeMisc w) = w := by
  unfold decodeMisc
  split
  case h_10 => rfl
  all_goals next hn => exact wordXNn_of_fields ht hn

theorem encode_decodeWord (w : Word) : encode (decodeWord w) = w := by
  unfold decodeWord
  split
  case h_1 => exact encode_decodeSystem w
  case h_2 ht | h_3 ht | h_11 ht | h_12 ht => exact wordNnn_of_fields ht
  case h_4 ht | h_5 ht | h_7 ht | h_8 ht | h_13 ht => exact wordXNn_of_fields ht rfl
  case h_14 ht => exact wordOfNibbles_of_fields ht rfl
  case h_6 ht | h_10 ht =>
    split
    · next hn => exact wordOfNibbles_of_fields ht hn
    · rfl
  case h_9 ht => exact encode_decodeAlu ht
  case h_15 ht => exact encode_decodeKey ht
  case h_16 =>
    refine encode_decodeMisc ?_
    have := (fieldType w).isLt
    grind

/-! ## What the decoder dispatches on -/

/-- Two words that agree in every field the decoder looks at before it picks an instruction (R94). -/
structure SameDispatch (w v : Word) : Prop where
  type   : fieldType w = fieldType v
  system : (fieldType v).val = 0 → w = v
  digit  : (fieldType v).val ∈ [5, 8, 9] → fieldN w = fieldN v
  byte   : (fieldType v).val ∈ [14, 15] → fieldNn w = fieldNn v

theorem rule_decodeAlu_congr {w v : Word} (h : fieldN w = fieldN v) : (decodeAlu w).rule = (decodeAlu v).rule := by
  unfold decodeAlu
  rw [h]
  split <;> rfl

theorem rule_decodeKey_congr {w v : Word} (h : fieldNn w = fieldNn v) : (decodeKey w).rule = (decodeKey v).rule := by
  unfold decodeKey
  rw [h]
  split
  · rfl
  · split <;> rfl

theorem rule_decodeMisc_congr {w v : Word} (h : fieldNn w = fieldNn v) :
    (decodeMisc w).rule = (decodeMisc v).rule := by
  unfold decodeMisc
  rw [h]
  split <;> rfl

theorem SameDispatch.rule_eq {w v : Word} (h : SameDispatch w v) : (decodeWord w).rule = (decodeWord v).rule := by
  unfold decodeWord
  rw [h.type]
  split
  case h_1 ht => rw [h.system ht]
  case h_6 ht | h_10 ht =>
    rw [h.digit (by simp [ht])]
    split <;> rfl
  case h_9 ht => exact rule_decodeAlu_congr (h.digit (by simp [ht]))
  case h_15 ht => exact rule_decodeKey_congr (h.byte (by simp [ht]))
  case h_16 =>
    have := (fieldType v).isLt
    exact rule_decodeMisc_congr (h.byte (by grind))
  all_goals rfl

/-- Every row of the map fixes, by its mask, just the fields the decoder looks at for its type. -/
theorem mask_fixes_dispatch : ∀ r ∈ opcodeMap,
    r.mask = 0xFFFF ∨ (r.mask = 0xF000 ∧ (fieldType r.value).val ∉ [0, 5, 8, 9, 14, 15]) ∨
    (r.mask = 0xF00F ∧ (fieldType r.value).val ∈ [5, 8, 9]) ∨
    (r.mask = 0xF0FF ∧ (fieldType r.value).val ∈ [14, 15]) := by decide

theorem sameDispatch_of_accepts {r : OpcodeRow} (hr : r ∈ opcodeMap) {w : Word} (h : r.accepts w = true) :
    SameDispatch w r.value := by
  obtain ⟨rule, mask, v⟩ := r
  have sameType (e : w.toNat / 4096 = v.toNat / 4096) : fieldType w = fieldType v :=
    Fin.ext (by rw [fieldType_val, fieldType_val, e])
  have hv := v.isLt
  obtain rfl | ⟨rfl, ht⟩ | ⟨rfl, ht⟩ | ⟨rfl, ht⟩ := mask_fixes_dispatch _ hr
  · obtain rfl := BitVec.eq_of_toNat_eq ((accepts_FFFF rule v w).1 h)
    exact ⟨rfl, fun _ => rfl, fun _ => rfl, fun _ => rfl⟩
  · have e := (accepts_F000 rule v w).1 h
    refine ⟨sameType (by omega), fun h0 => ?_, fun hd => ?_, fun hb => ?_⟩
    · simp [h0] at ht
    · grind
    · grind
  · have e := (accepts_F00F rule v w).1 h
    refine ⟨sameType (by omega), fun h0 => ?_, fun _ => Fin.ext ?_, fun hb => ?_⟩
    · simp [h0] at ht
    · show (fieldN w).val = (fieldN v).val
      rw [fieldN_val, fieldN_val]; omega
    · grind
  · have e := (accepts_F0FF rule v w).1 h
    refine ⟨sameType (by omega), fun h0 => ?_, fun hd => ?_, fun _ => BitVec.eq_of_toNat_eq ?_⟩
    · simp [h0] at ht
    · grind
    · show (fieldNn w).toNat = (fieldNn v).toNat
      rw [fieldNn_toNat, fieldNn_toNat]; omega

theorem rule_decodeWord_value : ∀ r ∈ opcodeMap, (decodeWord r.value).rule = r.rule := by decide

/-- A word that a row accepts decodes to that row's instruction. -/
theorem rule_decodeWord_of_accepts {r : OpcodeRow} (hr : r ∈ opcodeMap) {w : Word} (h : r.accepts w = true) :
    (decodeWord w).rule = r.rule :=
  (sameDispatch_of_accepts hr h).rule_eq.trans (rule_decodeWord_value r hr)

/-- Each row has a rule of its own, and none is the no-op's. -/
theorem opcodeMap_rule_injective : ∀ r ∈ opcodeMap, ∀ r' ∈ opcodeMap, r.rule = r'.rule → r = r' := by decide

theorem opcodeMap_rule_ne_nop : ∀ r ∈ opcodeMap, r.rule ≠ 122 := by decide

/-! ## The words no row accepts -/

theorem exists_accepts_of_recognized {w : Word} (h : recognized w = true) : ∃ r ∈ opcodeMap, r.accepts w = true :=
  List.any_eq_true.1 h

theorem recognized_eq_false_iff (w : Word) : recognized w = false ↔ ∀ r ∈ opcodeMap, r.accepts w = false := by
  simp [recognized]

/-- A recognized word is not decoded to the no-op. -/
theorem decodeWord_wf (w : Word) : (decodeWord w).wf = true := by
  have he := encode_decodeWord w
  cases hi : decodeWord w with
  | nop u =>
    obtain rfl : u = w := by rw [hi] at he; exact he
    rw [Instr.wf, Bool.not_eq_true', ← Bool.not_eq_true]
    intro hrec
    obtain ⟨r, hr, ha⟩ := exists_accepts_of_recognized hrec
    have hrule := rule_decodeWord_of_accepts hr ha
    rw [hi] at hrule
    exact opcodeMap_rule_ne_nop r hr hrule.symm
  | _ => rfl

/-- The statement of `Laws.MatchesRow` for every instruction. -/
theorem matchesRow (i : Instr) : Laws.MatchesRow.Statement i := by
  cases i with
  | cls => exact Laws.MatchesRow.cls
  | ret => exact Laws.MatchesRow.ret
  | jp nnn => exact Laws.MatchesRow.jp nnn
  | call nnn => exact Laws.MatchesRow.call nnn
  | seImm x nn => exact Laws.MatchesRow.seImm x nn
  | sneImm x nn => exact Laws.MatchesRow.sneImm x nn
  | seReg x y => exact Laws.MatchesRow.seReg x y
  | ldImm x nn => exact Laws.MatchesRow.ldImm x nn
  | addImm x nn => exact Laws.MatchesRow.addImm x nn
  | ldReg x y => exact Laws.MatchesRow.ldReg x y
  | orReg x y => exact Laws.MatchesRow.orReg x y
  | andReg x y => exact Laws.MatchesRow.andReg x y
  | xorReg x y => exact Laws.MatchesRow.xorReg x y
  | addReg x y => exact Laws.MatchesRow.addReg x y
  | subReg x y => exact Laws.MatchesRow.subReg x y
  | shr x y => exact Laws.MatchesRow.shr x y
  | subnReg x y => exact Laws.MatchesRow.subnReg x y
  | shl x y => exact Laws.MatchesRow.shl x y
  | sneReg x y => exact Laws.MatchesRow.sneReg x y
  | ldI nnn => exact Laws.MatchesRow.ldI nnn
  | jpV0 nnn => exact Laws.MatchesRow.jpV0 nnn
  | rnd x nn => exact Laws.MatchesRow.rnd x nn
  | drw x y n => exact Laws.MatchesRow.drw x y n
  | skp x => exact Laws.MatchesRow.skp x
  | sknp x => exact Laws.MatchesRow.sknp x
  | ldVxDt x => exact Laws.MatchesRow.ldVxDt x
  | ldVxK x => exact Laws.MatchesRow.ldVxK x
  | ldDtVx x => exact Laws.MatchesRow.ldDtVx x
  | ldStVx x => exact Laws.MatchesRow.ldStVx x
  | addI x => exact Laws.MatchesRow.addI x
  | ldF x => exact Laws.MatchesRow.ldF x
  | ldB x => exact Laws.MatchesRow.ldB x
  | storeRegs x => exact Laws.MatchesRow.storeRegs x
  | loadRegs x => exact Laws.MatchesRow.loadRegs x
  | nop w => exact Laws.MatchesRow.nop w

theorem eq_nop_of_rule {i : Instr} (h : i.rule = 122) : i = .nop (encode i) := by
  cases i with
  | nop w => rfl
  | _ => cases h

/-- R96: a word no row accepts is the no-op, with its raw word. -/
theorem decodeWord_of_not_recognized {w : Word} (h : recognized w = false) : decodeWord w = .nop w := by
  have he := encode_decodeWord w
  have hn : (decodeWord w).rule = 122 := by
    obtain ⟨r, hr, -, ha⟩ | ⟨hn, -⟩ := matchesRow (decodeWord w) (decodeWord_wf w)
    · rw [he, (recognized_eq_false_iff w).1 h r hr] at ha
      cases ha
    · exact hn
  have := eq_nop_of_rule hn
  rwa [he] at this

/-! ## The obligations -/

/-- Settles O1, by running the decoder on the eleven words. -/
theorem sampleWordsDecode : Obligations.SampleWordsDecode := by
  unfold Obligations.SampleWordsDecode
  decide

/-- Settles O3: each branch of the decoder encodes to the word its fields came from, and the no-op is answered only for a word
that no row accepts. -/
theorem encodeOfDecodeIsTheWord : Obligations.EncodeOfDecodeIsTheWord := by
  intro w
  exact ⟨decodeWord_wf w, encode_decodeWord w⟩

/-- Settles O4: a row's mask fixes what the decoder dispatches on, and no two rows have the same rule. -/
theorem decoderFollowsTheOpcodeMap : Obligations.DecoderFollowsTheOpcodeMap := by
  intro w
  refine ⟨fun r hr => rule_decodeWord_of_accepts hr, fun h => ?_, fun r hr r' hr' h h' => ?_⟩
  · exact decodeWord_of_not_recognized ((recognized_eq_false_iff w).2 h)
  · refine opcodeMap_rule_injective r hr r' hr' ?_
    rw [← rule_decodeWord_of_accepts hr h, rule_decodeWord_of_accepts hr' h']

theorem decodeWord_encode {i : Instr} (h : i.wf = true) : decodeWord (encode i) = i := by
  cases i with
  | nop w => exact decodeWord_of_not_recognized (by simpa [Instr.wf, encode] using h)
  | cls | ret => decide
  | _ => simp [encode, decodeWord, decodeAlu, decodeKey, decodeMisc]

/-- Settles O2: the fields of an encoded word are the instruction's own; the no-op's word is one no row accepts. -/
theorem decodeOfEncodeIsTheInstruction : Obligations.DecodeOfEncodeIsTheInstruction := by
  intro i h
  refine ⟨decodeWord_encode h, fun rest => ?_⟩
  show Except.ok (decodeWord (wordOfBytes (highByte (encode i)) (lowByte (encode i))), rest) = .ok (i, rest)
  rw [Machine.wordOfBytes_high_low, decodeWord_encode h]

end Sys2Proof
end

section
/-! PROOFS. spec/20_memory.md: reading after writing (R67, R70) and memory as data (R28). Both are laws of Laws/Memory.lean; a
canonical memory lists just the cells that do not read as unlisted, in rising order. -/

namespace Sys2Proof.Machine

/-- Settles O5: `read_write` and `wf_write`. -/
theorem memoryReadsTheLastWrite : Obligations.MemoryReadsTheLastWrite := by
  intro m a a' b hm
  exact ⟨Memory.read_write hm.1 a b a', fun ha => Memory.wf_write hm ha b⟩

/-- Outside the memory all canonical memories read alike. -/
theorem Memory.read_eq_of_inside {m m' : Memory} (hm : m.wf) (hm' : m'.wf)
    (h : ∀ a, a < Config.memSize → m.read a = m'.read a) (a : Nat) : m.read a = m'.read a := by
  by_cases ha : a < Config.memSize
  · exact h a ha
  · rw [Memory.read_outside hm (not_lt.1 ha), Memory.read_outside hm' (not_lt.1 ha)]

theorem cell_lt_irrefl : Std.Irrefl fun c d : Host.Cell => c.1 < d.1 := ⟨fun c => lt_irrefl c.1⟩

/-- Settles O6: memories that read alike list the same cells, and the order of the cells is fixed by their addresses. -/
theorem canonicalMemoriesThatReadAlikeAreEqual : Obligations.CanonicalMemoriesThatReadAlikeAreEqual := by
  intro m m' hm hm' h
  have alike := Memory.read_eq_of_inside hm hm' h
  have := cell_lt_irrefl
  refine List.Pairwise.eq_of_mem_iff hm.1 hm'.1 fun c => ?_
  rw [Memory.mem_iff_read hm, Memory.mem_iff_read hm', alike]

end Sys2Proof.Machine
end

section
/-! PROOFS. spec/70_reset_and_hazards.md: the state after reset, without an image (R39) and with one (R300 to R302). -/

namespace Sys2Proof.Machine

/-! ## Memory that nothing has written -/

theorem unlisted_font (j : Nat) : Memory.unlisted (0x050 + j) = Config.font.getD j 0 := by
  rw [Memory.unlisted, if_pos (Nat.le_add_right _ _), Nat.add_sub_cancel_left]

theorem unlisted_outside_font {a : Nat} (h : a < 0x050 ∨ 0x0A0 ≤ a) : Memory.unlisted a = 0 := by
  unfold Memory.unlisted
  split
  · next hb =>
    have hlen : Config.font.length ≤ a - Config.fontBase := by
      show 80 ≤ a - 0x050
      have : 0x050 ≤ a := hb
      omega
    exact List.getD_eq_default _ _ hlen
  · rfl

/-! ## Reset without an image -/

theorem replicate_get {α : Type} {n : Nat} (x : α) (i : Fin n) : (Vector.replicate n x).get i = x := by
  simp [Vector.get_eq_getElem]

theorem reset_reg (r : Reg) : State.reset.reg r = 0 := replicate_get 0 r
theorem reset_row (r : Fin 32) : State.reset.row r = 0 := replicate_get 0 r
theorem reset_held (k : Key) : State.reset.held k = false := replicate_get false k

/-- Settles O7: each field is read off `State.reset`; memory lists no cell, so it reads as the font and 0x00. -/
theorem resetState : Obligations.ResetState := by
  have font (j : Nat) (_ : j < 80) : State.reset.byteAt (0x050 + j) = Config.font.getD j 0 := unlisted_font j
  have blank (a : Nat) (h : a < 0x050 ∨ 0x0A0 ≤ a) : State.reset.byteAt a = 0 := unlisted_outside_font h
  exact ⟨reset_reg, rfl, rfl, rfl, rfl, rfl, font, blank, reset_row, reset_held, rfl, rfl, rfl, rfl, rfl, rfl, rfl, rfl⟩

/-- An engine that neither waits nor has faulted meets the invariant by its memory and its stack pointer. -/
theorem inv_of_idle {s : State} (hm : s.mem.wf) (hsp : s.sp.toNat % 2 = 0) (hw : s.waitingForKey = false)
    (hf : s.faulted = none) : Inv s := by
  refine ⟨hm, hsp, fun h => ?_, ?_⟩
  · rw [hw] at h; cases h
  · unfold FaultHasItsCause; rw [hf]; trivial

/-- Settles O9: nothing is listed, `sp` is 0x200, nothing waits and nothing has faulted. -/
theorem resetMeetsTheInvariant : Obligations.ResetMeetsTheInvariant :=
  inv_of_idle Memory.wf_nil rfl rfl rfl

/-! ## Reset with an image -/

/-- The memory after reset with a font and an image (R300, R301). -/
def bootMemory (font image : List Byte) : Memory := (Memory.load [] Config.fontBase font).load Config.progBase.toNat image

theorem boot_inside {font image : List Byte} (yWrap : Bool) (hf : font.length = 80) (hi : image.length ≤ 3584) :
    State.boot font yWrap image =
      some { State.reset with mem := bootMemory font image, yWrapEnabled := yWrap } :=
  if_pos ⟨hf, hi⟩

theorem boot_too_long {font image : List Byte} (yWrap : Bool) (hi : 3584 < image.length) :
    State.boot font yWrap image = none :=
  if_neg fun h => absurd h.2 (not_le.2 hi)

theorem bootMemory_wf {font image : List Byte} (hf : font.length = 80) (hi : image.length ≤ 3584) :
    (bootMemory font image).wf := by
  refine Memory.wf_load (Memory.wf_load Memory.wf_nil font ?_) image ?_
  · show 0x050 + font.length ≤ 4096; omega
  · show 0x200 + image.length ≤ 4096; omega

/-- The image at 0x200, else the font at 0x050, else what was never written. -/
theorem bootMemory_read {font image : List Byte} (hf : font.length = 80) (a : Nat) :
    (bootMemory font image).read a =
      if 0x200 ≤ a ∧ a < 0x200 + image.length then image.getD (a - 0x200) 0
      else if 0x050 ≤ a ∧ a < 0x0A0 then font.getD (a - 0x050) 0 else Memory.unlisted a := by
  have hs : (Memory.load [] Config.fontBase font).sorted :=
    (Memory.wf_load Memory.wf_nil font (by show 0x050 + font.length ≤ 4096; omega)).1
  rw [bootMemory, Memory.read_load hs, Memory.read_load .nil, hf]
  rfl

/-- Settles O8: the memory is the font and then the image loaded into an empty one; the rest is `State.reset`. -/
theorem bootPlacesFontAndImage : Obligations.BootPlacesFontAndImage := by
  intro font image yWrap hf
  have spEven : State.reset.sp.toNat % 2 = 0 := rfl
  refine ⟨fun hi => ⟨_, boot_inside yWrap hf hi, fun j hj => ?_, fun j hj => ?_, fun a ha => ?_, rfl, rfl, rfl, reset_reg,
    inv_of_idle (bootMemory_wf hf hi) spEven rfl rfl⟩, boot_too_long yWrap⟩
  · refine (bootMemory_read hf (0x200 + j)).trans ?_
    rw [if_pos (by omega), Nat.add_sub_cancel_left]
  · refine (bootMemory_read hf (0x050 + j)).trans ?_
    rw [if_neg (by omega), if_pos (by omega), Nat.add_sub_cancel_left]
  · refine (bootMemory_read hf a).trans ?_
    rw [if_neg (by omega), if_neg (by omega), unlisted_outside_font (by omega)]

end Sys2Proof.Machine
end

section
/-! PROOFS. spec/10_state.md section 9: every step keeps the invariant (R41 b, c; R250). The case that matters is an executed
instruction: any but Fx0A runs only when the engine does not wait, so nothing is asked of where it leaves `pc`; Fx0A goes back
to the word it was fetched from, or stops waiting. -/

namespace Sys2Proof.Machine

/-! ## The parts of the invariant -/

theorem even_add_two {w : Word} (h : w.toNat % 2 = 0) : (w + 2).toNat % 2 = 0 := by
  rw [BitVec.toNat_add]
  show (w.toNat + 2) % 65536 % 2 = 0
  omega

theorem even_sub_two {w : Word} (h : w.toNat % 2 = 0) : (w - 2).toNat % 2 = 0 := by
  rw [BitVec.toNat_sub]
  show (65536 - 2 + w.toNat) % 65536 % 2 = 0
  omega

/-- Taking a fault with a real cause keeps the rest of the invariant. -/
theorem Inv.raise {s : State} (h : Inv s) {c : FaultCause} (hc : CauseIsReal c) : Inv (raise c s) := by
  obtain ⟨hm, hsp, hw, -⟩ := h
  refine ⟨hm, hsp, hw, ?_⟩
  cases c with
  | memoryOutOfRange a => exact hc
  | keyIndexOutOfRange k => exact hc

/-! ## An executed instruction -/

/-- A state in which an instruction is executed: it is the word two bytes below `pc`, and a waiting engine executes Fx0A. -/
structure Executing (i : Instr) (s : State) : Prop where
  mem       : s.mem.wf
  spEven    : s.sp.toNat % 2 = 0
  unfaulted : s.faulted = none
  decoded   : decodeWord s.currentOpcode = i
  inside    : (s.pc - 2).toNat + 1 < Config.memSize
  fetched   : s.wordAt (s.pc - 2).toNat = s.currentOpcode
  waits     : s.waitingForKey = true → ∃ x, i = .ldVxK x

theorem Executing.idle {i : Instr} {s : State} (h : Executing i s) (hi : ∀ x, i ≠ .ldVxK x) : s.waitingForKey = false := by
  rw [← Bool.not_eq_true]
  intro hw
  obtain ⟨x, e⟩ := h.waits hw
  exact hi x e

/-- What the tick makes of a state before it executes the instruction at `pc`. -/
theorem executing_beforeExecute {s : State} (h : Inv s) (hr : s.runsInstruction) :
    Executing s.instructionAtPc s.beforeExecute := by
  obtain ⟨hm, hsp, hw, -⟩ := h
  obtain ⟨⟨hf, -⟩, -, -, hp⟩ := hr
  have back : s.beforeExecute.pc - 2 = s.pc := BitVec.add_sub_cancel s.pc 2
  refine ⟨hm, hsp, hf, rfl, by rwa [back], by rw [back]; rfl, fun hwait => ?_⟩
  obtain ⟨⟨x, hx⟩, -, hword⟩ := hw hwait
  exact ⟨x, (congrArg decodeWord hword).trans hx⟩

/-- Fx0A that goes back to itself waits where the invariant asks for it. -/
theorem Executing.inv_rewind {x : Reg} {s u : State} (h : Executing (.ldVxK x) s) (hm : u.mem = s.mem) (hsp : u.sp = s.sp)
    (hf : u.faulted = s.faulted) (ho : u.currentOpcode = s.currentOpcode) (hpc : u.pc = s.pc - 2) : Inv u := by
  refine ⟨hm ▸ h.mem, hsp ▸ h.spEven, fun _ => ⟨⟨x, ho ▸ h.decoded⟩, hpc ▸ h.inside, ?_⟩, ?_⟩
  · show wordOfBytes (u.mem.read _) (u.mem.read _) = _
    rw [hm, ho, hpc]
    exact h.fetched
  · unfold FaultHasItsCause
    rw [hf, h.unfaulted]
    trivial

theorem Effect.inv {i : Instr} {s u : State} (h : Executing i s) (he : Effect i s u) : Inv u := by
  have idle (hi : ∀ x, i ≠ .ldVxK x) {u : State} (hm : u.mem.wf) (hsp : u.sp.toNat % 2 = 0)
      (hw : u.waitingForKey = s.waitingForKey) (hf : u.faulted = s.faulted) : Inv u :=
    inv_of_idle hm hsp (hw.trans (h.idle hi)) (hf.trans h.unfaulted)
  have mem := h.mem
  have even := h.spEven
  cases i with
  | cls | nop => subst he; exact idle (by simp) mem even rfl rfl
  | ret =>
    obtain rfl | ⟨p, rfl⟩ := he
    · exact idle (by simp) mem even rfl rfl
    · exact idle (by simp) mem (even_add_two even) rfl rfl
  | call =>
    obtain ⟨m, p, rfl, hm⟩ := he
    exact idle (by simp) (hm mem) (even_sub_two even) rfl rfl
  | ldB | storeRegs =>
    obtain ⟨m, rfl, hm⟩ := he
    exact idle (by simp) (hm mem) even rfl rfl
  | ldImm | addImm | ldReg | orReg | andReg | xorReg | addReg | subReg | shr | subnReg | shl | ldVxDt | loadRegs =>
    obtain ⟨⟨v, rfl⟩, -⟩ := he
    exact idle (by simp) mem even rfl rfl
  | drw =>
    obtain ⟨⟨v, d, rfl⟩, -⟩ := he
    exact idle (by simp) mem even rfl rfl
  | ldVxK x =>
    obtain ⟨-, rfl⟩ | ⟨-, rfl | ⟨k, rfl⟩⟩ := he
    · exact h.inv_rewind rfl rfl rfl rfl rfl
    · exact h.inv_rewind rfl rfl rfl rfl rfl
    · exact inv_of_idle mem even rfl h.unfaulted
  | _ =>
    obtain ⟨w, rfl⟩ := he
    exact idle (by simp) mem even rfl rfl

/-- An instruction keeps the invariant, whether it faults or not. -/
theorem exec_inv {i : Instr} {s t : State} (h : Executing i s) (ht : exec i s = .next t) : Inv t := by
  obtain ⟨u, hu, rfl | ⟨c, hc, rfl⟩⟩ := exec_cases ht
  · exact hu.inv h
  · exact (hu.inv h).raise hc.isReal

/-! ## The other step kinds -/

/-- No device writes what the invariant speaks of, but for `Shutdown`, which leaves the reset state's fields. -/
theorem deviceStep_inv {s : State} (h : Inv s) (k : StepKind) : Inv (deviceStep k s) := by
  cases k with
  | instrTick | timerTick | keyDown | keyUp => exact h
  | debugSet flag b =>
    cases flag with
    | stepMode => exact h
    | advance => exact h
  | shutdown => exact resetMeetsTheInvariant

/-! ## The obligation -/

/-- Settles O10, over every way a step can answer (`step_cases`). -/
theorem everyStepKeepsTheInvariant : Obligations.EveryStepKeepsTheInvariant := by
  intro s t h hst
  have popped : Inv (popSchedule s) := h
  obtain ⟨-, rfl | ⟨-, -, rfl⟩ | ⟨-, a, ha, rfl⟩ | ⟨hr, ht⟩ | ⟨-, -, rfl⟩⟩ := step_cases hst
  · exact popped
  · exact popped
  · exact Inv.raise (s := (popSchedule s).setAdvance false) popped ha
  · exact exec_inv (executing_beforeExecute h hr) ht
  · exact deviceStep_inv popped _

end Sys2Proof.Machine
end

section
/-! PROOFS. The frame of each named update of the state that no section before this one needed, each said once, and how the
frames of two updates in a row compose. -/

namespace Sys2Proof.Machine

/-! ## Composing frames -/

/-- What two updates in a row leave is what neither of them names. -/
theorem SameBut.append {ps qs : List Part} {s t u : State} (h : SameBut ps s t) (h' : SameBut qs t u) :
    SameBut (ps ++ qs) s u :=
  (h.mono fun _ hp => List.mem_append_left _ hp).trans (h'.mono fun _ hq => List.mem_append_right _ hq)

theorem SameBut.refl (s : State) : SameBut [] s s := by simp [SameBut, SameStores, SameControl, SameEnvironment]

/-! ## One update each -/

section
variable (s : State)

theorem sameBut_setSp (w : Word) : SameBut [.sp] s (s.setSp w) := by
  simp [SameBut, SameStores, SameControl, SameEnvironment]

theorem sameBut_setDt (b : Byte) : SameBut [.dt] s (s.setDt b) := by
  simp [SameBut, SameStores, SameControl, SameEnvironment]

theorem sameBut_setSt (b : Byte) : SameBut [.st] s (s.setSt b) := by
  simp [SameBut, SameStores, SameControl, SameEnvironment]

theorem sameBut_setOpcode (w : Word) : SameBut [.opcode] s (s.setOpcode w) := by
  simp [SameBut, SameStores, SameControl, SameEnvironment]

theorem sameBut_setAdvance (b : Bool) : SameBut [.advance] s (s.setAdvance b) := by
  simp [SameBut, SameStores, SameControl, SameEnvironment]

theorem sameBut_setStepMode (b : Bool) : SameBut [.stepMode] s (s.setStepMode b) := by
  simp [SameBut, SameStores, SameControl, SameEnvironment]

theorem sameBut_setHeld (k : Key) (b : Bool) : SameBut [.key k] s (s.setHeld k b) := by
  have others (l : Key) (h : .key l ∉ [Part.key k]) : (s.setHeld k b).held l = s.held l := by
    rw [setHeld_held, if_neg (by simpa using h)]
  refine ⟨⟨fun _ _ => rfl, fun _ _ => rfl, fun _ _ => rfl, others⟩, ?_⟩
  simp [SameControl, SameEnvironment]

theorem sameBut_enterWaiting : SameBut [.waiting, .captured] s s.enterWaiting := by
  simp [SameBut, SameStores, SameControl, SameEnvironment]

theorem sameBut_leaveWaiting : SameBut [.waiting, .captured, .keyInput, .picks] s s.leaveWaiting := by
  simp [SameBut, SameStores, SameControl, SameEnvironment]

theorem sameBut_countDraw : SameBut [.randomInput, .draws] s s.countDraw := by
  simp [SameBut, SameStores, SameControl, SameEnvironment]

theorem sameBut_raise (c : FaultCause) : SameBut [.faulted] s (raise c s) := by
  simp [SameBut, SameStores, SameControl, SameEnvironment]

theorem sameBut_popSchedule : SameBut [.schedule] s (popSchedule s) := by
  simp [SameBut, SameStores, SameControl, SameEnvironment]

theorem sameBut_emit (os : List Output) : SameBut [.emitted] s (s.emit os) := by
  simp [SameBut, SameStores, SameControl, SameEnvironment]

theorem sameBut_setTone (b : Bool) : SameBut [.tone] s (s.setTone b) := by
  simp [SameBut, SameStores, SameControl, SameEnvironment]

theorem sameBut_tickTimers : SameBut [.dt, .st] s s.tickTimers := by
  simp [SameBut, SameStores, SameControl, SameEnvironment]

theorem sameBut_endRun : SameBut [.shutDown] s s.endRun := by
  simp [SameBut, SameStores, SameControl, SameEnvironment]

/-- A block store leaves every byte outside the block. -/
theorem sameBut_setBytes {s : State} (hs : s.mem.wf) (a : Nat) (bs : List Byte) :
    SameBut (cellsFrom a bs.length) s (s.setBytes a bs) := by
  have outside (b : Nat) (h : .cell b ∉ cellsFrom a bs.length) : (s.setBytes a bs).byteAt b = s.byteAt b := by
    rw [setBytes_byteAt hs, if_neg (by simpa using h)]
  refine ⟨⟨fun _ _ => rfl, outside, fun _ _ => rfl, fun _ _ => rfl⟩, ?_⟩
  simp [SameControl, SameEnvironment, State.setBytes]

/-- Registers outside a list are left by a change of the registers in it. -/
theorem sameBut_regs (v : Vector Byte 16) {rs : List Reg} (h : ∀ r, r ∉ rs → v.get r = s.reg r) :
    SameBut (rs.map .reg) s { s with v := v } := by
  have others (r : Reg) (hr : .reg r ∉ rs.map Part.reg) : State.reg { s with v := v } r = s.reg r :=
    h r fun hm => hr (List.mem_map_of_mem hm)
  refine ⟨⟨others, fun _ _ => rfl, fun _ _ => rfl, fun _ _ => rfl⟩, ?_⟩
  simp [SameControl, SameEnvironment]

end

end Sys2Proof.Machine
end

section
/-! PROOFS. spec/41_control_flow.md: register comparisons (R147, R148), JP V0 (R143) and the stack (R141, R142, R149). CALL and RET
are one equation each for a stack inside memory, and one each for where they leave it. -/

namespace Sys2Proof.Machine

/-! ## The words -/

theorem decodeWord_type5 (x y : Reg) (n : Fin 16) : decodeWord (wordOfNibbles 0x5 x y n) =
    if n = 0 then .seReg x y else .nop (wordOfNibbles 0x5 x y n) := by
  simp [decodeWord]

theorem decodeWord_type9 (x y : Reg) (n : Fin 16) : decodeWord (wordOfNibbles 0x9 x y n) =
    if n = 0 then .sneReg x y else .nop (wordOfNibbles 0x9 x y n) := by
  simp [decodeWord]

/-! ## Comparisons and JP V0 -/

theorem exec_seReg (x y : Reg) (s : State) : exec (.seReg x y) s = .next (skipIf (s.reg x == s.reg y) s) := rfl

theorem exec_sneReg (x y : Reg) (s : State) : exec (.sneReg x y) s = .next (skipIf (s.reg x != s.reg y) s) := rfl

/-- Settles O16: both meanings are a `skipIf` on the condition. -/
theorem registerComparisonsSkip : Obligations.RegisterComparisonsSkip := by
  intro x y s
  refine ⟨fun n => ⟨decodeWord_type5 x y n, decodeWord_type9 x y n⟩, ?_, ?_⟩
  · refine ⟨_, exec_seReg x y s, ?_, skipIf_sameBut _ s⟩
    simp only [skipIf_pc, beq_iff_eq]
  · refine ⟨_, exec_sneReg x y s, ?_, skipIf_sameBut _ s⟩
    simp only [skipIf_pc, bne_iff_ne]

theorem exec_jpV0 (nnn : BitVec 12) (s : State) :
    exec (.jpV0 nnn) s = .next (s.setPc (widen (s.reg 0) + addressOf nnn)) := rfl

/-- Settles O17: a byte and a 12-bit address never overflow 16 bits. -/
theorem jumpV0AddsV0 : Obligations.JumpV0AddsV0 := by
  intro nnn s
  refine ⟨_, exec_jpV0 nnn s, ?_, sameBut_setPc s _⟩
  have := (s.reg 0).isLt
  have := nnn.isLt
  rw [setPc_pc, BitVec.toNat_add, widen_toNat, addressOf_toNat]
  omega

/-! ## The stack inside memory -/

theorem exec_ret_inside {s : State} (h : s.sp.toNat + 1 < 4096) :
    exec .ret s = .next ((s.setPc (s.wordAt s.sp.toNat)).setSp (s.sp + 2)) :=
  congrArg (fun a => finish (andThen a _)) (memRead2_inside h)

theorem exec_call_inside (nnn : BitVec 12) {s : State} (h : (s.sp - 2).toNat + 1 < 4096) :
    exec (.call nnn) s = .next
      (((s.setSp (s.sp - 2)).setBytes (s.sp - 2).toNat [highByte s.pc, lowByte s.pc]).setPc (addressOf nnn)) :=
  congrArg (fun a => finish (andThen a _)) (storeBytes_inside (bs := [highByte s.pc, lowByte s.pc]) h)

/-- The two bytes of a word stored at an address. -/
theorem setBytes_word {s : State} (hs : s.mem.wf) (a : Nat) (w : Word) :
    (s.setBytes a [highByte w, lowByte w]).byteAt a = highByte w ∧
      (s.setBytes a [highByte w, lowByte w]).byteAt (a + 1) = lowByte w := by
  rw [setBytes_byteAt hs, setBytes_byteAt hs, if_pos (by simp), if_pos (by simp), Nat.sub_self, Nat.add_sub_cancel_left]
  exact ⟨rfl, rfl⟩

/-- Settles O18: the two bytes pushed are the bytes of `pc`. -/
theorem callPushesAndJumps : Obligations.CallPushesAndJumps := by
  intro nnn s hm h
  obtain ⟨high, low⟩ := setBytes_word (s := s.setSp (s.sp - 2)) hm (s.sp - 2).toNat s.pc
  have moved := sameBut_setSp s (s.sp - 2)
  have pushed := sameBut_setBytes (s := s.setSp (s.sp - 2)) hm (s.sp - 2).toNat [highByte s.pc, lowByte s.pc]
  have jumped := sameBut_setPc ((s.setSp (s.sp - 2)).setBytes (s.sp - 2).toNat [highByte s.pc, lowByte s.pc])
    (addressOf nnn)
  refine ⟨_, exec_call_inside nnn h, rfl, ?_, ?_, addressOf_toNat nnn, ?_⟩
  · rw [setPc_byteAt, high, highByte_toNat]
  · rw [setPc_byteAt, low, lowByte_toNat]
  · exact ((moved.mono (by simp)).trans (pushed.mono fun _ => List.mem_append_right _)).trans (jumped.mono (by simp))

/-- Settles O19: the word read at `sp` goes to `pc` whole. -/
theorem returnPops : Obligations.ReturnPops := by
  intro s h
  refine ⟨_, exec_ret_inside h, ?_, rfl, ?_⟩
  · rw [setSp_pc, setPc_pc, State.wordAt, wordOfBytes_toNat]
  · exact ((sameBut_setPc s _).append (sameBut_setSp _ _)).mono (by simp)

/-- RET after CALL: the state CALL was executed in, with its `pc` left below the stack. -/
theorem exec_ret_after_call (nnn : BitVec 12) {s t : State} (hm : s.mem.wf) (h : (s.sp - 2).toNat + 1 < 4096)
    (ht : exec (.call nnn) s = .next t) :
    exec .ret t = .next (s.setBytes (s.sp - 2).toNat [highByte s.pc, lowByte s.pc]) := by
  rw [exec_call_inside nnn h] at ht
  cases ht
  generalize hp : (s.setSp (s.sp - 2)).setBytes (s.sp - 2).toNat [highByte s.pc, lowByte s.pc] = pushed
  have word : (pushed.setPc (addressOf nnn)).wordAt (s.sp - 2).toNat = s.pc := by
    obtain ⟨high, low⟩ := setBytes_word (s := s.setSp (s.sp - 2)) hm (s.sp - 2).toNat s.pc
    rw [hp] at high low
    rw [State.wordAt, setPc_byteAt, setPc_byteAt, high, low, wordOfBytes_high_low]
  have sp : (pushed.setPc (addressOf nnn)).sp = s.sp - 2 := by rw [← hp]; rfl
  rw [exec_ret_inside (by rw [sp]; exact h), sp, word, BitVec.sub_add_cancel, ← hp]
  rfl

/-- Settles O20: RET reads back the word CALL has stored, and `sp` returns to where it was. -/
theorem returnUndoesCall : Obligations.ReturnUndoesCall := by
  intro nnn s hm h
  have called := exec_call_inside nnn h
  exact ⟨_, _, called, exec_ret_after_call nnn hm h called, sameBut_setBytes hm _ [highByte s.pc, lowByte s.pc]⟩

/-! ## The stack outside memory -/

theorem exec_ret_outside {s : State} (h : 4095 ≤ s.sp.toNat) :
    exec .ret s = .next (raise (.memoryOutOfRange (if s.sp.toNat = 4095 then 0x1000 else s.sp)) s) :=
  congrArg (fun a => finish (andThen a _)) (memRead2_outside h)

/-- A push that leaves memory has moved `sp` and stored what still fits. -/
theorem exec_call_outside (nnn : BitVec 12) {s : State} (h : 4095 ≤ (s.sp - 2).toNat) :
    exec (.call nnn) s = .next
      (raise (.memoryOutOfRange (if (s.sp - 2).toNat < 4096 then 0x1000 else s.sp - 2))
        ((s.setSp (s.sp - 2)).setBytes (s.sp - 2).toNat
          ([highByte s.pc, lowByte s.pc].take (4096 - (s.sp - 2).toNat)))) :=
  congrArg (fun a => finish (andThen a _))
    (storeBytes_outside (bs := [highByte s.pc, lowByte s.pc]) (by simp) (Nat.add_le_add_right h 2))

/-- Settles O21: the four cases are where the first failing byte is. -/
theorem stackAccessFaults : Obligations.StackAccessFaults := by
  intro nnn s
  refine ⟨fun h => ?_, fun hm h => ?_, fun h => ?_, fun h => ?_⟩
  · have all : 4096 - (s.sp - 2).toNat = 0 := Nat.sub_eq_zero_of_le h
    have fault := exec_call_outside nnn (s := s) (by omega)
    rw [all, if_neg (not_lt.2 h)] at fault
    exact ⟨_, fault, rfl, rfl, (sameBut_setSp s _).append (sameBut_raise (s.setSp (s.sp - 2)) _)⟩
  · have hsp : s.sp - 2 = 0x0FFF := by rw [h]; rfl
    have fault := exec_call_outside nnn (s := s) (by rw [hsp]; decide)
    rw [hsp] at fault
    refine ⟨_, fault, rfl, ?_, rfl, ?_⟩
    · refine (congrArg BitVec.toNat (setBytes_byteAt (s := s.setSp 0x0FFF) hm 0x0FFF [highByte s.pc] 0x0FFF)).trans ?_
      exact highByte_toNat s.pc
    · have stored : SameBut [.cell 0x0FFF] (s.setSp 0x0FFF) ((s.setSp 0x0FFF).setBytes 0x0FFF [highByte s.pc]) :=
        sameBut_setBytes (s := s.setSp 0x0FFF) hm 0x0FFF [highByte s.pc]
      exact (((sameBut_setSp s _).append stored).append (sameBut_raise _ _)).mono (by simp)
  · refine ⟨_, exec_ret_outside (by omega), ?_, sameBut_raise s _⟩
    rw [if_neg (by omega)]
    rfl
  · refine ⟨_, exec_ret_outside (by rw [h]; decide), ?_, sameBut_raise s _⟩
    rw [if_pos (by rw [h]; rfl)]
    rfl

end Sys2Proof.Machine
end

section
/-! PROOFS. spec/42_alu.md: moves and logic (R163 to R166), the flag writers (R167 to R171) and RND (R172). The flag writers share
one rule: the result in `V[x]` and then the flag in VF, which stays where `x` is F (R124). -/

namespace Sys2Proof.Machine

/-! ## The words and meanings of moves and logic -/

section
variable (x y : Reg) (s : State)

theorem decodeWord_ldReg : decodeWord (wordOfNibbles 0x8 x y 0x0) = .ldReg x y :=
  decodeWord_encode (i := .ldReg x y) rfl
theorem decodeWord_orReg : decodeWord (wordOfNibbles 0x8 x y 0x1) = .orReg x y :=
  decodeWord_encode (i := .orReg x y) rfl
theorem decodeWord_andReg : decodeWord (wordOfNibbles 0x8 x y 0x2) = .andReg x y :=
  decodeWord_encode (i := .andReg x y) rfl
theorem decodeWord_xorReg : decodeWord (wordOfNibbles 0x8 x y 0x3) = .xorReg x y :=
  decodeWord_encode (i := .xorReg x y) rfl

theorem exec_ldReg : exec (.ldReg x y) s = .next (s.setReg x (s.reg y)) := rfl
theorem exec_orReg : exec (.orReg x y) s = .next (s.setReg x (s.reg x ||| s.reg y)) := rfl
theorem exec_andReg : exec (.andReg x y) s = .next (s.setReg x (s.reg x &&& s.reg y)) := rfl
theorem exec_xorReg : exec (.xorReg x y) s = .next (s.setReg x (s.reg x ^^^ s.reg y)) := rfl

end

/-- Settles O23: each meaning is one write of `V[x]`, with the bits of the operation. -/
theorem moveAndLogic : Obligations.MoveAndLogic := by
  intro x y s
  refine ⟨⟨decodeWord_ldReg x y, decodeWord_orReg x y, decodeWord_andReg x y, decodeWord_xorReg x y⟩,
    ⟨_, exec_ldReg x y s, setReg_reg_self s x _, sameBut_setReg s x _⟩,
    ⟨_, exec_orReg x y s, fun j => ?_, sameBut_setReg s x _⟩, ⟨_, exec_andReg x y s, fun j => ?_, sameBut_setReg s x _⟩,
    ⟨_, exec_xorReg x y s, fun j => ?_, sameBut_setReg s x _⟩⟩
  · rw [setReg_reg_self, BitVec.getLsbD_or]
  · rw [setReg_reg_self, BitVec.getLsbD_and]
  · rw [setReg_reg_self, BitVec.getLsbD_xor]

/-! ## A result and then the flag -/

section
variable (s : State) (x : Reg) (result : Byte) (f : Bool)

theorem setResultThenFlag_result (hx : x ≠ vf) : (s.setResultThenFlag x result f).reg x = result := by
  rw [setResultThenFlag_eq, setReg_reg, if_neg hx, setReg_reg_self]

theorem setResultThenFlag_flag : (s.setResultThenFlag x result f).reg vf = flagByte f := by
  rw [setResultThenFlag_eq, setReg_reg_self]

theorem sameBut_setResultThenFlag : SameBut [.reg x, .reg vf] s (s.setResultThenFlag x result f) := by
  rw [setResultThenFlag_eq]
  exact (sameBut_setReg s x result).append (sameBut_setReg _ vf _)

end

section
variable (x y : Reg) (s : State)

theorem exec_addReg : exec (.addReg x y) s =
    .next (s.setResultThenFlag x (s.reg x + s.reg y) (carry (s.reg x) (s.reg y))) := rfl
theorem exec_subReg : exec (.subReg x y) s =
    .next (s.setResultThenFlag x (s.reg x - s.reg y) (noBorrow (s.reg x) (s.reg y))) := rfl
theorem exec_subnReg : exec (.subnReg x y) s =
    .next (s.setResultThenFlag x (s.reg y - s.reg x) (noBorrow (s.reg y) (s.reg x))) := rfl
theorem exec_shr : exec (.shr x y) s = .next (s.setResultThenFlag x (s.reg x >>> 1) (lowBit (s.reg x))) := rfl
theorem exec_shl : exec (.shl x y) s = .next (s.setResultThenFlag x (s.reg x <<< 1) (highBit (s.reg x))) := rfl

end

/-- A difference of bytes, and the flag that goes with it. -/
theorem subtract_spec (s : State) (x : Reg) (a b : Byte) :
    (x ≠ vf → ((s.setResultThenFlag x (a - b) (noBorrow a b)).reg x).toNat = (a.toNat + 256 - b.toNat) % 256) ∧
    (s.setResultThenFlag x (a - b) (noBorrow a b)).reg vf = (if b.toNat ≤ a.toNat then 1 else 0) ∧
    SameBut [.reg x, .reg vf] s (s.setResultThenFlag x (a - b) (noBorrow a b)) := by
  refine ⟨fun hx => ?_, ?_, sameBut_setResultThenFlag ..⟩
  · have := b.isLt
    rw [setResultThenFlag_result _ _ _ _ hx, BitVec.toNat_sub]
    show (256 - b.toNat + a.toNat) % 256 = _
    omega
  · rw [setResultThenFlag_flag, noBorrow_eq, flagByte_decide]

/-- Settles O24: SUB and SUBN are one rule with the operands in either order. -/
theorem addAndSubtractWithFlag : Obligations.AddAndSubtractWithFlag := by
  intro x y s
  refine ⟨⟨_, exec_addReg x y s, fun hx => ?_, ?_, sameBut_setResultThenFlag ..⟩,
    ⟨_, exec_subReg x y s, subtract_spec s x (s.reg x) (s.reg y)⟩,
    ⟨_, exec_subnReg x y s, subtract_spec s x (s.reg y) (s.reg x)⟩⟩
  · rw [setResultThenFlag_result _ _ _ _ hx, BitVec.toNat_add]
  · rw [setResultThenFlag_flag, carry_eq, flagByte_decide]

/-- Settles O25: neither meaning reads `V[y]`. -/
theorem shiftsMoveOneBit : Obligations.ShiftsMoveOneBit := by
  intro x y s
  refine ⟨⟨_, exec_shr x y s, fun hx => ?_, ?_, sameBut_setResultThenFlag ..⟩,
    ⟨_, exec_shl x y s, fun hx => ?_, ?_, sameBut_setResultThenFlag ..⟩⟩
  · rw [setResultThenFlag_result _ _ _ _ hx, BitVec.toNat_ushiftRight, Nat.shiftRight_eq_div_pow, Nat.pow_one]
  · rw [setResultThenFlag_flag, flagByte_toNat, lowBit_toNat]
  · rw [setResultThenFlag_result _ _ _ _ hx, BitVec.toNat_shiftLeft, Nat.shiftLeft_eq, Nat.pow_one]
  · rw [setResultThenFlag_flag, flagByte_toNat, highBit_toNat]

/-! ## RND -/

theorem exec_rnd (x : Reg) (nn : Byte) (s : State) :
    exec (.rnd x nn) s = .next ((s.setReg x (drawByte s &&& nn)).countDraw) := rfl

theorem drawByte_eq (s : State) : drawByte s = s.randomInput.head?.getD (Config.randomByte s.draws) := by
  unfold drawByte
  split <;> simp_all

/-- Settles O26: one byte is drawn, masked and counted. -/
theorem randomIsMasked : Obligations.RandomIsMasked := by
  intro x nn s
  refine ⟨_, exec_rnd x nn s, fun j => ?_, rfl, rfl, (sameBut_setReg s x _).append (sameBut_countDraw _)⟩
  rw [countDraw_reg, setReg_reg_self, BitVec.getLsbD_and, drawByte_eq]

/-! ## The flag is a bit -/

theorem setResultThenFlag_bit (s : State) (x : Reg) (result : Byte) (f : Bool) :
    (s.setResultThenFlag x result f).reg vf = 0 ∨ (s.setResultThenFlag x result f).reg vf = 1 := by
  rw [setResultThenFlag_flag]
  exact flagByte_bit f

/-- DRW clears VF and then only ever sets it to 1, in a draw that faults too. -/
theorem exec_drw_bit {x y : Reg} {n : Fin 16} {s t : State} (h : exec (.drw x y n) s = .next t) :
    t.reg vf = 0 ∨ t.reg vf = 1 := by
  have cleared : (s.setFlag false).reg vf = 0 := setReg_reg_self s vf 0
  have ends := drawRows_ends (s.setFlag false) (startColumn (s.reg x)) (startRow (s.reg y)) n.val 0
  obtain ⟨-, -, hf⟩ | ⟨c, u, ⟨-, -, hf⟩, -, rfl⟩ := next_of_finish ends h
  · exact hf.imp_left (·.trans cleared)
  · exact hf.imp_left (·.trans cleared)

/-- Settles O27: the ALU's flag writers write a flag byte last; DRW is `exec_drw_bit`. -/
theorem flagWritersLeaveABit : Obligations.FlagWritersLeaveABit := by
  intro x y n i s t hi h
  simp only [List.mem_cons, List.not_mem_nil, or_false] at hi
  obtain rfl | rfl | rfl | rfl | rfl | rfl := hi
  · cases h; exact setResultThenFlag_bit ..
  · cases h; exact setResultThenFlag_bit ..
  · cases h; exact setResultThenFlag_bit ..
  · cases h; exact setResultThenFlag_bit ..
  · cases h; exact setResultThenFlag_bit ..
  · exact exec_drw_bit h

end Sys2Proof.Machine
end

section
/-! PROOFS. spec/45_input_timers.md: the key skips (R230 to R232), the blocking key read (R233) and the timer moves (R234 to
R236). -/

namespace Sys2Proof.Machine

/-! ## The key skips -/

section
variable {x : Reg} {s : State}

theorem exec_skp_key {k : Key} (h : (s.reg x).toNat = k.val) : exec (.skp x) s = .next (skipIf (s.held k) s) :=
  congrArg (fun a => finish (andThen a _)) (keyHeld_inside h)

theorem exec_sknp_key {k : Key} (h : (s.reg x).toNat = k.val) : exec (.sknp x) s = .next (skipIf (!s.held k) s) :=
  congrArg (fun a => finish (andThen a _)) (keyHeld_inside h)

theorem exec_skp_no_key (h : 15 < (s.reg x).toNat) :
    exec (.skp x) s = .next (raise (.keyIndexOutOfRange (s.reg x)) s) :=
  congrArg (fun a => finish (andThen a _)) (keyHeld_outside h)

theorem exec_sknp_no_key (h : 15 < (s.reg x).toNat) :
    exec (.sknp x) s = .next (raise (.keyIndexOutOfRange (s.reg x)) s) :=
  congrArg (fun a => finish (andThen a _)) (keyHeld_outside h)

end

/-- Settles O40: with a key both are a `skipIf` on its level, without one both take the fault. -/
theorem keySkips : Obligations.KeySkips := by
  intro x s
  refine ⟨fun k hk => ⟨⟨_, exec_skp_key hk, skipIf_pc _ s, skipIf_sameBut _ s⟩,
    ⟨_, exec_sknp_key hk, ?_, skipIf_sameBut _ s⟩⟩, fun hk i hi => ?_⟩
  · rw [skipIf_pc]
    cases s.held k <;> rfl
  · have fault : exec i s = .next (raise (.keyIndexOutOfRange (s.reg x)) s) := by
      simp only [List.mem_cons, List.not_mem_nil, or_false] at hi
      obtain rfl | rfl := hi
      · exact exec_skp_no_key hk
      · exact exec_sknp_no_key hk
    exact ⟨_, fault, rfl, sameBut_raise s _⟩

/-! ## The blocking key read -/

section
variable {x : Reg} {s : State}

theorem exec_ldVxK_idle (h : s.waitingForKey = false) : exec (.ldVxK x) s = .next (s.enterWaiting.setPc (s.pc - 2)) :=
  congrArg Host.Outcome.next (if_neg (by simp [h]))

theorem exec_ldVxK_waiting (h : s.waitingForKey = true) : exec (.ldVxK x) s = .next (pollKey x s) :=
  congrArg Host.Outcome.next (if_pos h)

/-- With no key held the instruction goes back to itself. -/
theorem pollKey_none (h : ∀ k, s.held k = false) : pollKey x s = s.setPc (s.pc - 2) := by
  have none : heldKeys s = [] := List.eq_nil_iff_forall_not_mem.2 fun k hk => by
    rw [mem_heldKeys, h k] at hk
    cases hk
  unfold pollKey
  rw [none]
  rfl

/-- With keys held it captures one of them. -/
theorem pollKey_some (h : ∃ k, s.held k = true) :
    ∃ k, s.held k = true ∧ pollKey x s = (s.setReg x (keyByte k)).leaveWaiting := by
  cases hc : chooseKey (nextChoice s) (heldKeys s) with
  | none =>
    obtain ⟨k, hk⟩ := h
    have := (mem_heldKeys s k).2 hk
    rw [chooseKey_none hc] at this
    cases this
  | some k =>
    refine ⟨k, (mem_heldKeys s k).1 (chooseKey_mem hc), ?_⟩
    unfold pollKey
    rw [hc]

end

/-- Settles O41: Idle it waits, Waiting it polls. -/
theorem blockingKeyRead : Obligations.BlockingKeyRead := by
  intro x s
  refine ⟨fun hw => ?_, fun hw hk => ?_, fun hw hk => ?_⟩
  · exact ⟨_, exec_ldVxK_idle hw, rfl, rfl, rfl, (sameBut_enterWaiting s).append (sameBut_setPc _ _)⟩
  · refine ⟨_, exec_ldVxK_waiting hw, ?_⟩
    rw [pollKey_none hk]
    exact ⟨rfl, sameBut_setPc s _⟩
  · obtain ⟨k, held, poll⟩ := pollKey_some (x := x) hk
    refine ⟨_, k, (exec_ldVxK_waiting hw).trans (congrArg _ poll), held, ?_, rfl, rfl, ?_⟩
    · rw [leaveWaiting_reg, setReg_reg_self, keyByte_toNat]
    · exact (sameBut_setReg s x _).append (sameBut_leaveWaiting _)

/-! ## The timer moves -/

theorem exec_ldVxDt (x : Reg) (s : State) : exec (.ldVxDt x) s = .next (s.setReg x s.dt) := rfl
theorem exec_ldDtVx (x : Reg) (s : State) : exec (.ldDtVx x) s = .next (s.setDt (s.reg x)) := rfl
theorem exec_ldStVx (x : Reg) (s : State) : exec (.ldStVx x) s = .next (s.setSt (s.reg x)) := rfl

/-- Settles O42: each meaning is one write. -/
theorem timerMoves : Obligations.TimerMoves := by
  intro x s
  exact ⟨⟨_, exec_ldVxDt x s, setReg_reg_self s x _, sameBut_setReg s x _⟩,
    ⟨_, exec_ldDtVx x s, rfl, sameBut_setDt s _⟩, ⟨_, exec_ldStVx x s, rfl, sameBut_setSt s _⟩⟩

end Sys2Proof.Machine
end

section
/-! PROOFS. spec/43_index_memory.md: index arithmetic (R191, R192) and the block accesses Fx33, Fx55, Fx65 (R193 to R196), inside
memory and where they leave it. The two stores share one rule in each case. -/

namespace Sys2Proof.Machine

/-! ## The index register -/

theorem exec_addI (x : Reg) (s : State) : exec (.addI x) s = .next (s.setIndex (s.index + widen (s.reg x))) := rfl
theorem exec_ldF (x : Reg) (s : State) : exec (.ldF x) s = .next (s.setIndex (glyphAddress (s.reg x))) := rfl

/-- Settles O29: `I` wraps at 16 bits; a glyph address never reaches that far. -/
theorem indexArithmetic : Obligations.IndexArithmetic := by
  intro x s
  refine ⟨⟨_, exec_addI x s, ?_, sameBut_setIndex s _⟩, ⟨_, exec_ldF x s, glyphAddress_toNat _, sameBut_setIndex s _⟩⟩
  rw [setIndex_index, BitVec.toNat_add, widen_toNat]

/-! ## What the blocks hold -/

/-- The digits of a byte, as numbers. -/
theorem decimalDigits_toNat (b : Byte) :
    ((decimalDigits b).getD 0 0).toNat = b.toNat / 100 ∧ ((decimalDigits b).getD 1 0).toNat = b.toNat / 10 % 10 ∧
      ((decimalDigits b).getD 2 0).toNat = b.toNat % 10 := by
  have := b.isLt
  simp only [decimalDigits, List.getD_cons_zero, List.getD_cons_succ, BitVec.toNat_ofNat]
  omega

theorem regsUpTo_map_getD {x r : Reg} (h : r ≤ x) (s : State) : ((regsUpTo x).map s.reg).getD r.val 0 = s.reg r := by
  rw [List.getD_eq_getElem?_getD, List.getElem?_map, regsUpTo_getElem, if_pos h]
  rfl

theorem regsUpTo_map_length (x : Reg) (s : State) : ((regsUpTo x).map s.reg).length = x.val + 1 := by
  rw [List.length_map, regsUpTo_length]

/-! ## Block stores -/

theorem cellsFrom_mono {a m n : Nat} (h : m ≤ n) : ∀ p ∈ cellsFrom a m, p ∈ cellsFrom a n := by
  intro p hp
  obtain ⟨b, rfl, hab, hb⟩ := (mem_cellsFrom p a m).1 hp
  exact (mem_cellsFrom _ a n).2 ⟨b, rfl, hab, by omega⟩

/-- Byte `j` of a block. -/
theorem setBytes_element {s : State} (hs : s.mem.wf) (a : Nat) {bs : List Byte} {j : Nat} (hj : j < bs.length) :
    (s.setBytes a bs).byteAt (a + j) = bs.getD j 0 := by
  rw [setBytes_byteAt hs, if_pos (by omega), Nat.add_sub_cancel_left]

section
variable {s : State} {a : Word} {bs : List Byte}

/-- A block store inside memory: every byte stands in its place, nothing else changes. -/
theorem finish_storeBytes_inside (hs : s.mem.wf) (h : a.toNat + bs.length ≤ 4096) :
    ∃ t, finish (storeBytes s a bs) = .next t ∧ (∀ j, j < bs.length → t.byteAt (a.toNat + j) = bs.getD j 0) ∧
      SameBut (cellsFrom a.toNat bs.length) s t :=
  ⟨_, congrArg finish (storeBytes_inside h), fun _ hj => setBytes_element hs a.toNat hj, sameBut_setBytes hs _ _⟩

/-- A block store that leaves memory: the fault of the first address outside, and the bytes below it in their places. -/
theorem finish_storeBytes_outside (hs : s.mem.wf) (hbs : bs ≠ []) (h : 4096 < a.toNat + bs.length) :
    ∃ t, finish (storeBytes s a bs) = .next t ∧
      t.faulted = some ⟨.memoryOutOfRange (if a.toNat < 4096 then 0x1000 else a), s.currentOpcode⟩ ∧
      (∀ j, j < bs.length → a.toNat + j < 4096 → t.byteAt (a.toNat + j) = bs.getD j 0) ∧
      SameBut (.faulted :: cellsFrom a.toNat (4096 - a.toNat)) s t := by
  refine ⟨_, congrArg finish (storeBytes_outside hbs h), rfl, fun j hj ha => ?_, ?_⟩
  · have hj' : j < (bs.take (4096 - a.toNat)).length := by rw [List.length_take]; omega
    rw [raise_byteAt, setBytes_element hs a.toNat hj', List.getD_eq_getElem?_getD, List.getElem?_take,
      if_pos (by omega), ← List.getD_eq_getElem?_getD]
  · have stored : SameBut (.faulted :: cellsFrom a.toNat (4096 - a.toNat)) s
        (s.setBytes a.toNat (bs.take (4096 - a.toNat))) :=
      (sameBut_setBytes hs _ _).mono fun p hp => List.mem_cons_of_mem _
        (cellsFrom_mono (by rw [List.length_take]; omega) p hp)
    exact stored.trans ((sameBut_raise _ _).mono (by simp))

end

theorem exec_ldB (x : Reg) (s : State) :
    exec (.ldB x) s = finish (storeBytes s s.index (decimalDigits (s.reg x))) := rfl
theorem exec_storeRegs (x : Reg) (s : State) :
    exec (.storeRegs x) s = finish (storeBytes s s.index ((regsUpTo x).map s.reg)) := rfl

/-- Settles O30: hundreds, tens and units make up the value, and each is a digit. -/
theorem decimalDigitsAreStored : Obligations.DecimalDigitsAreStored := by
  intro x s hs h
  obtain ⟨t, ht, bytes, frame⟩ := finish_storeBytes_inside (a := s.index) (bs := decimalDigits (s.reg x)) hs
    (by rw [decimalDigits_length]; omega)
  rw [decimalDigits_length] at bytes
  obtain ⟨hundreds, tens, units⟩ := decimalDigits_toNat (s.reg x)
  have := (s.reg x).isLt
  refine ⟨t, (exec_ldB x s).trans ht, ?_, fun j hj => ?_, frame⟩
  · have first := bytes 0 (by omega)
    rw [Nat.add_zero] at first
    rw [first, bytes 1 (by omega), bytes 2 (by omega), hundreds, tens, units]
    omega
  · rw [bytes j hj]
    interval_cases j
    · rw [hundreds]; omega
    · rw [tens]; omega
    · rw [units]; omega

/-- Settles O31: register `r` is element `r` of the block. -/
theorem registersAreStored : Obligations.RegistersAreStored := by
  intro x s hs h
  obtain ⟨t, ht, bytes, frame⟩ := finish_storeBytes_inside (a := s.index) (bs := (regsUpTo x).map s.reg) hs
    (by rw [regsUpTo_map_length]; omega)
  rw [regsUpTo_map_length] at bytes frame
  refine ⟨t, (exec_storeRegs x s).trans ht, fun r hr => ?_, frame⟩
  rw [bytes r.val (Nat.lt_succ_of_le hr), regsUpTo_map_getD hr]

/-! ## Block loads -/

theorem exec_loadRegs (x : Reg) (s : State) : exec (.loadRegs x) s = finish (loadBytes s s.index (regsUpTo x)) := rfl

theorem regsUpTo_get {x r : Reg} (h : r ≤ x) : (regsUpTo x)[r.val]? = some r := by
  rw [regsUpTo_getElem, if_pos h]

/-- Settles O32: register `r` is element `r` of the block. -/
theorem registersAreLoaded : Obligations.RegistersAreLoaded := by
  intro x s h
  obtain ⟨v, he, loaded, kept⟩ := loadBytes_inside (s := s) (a := s.index) (regsUpTo_nodup x)
    (by rw [regsUpTo_length]; omega)
  exact ⟨_, (exec_loadRegs x s).trans (congrArg finish he), fun r hr => loaded r.val r (regsUpTo_get hr), sameBut_regs s v kept⟩

/-- A block load that leaves memory: the fault of the first address outside, and the registers before it loaded. -/
theorem exec_loadRegs_outside {x : Reg} {s : State} (h : 4096 ≤ s.index.toNat + x.val) :
    ∃ t, exec (.loadRegs x) s = .next t ∧
      t.faulted = some ⟨.memoryOutOfRange (if s.index.toNat < 4096 then 0x1000 else s.index), s.currentOpcode⟩ ∧
      (∀ r : Reg, t.reg r = if s.index.toNat + r.val < 4096 then s.byteAt (s.index.toNat + r.val) else s.reg r) ∧
      SameBut (.faulted :: (regsUpTo x).map .reg) s t := by
  have nonempty : regsUpTo x ≠ [] := List.ne_nil_of_length_eq_add_one (regsUpTo_length x)
  obtain ⟨v, he, loaded, kept⟩ := loadBytes_outside (s := s) (a := s.index) (regsUpTo_nodup x) nonempty
    (by rw [regsUpTo_length]; omega)
  refine ⟨_, (exec_loadRegs x s).trans (congrArg finish he), rfl, fun r => ?_, ?_⟩
  · by_cases hr : r ≤ x
    · exact loaded r.val r (regsUpTo_get hr)
    · have above : x.val < r.val := not_le.1 hr
      have outside : ¬ s.index.toNat + r.val < 4096 := by omega
      exact (kept r fun hm => hr ((mem_regsUpTo x r).1 hm)).trans (if_neg outside).symm
  · exact ((sameBut_regs s v kept).append (sameBut_raise _ _)).mono fun _ => List.perm_append_comm.mem_iff.1

/-- Settles O33: the two stores by `finish_storeBytes_outside`, the load by `exec_loadRegs_outside`. -/
theorem blockAccessFaults : Obligations.BlockAccessFaults := by
  intro x s hs
  refine ⟨fun h => ?_, fun h => ?_, exec_loadRegs_outside⟩
  · rw [exec_ldB]
    exact finish_storeBytes_outside hs (by simp [decimalDigits]) (by rw [decimalDigits_length]; omega)
  · have nonempty : (regsUpTo x).map s.reg ≠ [] := List.ne_nil_of_length_eq_add_one (regsUpTo_map_length x s)
    obtain ⟨t, ht, fault, bytes, frame⟩ := finish_storeBytes_outside (a := s.index) hs nonempty
      (by rw [regsUpTo_map_length]; omega)
    rw [regsUpTo_map_length] at bytes
    refine ⟨t, (exec_storeRegs x s).trans ht, fault, fun r hr => ?_, frame⟩
    have below : r.val < x.val := by omega
    rw [bytes r.val (by omega) hr, regsUpTo_map_getD (Fin.le_of_lt below)]

end Sys2Proof.Machine
end

section
/-! PROOFS. spec/44_display.md, row by row: where a sprite row's pixels land (R213) and which display row a row index is (R212,
R214). -/

namespace Sys2Proof.Machine

/-! ## The row mask -/

/-- Pixel `j` of a sprite row, counted from the left, before the row is moved to its column. -/
theorem spriteRow_pixel (b : Byte) {j : Nat} (hj : j < 64) :
    (b.setWidth 64 <<< 56).getLsbD (63 - j) = (decide (j < 8) && b.getLsbD (7 - j)) := by
  rw [BitVec.getLsbD_shiftLeft, BitVec.getLsbD_setWidth]
  by_cases h : j < 8
  · have inside : ¬ 63 - j < 56 := by omega
    rw [show 63 - j - 56 = 7 - j by omega]
    simp [h, inside, show 63 - j < 64 by omega, show 7 - j < 64 by omega]
  · simp [h, show 63 - j < 56 by omega]

/-- Without wrap the row moves right, and what passes the edge is gone. -/
theorem rowMask_clipped_pixel (b : Byte) (cx : Nat) {c : Nat} (hc : c < 64) :
    (rowMask false b cx).getLsbD (63 - c) = (decide (cx ≤ c ∧ c - cx < 8) && b.getLsbD (7 - (c - cx))) := by
  rw [rowMask, if_neg (by simp), BitVec.getLsbD_ushiftRight]
  by_cases h : cx ≤ c
  · rw [show cx + (63 - c) = 63 - (c - cx) by omega, spriteRow_pixel b (by omega)]
    simp [h]
  · rw [BitVec.getLsbD_of_ge _ _ (by omega)]
    simp [h]

/-- With wrap the row turns right. -/
theorem rowMask_wrapped_pixel (b : Byte) {cx c : Nat} (hx : cx < 64) (hc : c < 64) :
    (rowMask true b cx).getLsbD (63 - c) =
      (decide ((c + 64 - cx) % 64 < 8) && b.getLsbD (7 - (c + 64 - cx) % 64)) := by
  rw [rowMask, if_pos rfl, BitVec.getLsbD_rotateRight, ← spriteRow_pixel b (Nat.mod_lt _ (by decide)),
    Nat.mod_eq_of_lt hx]
  by_cases h : cx ≤ c
  · rw [decide_eq_true (by omega : 63 - c < 64 - cx), cond_true]
    congr 1; omega
  · rw [decide_eq_false (by omega : ¬ 63 - c < 64 - cx), cond_false, decide_eq_true (by omega : 63 - c < 64),
      Bool.true_and]
    congr 1; omega

/-- Settles O35: the pixel that lands on a column is the one as far from the sprite's left edge as the column is from `cx`. -/
theorem rowMaskPlacesEachPixel : Obligations.RowMaskPlacesEachPixel := by
  intro wrap b cx c hx hc
  cases wrap with
  | false =>
    rw [rowMask_clipped_pixel b cx hc, Bool.and_eq_true, decide_eq_true_eq]
    refine ⟨fun ⟨⟨hcx, hj⟩, hb⟩ => ⟨c - cx, hj, hb, by simp; omega⟩, fun ⟨j, hj, hb, hland⟩ => ?_⟩
    obtain rfl : cx + j = c := by simpa using hland
    rw [Nat.add_sub_cancel_left]
    exact ⟨⟨Nat.le_add_right cx j, hj⟩, hb⟩
  | true =>
    rw [rowMask_wrapped_pixel b hx hc, Bool.and_eq_true, decide_eq_true_eq]
    refine ⟨fun ⟨hj, hb⟩ => ⟨(c + 64 - cx) % 64, hj, hb, by simp; omega⟩, fun ⟨j, hj, hb, hland⟩ => ?_⟩
    obtain rfl : (cx + j) % 64 = c := by simpa using hland
    rw [show ((cx + j) % 64 + 64 - cx) % 64 = j by omega]
    exact ⟨hj, hb⟩

/-! ## The display row -/

theorem displayRow_past_edge (wrap : Bool) {i : Nat} (h : 32 ≤ i) :
    displayRow wrap i = if wrap = true then some ⟨i % 32, Nat.mod_lt _ (by decide)⟩ else none :=
  dif_neg (not_lt.2 h)

/-- Settles O36: `displayRow`, case by case. -/
theorem displayRowPlacesEachRow : Obligations.DisplayRowPlacesEachRow := by
  intro wrap i d
  by_cases h : i < 32
  · rw [displayRow_inside wrap h, Option.some_inj, Fin.ext_iff]
    constructor
    · intro e
      exact .inl ⟨h, e.symm⟩
    · rintro (⟨-, e⟩ | ⟨h', -⟩)
      · exact e.symm
      · omega
  · rw [displayRow_past_edge wrap (not_lt.1 h)]
    cases wrap with
    | false => simp [h]
    | true => simp [h, not_lt.1 h, Fin.ext_iff, eq_comm]

end Sys2Proof.Machine
end

section
/-! PROOFS. spec/44_display.md: DRW (R211, R212, R214, R215). A run over the first rows of a sprite that can all be read is
described once, in terms of the state before VF is cleared; a draw inside memory, the second of two draws, and the rows
before a fault are such runs. -/

namespace Sys2Proof.Machine

/-! ## The rows of a sprite -/

/-- Row `i`, among the first `m`, of the sprite at `V[y]` falls on display row `r`. -/
def LandsOn (s : State) (y : Reg) (m i : Nat) (r : Fin 32) : Prop :=
  i < m ∧ displayRow s.yWrapEnabled ((s.reg y).toNat % 64 + i) = some r

/-- The mask of row `i` of the sprite at `I`, at the column of `V[x]`. -/
def spriteMask (s : State) (x : Reg) (i : Nat) : PixelRow :=
  rowMask s.yWrapEnabled (s.byteAt (s.index.toNat + i)) ((s.reg x).toNat % 64)

/-- `t` is `s` after the first `m` rows of the sprite have been drawn. -/
structure SpriteDrawn (s : State) (x y : Reg) (m : Nat) (t : State) : Prop where
  drawn : ∀ i r, LandsOn s y m i r → t.row r = s.row r ^^^ spriteMask s x i
  kept  : ∀ r, (∀ i, ¬ LandsOn s y m i r) → t.row r = s.row r
  hit   : (∃ i r, LandsOn s y m i r ∧ s.row r &&& spriteMask s x i ≠ 0) → t.reg vf = 1
  miss  : (∀ i r, LandsOn s y m i r → s.row r &&& spriteMask s x i = 0) → t.reg vf = 0
  frame : SameBut (.reg vf :: allRows) s t

theorem elementAddr_inside {a : Word} {i : Nat} (h : a.toNat + i < 4096) : (elementAddr a i).toNat = a.toNat + i := by
  rw [elementAddr_toNat]
  omega

/-- What changes VF and the display only. -/
theorem sameBut_drawing {s t : State} (shape : t = { s with v := t.v, display := t.display })
    (others : ∀ r, r ≠ vf → t.reg r = s.reg r) : SameBut (.reg vf :: allRows) s t := by
  have regs (r : Reg) (h : .reg r ∉ Part.reg vf :: allRows) : t.reg r = s.reg r := others r (by simpa using h)
  have rows (r : Fin 32) (h : .row r ∉ Part.reg vf :: allRows) : t.row r = s.row r := absurd (by simp) h
  refine ⟨⟨regs, fun a _ => ?_, rows, fun k _ => ?_⟩, ?_, ?_⟩
  · rw [shape]; rfl
  · rw [shape]; rfl
  · rw [shape]; simp [SameControl]
  · rw [shape]; simp [SameEnvironment]

/-- The loop of DRW over rows that can all be read. -/
theorem drawRows_sprite {s : State} {x y : Reg} {m : Nat} (hm : m ≤ 32)
    (h : ∀ i r, LandsOn s y m i r → s.index.toNat + i < 4096) :
    ∃ t, drawRows (s.setFlag false) (startColumn (s.reg x)) (startRow (s.reg y)) m 0 = .done t ∧
      SpriteDrawn s x y m t := by
  have cleared (r : Reg) (hr : r ≠ vf) : (s.setFlag false).reg r = s.reg r := by
    rw [setFlag_eq, setReg_reg, if_neg hr]
  have visible (i : Nat) (hi : i < m) (hv : displayRow s.yWrapEnabled ((s.reg y).toNat % 64 + i) ≠ none) :
      s.index.toNat + i < 4096 := by
    obtain ⟨r, hr⟩ := Option.ne_none_iff_exists'.1 hv
    exact h i r ⟨hi, hr⟩
  obtain ⟨t, ht, D⟩ := drawRows_spec (s := s.setFlag false) (cx := startColumn (s.reg x)) (ry := startRow (s.reg y))
    (left := m) (i := 0) hm (fun j _ hj hv => by
      have := visible j (by omega) hv
      rw [elementAddr_toNat]
      show (s.index.toNat + j) % 65536 < 4096
      omega)
  have mask (i : Nat) (r : Fin 32) (hl : LandsOn s y m i r) :
      rowMask s.yWrapEnabled (s.byteAt (elementAddr s.index i).toNat) (startColumn (s.reg x)) = spriteMask s x i := by
    rw [elementAddr_inside (h i r hl)]
    rfl
  refine ⟨t, ht, ?_, fun r hr => ?_, ?_, fun hc => ?_, sameBut_drawing ?_ fun r hr => (D.others r hr).trans (cleared r hr)⟩
  · intro i r hl
    rw [← mask i r hl]
    exact D.drawn i r (Nat.zero_le i) (by have := hl.1; omega) hl.2
  · exact D.kept r fun j _ hj hv => hr j ⟨by omega, hv⟩
  · rintro ⟨i, r, hl, hc⟩
    rw [← mask i r hl] at hc
    exact D.hit ⟨i, r, Nat.zero_le i, by have := hl.1; omega, hl.2, hc⟩
  · refine (D.miss fun j r _ hj hv => ?_).trans (setReg_reg_self s vf 0)
    have hl : LandsOn s y m j r := ⟨by omega, hv⟩
    have := hc j r hl
    rw [← mask j r hl] at this
    exact this
  · rw [D.shape]
    rfl

/-! ## A draw inside memory -/

theorem exec_drw (x y : Reg) (n : Fin 16) (s : State) : exec (.drw x y n) s =
    finish (drawRows (s.setFlag false) (startColumn (s.reg x)) (startRow (s.reg y)) n.val 0) := rfl

theorem exec_drw_inside {s : State} {x y : Reg} {n : Fin 16}
    (h : ∀ i r, LandsOn s y n.val i r → s.index.toNat + i < 4096) :
    ∃ t, exec (.drw x y n) s = .next t ∧ SpriteDrawn s x y n.val t := by
  obtain ⟨t, ht, D⟩ := drawRows_sprite (x := x) (by omega) h
  exact ⟨t, by rw [exec_drw, ht, finish_done], D⟩

/-- Settles O37: a draw whose rows can all be read is one run of the loop. -/
theorem drawXorsTheSprite : Obligations.DrawXorsTheSprite := by
  intro x y n s cx ry mask lands h
  obtain ⟨t, ht, D⟩ := exec_drw_inside (x := x) h
  exact ⟨t, ht, D.drawn, D.kept, D.hit, D.miss, D.frame⟩

/-! ## Two draws -/

section
variable {s t u : State} {x y : Reg} {m : Nat} (D : SpriteDrawn s x y m t)
include D

theorem SpriteDrawn.reg_eq {r : Reg} (hr : r ≠ vf) : t.reg r = s.reg r := by
  obtain ⟨⟨regs, -⟩, -⟩ := D.frame
  exact regs r (by simp [hr])

theorem SpriteDrawn.byteAt_eq (a : Nat) : t.byteAt a = s.byteAt a := by
  obtain ⟨⟨-, cells, -⟩, -⟩ := D.frame
  exact cells a (by simp)

theorem SpriteDrawn.index_eq : t.index = s.index := by
  obtain ⟨-, ⟨-, index, -⟩, -⟩ := D.frame
  exact index (by simp)

theorem SpriteDrawn.opcode_eq : t.currentOpcode = s.currentOpcode := by
  obtain ⟨-, ⟨-, -, -, -, -, -, -, opcode, -⟩, -⟩ := D.frame
  exact opcode (by simp)

theorem SpriteDrawn.yWrap_eq : t.yWrapEnabled = s.yWrapEnabled := by
  obtain ⟨-, ⟨-, -, -, -, -, -, -, -, wrap, -⟩, -⟩ := D.frame
  exact wrap (by simp)

theorem SpriteDrawn.landsOn_iff (hy : y ≠ vf) (n i : Nat) (r : Fin 32) : LandsOn t y n i r ↔ LandsOn s y n i r := by
  rw [LandsOn, LandsOn, D.reg_eq hy, D.yWrap_eq]

theorem SpriteDrawn.spriteMask_eq (hx : x ≠ vf) (i : Nat) : spriteMask t x i = spriteMask s x i := by
  rw [spriteMask, spriteMask, D.reg_eq hx, D.byteAt_eq, D.index_eq, D.yWrap_eq]

/-- A second draw of the same sprite undoes the first: each row is XORed with the same mask again. -/
theorem SpriteDrawn.twice (hx : x ≠ vf) (hy : y ≠ vf) (D' : SpriteDrawn t x y m u) (r : Fin 32) : u.row r = s.row r := by
  by_cases h : ∃ i, LandsOn s y m i r
  · obtain ⟨i, hl⟩ := h
    rw [D'.drawn i r ((D.landsOn_iff hy m i r).2 hl), D.drawn i r hl, D.spriteMask_eq hx, BitVec.xor_assoc,
      BitVec.xor_self, BitVec.xor_zero]
  · have missed (i : Nat) : ¬ LandsOn s y m i r := fun hl => h ⟨i, hl⟩
    rw [D'.kept r fun i hl => missed i ((D.landsOn_iff hy m i r).1 hl), D.kept r missed]

end

/-- A frame that names the display names VF only where no row has changed. -/
theorem SameBut.without_rows {s u : State} (h : SameBut (.reg vf :: allRows) s u) (rows : ∀ r, u.row r = s.row r) :
    SameBut [.reg vf] s u := by
  simp only [SameBut, SameStores, SameControl, SameEnvironment, List.mem_cons, mem_allRows] at h ⊢
  simp_all

/-- Settles O38: the second draw finds the registers, `I` and the sprite as the first did. -/
theorem drawingTwiceRestores : Obligations.DrawingTwiceRestores := by
  intro x y n s hx hy h
  have inside (i : Nat) (r : Fin 32) (hl : LandsOn s y n.val i r) : s.index.toNat + i < 4096 := h i r hl.1 hl.2
  obtain ⟨t, ht, D⟩ := exec_drw_inside (x := x) inside
  obtain ⟨u, hu, D'⟩ := exec_drw_inside (s := t) (x := x) (y := y) (n := n) fun i r hl => by
    rw [D.index_eq]
    exact inside i r ((D.landsOn_iff hy n.val i r).1 hl)
  exact ⟨t, u, ht, hu, (D.frame.trans D'.frame).without_rows (D.twice hx hy D')⟩

/-! ## A draw that leaves memory -/

theorem displayRow_visible_before {wrap : Bool} {r r' : Nat} {d : Fin 32} (h : displayRow wrap r' = some d) (hr : r ≤ r') :
    displayRow wrap r ≠ none := fun hnone => by
  rw [displayRow_none_mono hnone hr] at h
  cases h

/-- The first address of a block outside memory does not wrap. -/
theorem elementAddr_first_outside {a : Word} {k : Nat} (hk : k < 16) (hbefore : ∀ i, i < k → a.toNat + i < 4096)
    (houtside : 4096 ≤ a.toNat + k) : 4096 ≤ (elementAddr a k).toNat := by
  have small : a.toNat + k < 65536 := by
    have := a.isLt
    by_cases hk0 : k = 0
    · omega
    · have := hbefore 0 (by omega)
      omega
  rwa [elementAddr_toNat, Nat.mod_eq_of_lt small]

/-- DRW faults at the first drawn row outside memory, with the rows before it drawn. -/
theorem exec_drw_outside {s : State} {x y : Reg} {n : Fin 16} {k : Nat} {q : Fin 32} (hk : k < n.val)
    (hq : displayRow s.yWrapEnabled (startRow (s.reg y) + k) = some q) (hbefore : ∀ i, i < k → s.index.toNat + i < 4096)
    (houtside : 4096 ≤ s.index.toNat + k) :
    ∃ t, exec (.drw x y n) s = .next (raise (.memoryOutOfRange (elementAddr s.index k)) t) ∧ SpriteDrawn s x y k t := by
  obtain ⟨t, ht, D⟩ := drawRows_sprite (s := s) (x := x) (y := y) (m := k) (by omega) fun i r hl => hbefore i hl.1
  have rest : drawRows t (startColumn (s.reg x)) (startRow (s.reg y)) (n.val - k - 1 + 1) (0 + k) =
      .raised (.memoryOutOfRange (elementAddr s.index k)) t := by
    rw [Nat.zero_add, ← D.index_eq]
    refine drawRows_outside (q := q) ?_ ?_
    · rwa [D.yWrap_eq]
    · rw [D.index_eq]
      exact elementAddr_first_outside (by omega) hbefore houtside
  refine ⟨t, ?_, D⟩
  rw [exec_drw, show n.val = k + (n.val - k - 1 + 1) by omega,
    drawRows_append ht fun j _ hj => displayRow_visible_before hq (Nat.add_le_add_left (by omega) _), rest, finish_raised]

/-- Settles O39: the fault's record is that of `exec_drw_outside`, the rows those of `SpriteDrawn`. -/
theorem drawFaultsAtTheFirstRowOutside : Obligations.DrawFaultsAtTheFirstRowOutside := by
  intro x y n s k ry mask hk hvisible hbefore houtside
  obtain ⟨q, hq⟩ := hvisible
  obtain ⟨t, ht, D⟩ := exec_drw_outside (x := x) hk hq hbefore houtside
  refine ⟨_, ht, ?_, fun i r hi hr => D.drawn i r ⟨hi, hr⟩, fun r hr => D.kept r fun i hl => hr i hl.1 hl.2, ?_⟩
  · exact congrArg (fun w => some (FaultRecord.mk _ w)) D.opcode_eq
  · exact (D.frame.append (sameBut_raise t _)).mono fun _ => List.perm_append_comm.mem_iff.1

end Sys2Proof.Machine
end

section
/-! PROOFS. spec/40_cycle.md: the instruction tick (R120, R122) and a finished program (R278). What `step` does in each case is
Laws/Step.lean; here the states it names are framed. -/

namespace Sys2Proof.Machine

/-! ## The state an instruction is executed in -/

theorem beforeExecute_eq (s : State) :
    s.beforeExecute = (((popSchedule s).setAdvance false).setOpcode (s.wordAt s.pc.toNat)).setPc (s.pc + 2) := rfl

theorem sameBut_beforeExecute (s : State) : SameBut [.schedule, .advance, .opcode, .pc] s s.beforeExecute := by
  rw [beforeExecute_eq]
  exact (((sameBut_popSchedule s).append (sameBut_setAdvance _ _)).append (sameBut_setOpcode _ _)).append (sameBut_setPc _ _)

/-- A tick whose fetch faults leaves all but the fault's record, `advance` and the schedule. -/
theorem sameBut_fetch_fault (s : State) (c : FaultCause) :
    SameBut [.schedule, .advance, .faulted] s (raise c ((popSchedule s).setAdvance false)) :=
  ((sameBut_popSchedule s).append (sameBut_setAdvance _ _)).append (sameBut_raise _ c)

/-! ## The tick -/

/-- Settles O11: the four cases of the tick are `step_runs`, `step_fetch_faults`, `step_gated` and `step_faulted`. -/
theorem instructionTickRunsTheFetchedInstruction : Obligations.InstructionTickRunsTheFetchedInstruction := by
  intro s
  refine ⟨fun hr => ?_, fun hs hk hg hp => ?_, fun hs hk hg => step_gated hs hk hg, fun hs hf hk => ?_⟩
  · exact ⟨step_runs hr, rfl, rfl, rfl, rfl, (sameBut_beforeExecute s).mono (by simp)⟩
  · exact ⟨_, step_fetch_faults hs hk hg hp, rfl, rfl, rfl, (sameBut_fetch_fault s _).mono (by simp)⟩
  · rw [step_faulted hf hs, if_neg (by simp [hk])]
    rfl

theorem exec_nop (w : Word) (s : State) : exec (.nop w) s = .next s := rfl

/-- Settles O12: the word decodes to the no-op, which leaves the state the tick hands it. -/
theorem unrecognizedWordOnlyAdvances : Obligations.UnrecognizedWordOnlyAdvances := by
  refine ⟨exec_nop, fun s hr hw => ⟨s.beforeExecute, ?_, rfl, rfl, (sameBut_beforeExecute s).mono (by simp)⟩⟩
  rw [step_runs hr, State.instructionAtPc, decodeWord_of_not_recognized hw, exec_nop]

/-! ## A finished program -/

/-- The self-jump at an address of memory is the encoded JP to that address. -/
theorem selfJump_eq {a : Word} (h : a.toNat < 4096) : 0x1000 ||| a = wordNnn 0x1 (a.setWidth 12) := by
  have low : (a.setWidth 12).toNat = a.toNat := by
    rw [BitVec.toNat_setWidth]
    exact Nat.mod_eq_of_lt h
  apply BitVec.eq_of_toNat_eq
  rw [wordNnn_toNat, low, BitVec.toNat_or]
  exact (Nat.two_pow_add_eq_or_of_lt (i := 12) h 1).symm

theorem addressOf_setWidth {a : Word} (h : a.toNat < 4096) : addressOf (a.setWidth 12) = a := by
  apply BitVec.eq_of_toNat_eq
  rw [addressOf_toNat, BitVec.toNat_setWidth]
  exact Nat.mod_eq_of_lt h

/-- What is finished stays finished where nothing it speaks of changes. -/
theorem State.finished.congr {s t : State} (h : s.finished) (hf : t.faulted = s.faulted) (hp : t.pc = s.pc)
    (hw : t.waitingForKey = s.waitingForKey) (hm : t.mem = s.mem) : t.finished := by
  obtain ⟨unfaulted, inside, idle, rests⟩ := h
  refine ⟨hf.trans unfaulted, hp ▸ inside, hw.trans idle, ?_⟩
  show wordOfBytes (t.mem.read _) (t.mem.read _) = _
  rw [hm, hp]
  exact rests

/-- Settles O53: the word at `pc` is JP to `pc`, so the tick ends where it began. -/
theorem finishedProgramStaysPut : Obligations.FinishedProgramStaysPut := by
  intro s hfin hsafe hgate hkind
  have ⟨_, inside, _, rests⟩ := hfin
  have hpc : s.pc.toNat < 4096 := by
    have : s.pc.toNat + 1 < 4096 := inside
    omega
  have jumps : s.instructionAtPc = .jp (s.pc.setWidth 12) := by
    rw [State.instructionAtPc, rests, selfJump_eq hpc, decodeWord_jp]
  have steps : step s = .next (s.beforeExecute.setPc s.pc) := by
    rw [step_runs ⟨hsafe, hkind, hgate, inside⟩, jumps, exec_jp, addressOf_setWidth hpc]
  have frame : SameBut [.schedule, .advance, .opcode] s (s.beforeExecute.setPc s.pc) :=
    ((sameBut_popSchedule s).append (sameBut_setAdvance _ false)).append (sameBut_setOpcode _ (s.wordAt s.pc.toNat))
  have still : (s.beforeExecute.setPc s.pc).finished := by
    apply State.finished.congr hfin <;> simp [beforeExecute_eq]
  exact ⟨_, steps, rests, still, frame.mono (by simp)⟩

/-! ## The placed word -/

theorem tableWord_sixteen {w : Nat} (h : w < 65536) : tableWord 16 w = BitVec.ofNat 16 w := by
  rw [tableWord, Nat.mod_eq_of_lt (show w < 2 ^ 16 from h)]

theorem fetchable_inside (pc : Word) : (fetchable pc).toNat + 1 < 4096 := by
  unfold fetchable
  split
  · assumption
  · decide

theorem tickNext_head (ks : List StepKind) : tickNext ks = [] ∨ ∃ ks', tickNext ks = .instrTick :: ks' := by
  unfold tickNext
  split
  · exact .inl rfl
  · exact .inr ⟨_, rfl⟩
  · exact .inr ⟨_, rfl⟩

theorem nextKind_of_tickNext {s : State} {ks : List StepKind} (h : s.schedule = tickNext ks) :
    nextKind s = .instrTick := by
  unfold nextKind
  obtain e | ⟨ks', e⟩ := tickNext_head ks <;> rw [h, e]

theorem placeWord_wordAt {s : State} (hm : s.mem.wf) (w : Word) : (placeWord w s).wordAt (fetchable s.pc).toNat = w := by
  have bytes (a : Nat) : (placeWord w s).byteAt a =
      if (fetchable s.pc).toNat ≤ a ∧ a < (fetchable s.pc).toNat + 2 then
        [highByte w, lowByte w].getD (a - (fetchable s.pc).toNat) 0 else s.byteAt a :=
    Memory.read_load hm.1 _ [highByte w, lowByte w] a
  rw [State.wordAt, bytes, bytes, if_pos (by omega), if_pos (by omega), Nat.sub_self, Nat.add_sub_cancel_left]
  exact wordOfBytes_high_low w

/-- Settles O13: what keeps a step from being the placed word's tick, `placeWord` undoes. -/
theorem placedWordRunsNext : Obligations.PlacedWordRunsNext := by
  intro s w hm hw
  refine ⟨⟨⟨rfl, rfl⟩, nextKind_of_tickNext rfl, ?_, fetchable_inside s.pc⟩, ?_, fun hp => if_pos (Nat.succ_lt_succ hp)⟩
  · show s.stepMode = false ∨ (s.advance || s.stepMode) = true
    cases s.stepMode with
    | false => exact .inl rfl
    | true => exact .inr (Bool.or_true _)
  · rw [← tableWord_sixteen hw]
    exact placeWord_wordAt hm _

end Sys2Proof.Machine
end

section
/-! PROOFS. spec/60_exceptions.md: the step kinds other than the instruction tick (R262 to R272, R277) and the faulted engine
(R38, R251). `step_device` and `step_faulted` (Laws/Step.lean) say what such a step does; here it is framed. -/

namespace Sys2Proof.Machine

/-! ## The timer tick -/

theorem sameBut_timerTick (s : State) : SameBut [.dt, .st, .tone, .emitted] s s.tickTimers.signal := by
  rw [signal_eq]
  exact ((sameBut_tickTimers s).append (sameBut_setTone _ _)).append (sameBut_emit _ _)

theorem ne_zero_iff_toNat {b : Byte} : b ≠ 0 ↔ 0 < b.toNat := by
  rw [Nat.pos_iff_ne_zero, not_iff_not, ← BitVec.toNat_inj]
  rfl

/-- The level that the tone follows (R264): the sound timer is still on after the decrement. -/
theorem countDown_ne_zero_iff (b : Byte) : countDown b ≠ 0 ↔ 1 < b.toNat := by
  rw [ne_zero_iff_toNat, countDown_toNat]
  omega

/-- Settles O43: the tone command and the latch compare the level after the decrement with the latch before it. -/
theorem timerTickCountsDown : Obligations.TimerTickCountsDown := by
  intro s hs hk
  have steps : step s = .next (popSchedule s).tickTimers.signal := by
    rw [step_device hs (by simp [hk]), hk]
    rfl
  have frame := (sameBut_popSchedule s).append (sameBut_timerTick (popSchedule s))
  refine ⟨_, steps, countDown_toNat s.dt, countDown_toNat s.st, ?_, ?_, rfl, frame.mono (by simp)⟩
  · simp only [← countDown_ne_zero_iff]
    exact toneLatch_eq s.toneOn (countDown s.st)
  · simp only [← countDown_ne_zero_iff, ← toneCommand_eq, List.append_assoc]
    rfl

/-! ## The key feed and the debug port -/

/-- Settles O44: one key level is set. -/
theorem keyEventsSetOneKey : Obligations.KeyEventsSetOneKey := by
  intro k s hs
  have event (b : Bool) (h : step s = .next ((popSchedule s).setHeld k b)) :
      ∃ t, step s = .next t ∧ t.held k = b ∧ SameBut [.key k, .schedule] s t := by
    refine ⟨_, h, by rw [setHeld_held, if_pos rfl], ?_⟩
    exact ((sameBut_popSchedule s).append (sameBut_setHeld _ k b)).mono (by simp)
  refine ⟨fun hk => event true ?_, fun hk => event false ?_⟩
  · rw [step_device hs (by simp [hk]), hk]
    rfl
  · rw [step_device hs (by simp [hk]), hk]
    rfl

/-- Settles O45: one flag is set. -/
theorem debugWritesSetOneFlag : Obligations.DebugWritesSetOneFlag := by
  intro b s hs
  refine ⟨fun hk => ⟨(popSchedule s).setStepMode b, ?_, rfl, ?_⟩, fun hk => ⟨(popSchedule s).setAdvance b, ?_, rfl, ?_⟩⟩
  · rw [step_device hs (by simp [hk]), hk]
    rfl
  · exact ((sameBut_popSchedule s).append (sameBut_setStepMode _ b)).mono (by simp)
  · rw [step_device hs (by simp [hk]), hk]
    rfl
  · exact ((sameBut_popSchedule s).append (sameBut_setAdvance _ b)).mono (by simp)

/-! ## The faulted engine -/

/-- Settles O48: of the whole state only the model's own schedule and `Shutdown`'s flag move. -/
theorem faultIsTerminal : Obligations.FaultIsTerminal := by
  intro s hf hs
  rw [step_faulted hf hs]
  by_cases hk : nextKind s = .shutdown
  · rw [if_pos hk]
    have frame := (sameBut_popSchedule s).append (sameBut_endRun (popSchedule s))
    exact ⟨_, rfl, rfl, rfl, iff_of_true rfl hk, frame⟩
  · rw [if_neg hk]
    have running : ¬ (popSchedule s).shutDown = true := by simp [hs]
    exact ⟨_, rfl, rfl, rfl, iff_of_false running hk, (sameBut_popSchedule s).mono (by simp)⟩

/-! ## What the devices leave -/

/-- Every part that a step other than an instruction tick or a `Shutdown` of a running engine may write. -/
def deviceParts : List Part :=
  [.dt, .st, .tone, .emitted, .stepMode, .advance, .schedule, .shutDown] ++ allKeys.map .key

theorem sameBut_deviceStep (s : State) {k : StepKind} (hk : k ≠ .shutdown) : SameBut deviceParts s (deviceStep k s) := by
  cases k with
  | instrTick => exact (SameBut.refl s).mono (by simp)
  | timerTick => exact (sameBut_timerTick s).mono (by simp [deviceParts])
  | keyDown k => exact (sameBut_setHeld s k true).mono (by simp [deviceParts, mem_allKeys])
  | keyUp k => exact (sameBut_setHeld s k false).mono (by simp [deviceParts, mem_allKeys])
  | debugSet flag b =>
    cases flag with
    | stepMode => exact (sameBut_setStepMode s b).mono (by simp [deviceParts])
    | advance => exact (sameBut_setAdvance s b).mono (by simp [deviceParts])
  | shutdown => exact absurd rfl hk

/-- Settles O50: over the ways a step can answer (`step_cases`) that are no instruction tick. -/
theorem onlyInstructionsMoveThePc : Obligations.OnlyInstructionsMoveThePc := by
  intro s t hst hk hd
  have popped : SameBut deviceParts s (popSchedule s) := (sameBut_popSchedule s).mono (by simp [deviceParts])
  obtain ⟨-, rfl | ⟨-, -, rfl⟩ | ⟨hk', -⟩ | ⟨⟨-, hk', -⟩, -⟩ | ⟨⟨hf, -⟩, -, rfl⟩⟩ := step_cases hst
  · exact popped
  · exact popped.trans ((sameBut_endRun _).mono (by simp [deviceParts]))
  · exact absurd hk' hk
  · exact absurd hk' hk
  · exact popped.trans (sameBut_deviceStep _ fun h => hd h hf)

end Sys2Proof.Machine
end

section
/-! PROOFS. Who writes what and which instructions fault (R21 to R38, R250, R256), over all instructions: read off the effect that
Laws/Exec.lean gives each of them. -/

namespace Sys2Proof.Machine

/-! ## The writers of each field -/

/-- Which fields but the general registers an instruction may write, and that it records no fault by itself. -/
structure WrittenByWriters (i : Instr) (s u : State) : Prop where
  held     : ∀ k, u.held k = s.held k
  yWrap    : u.yWrapEnabled = s.yWrapEnabled
  stepMode : u.stepMode = s.stepMode
  advance  : u.advance = s.advance
  tone     : u.toneOn = s.toneOn
  opcode   : u.currentOpcode = s.currentOpcode
  pc       : u.pc ≠ s.pc → i = .ret ∨ (∃ nnn, i = .jp nnn ∨ i = .call nnn ∨ i = .jpV0 nnn) ∨
    (∃ x nn, i = .seImm x nn ∨ i = .sneImm x nn) ∨ (∃ x y, i = .seReg x y ∨ i = .sneReg x y) ∨
    ∃ x, i = .skp x ∨ i = .sknp x ∨ i = .ldVxK x
  sp       : u.sp ≠ s.sp → i = .ret ∨ ∃ nnn, i = .call nnn
  index    : u.index ≠ s.index → (∃ nnn, i = .ldI nnn) ∨ ∃ x, i = .addI x ∨ i = .ldF x
  dt       : u.dt ≠ s.dt → ∃ x, i = .ldDtVx x
  st       : u.st ≠ s.st → ∃ x, i = .ldStVx x
  row      : ∀ r, u.row r ≠ s.row r → i = .cls ∨ ∃ x y n, i = .drw x y n
  cell     : ∀ a, u.byteAt a ≠ s.byteAt a → (∃ nnn, i = .call nnn) ∨ ∃ x, i = .ldB x ∨ i = .storeRegs x
  wait     : u.waitingForKey ≠ s.waitingForKey ∨ u.keyCaptured ≠ s.keyCaptured → ∃ x, i = .ldVxK x

theorem Effect.writers {i : Instr} {s u : State} (h : Effect i s u) : WrittenByWriters i s u := by
  cases i with
  | cls | nop => subst h; constructor <;> simp
  | ret => obtain rfl | ⟨p, rfl⟩ := h <;> constructor <;> simp
  | call => obtain ⟨m, p, rfl, -⟩ := h; constructor <;> simp [State.held, State.row]
  | ldB | storeRegs => obtain ⟨m, rfl, -⟩ := h; constructor <;> simp [State.held, State.row]
  | ldImm | addImm | ldReg | orReg | andReg | xorReg | addReg | subReg | shr | subnReg | shl | ldVxDt | loadRegs =>
    obtain ⟨⟨v, rfl⟩, -⟩ := h; constructor <;> simp [State.held, State.row, State.byteAt]
  | drw => obtain ⟨⟨v, d, rfl⟩, -⟩ := h; constructor <;> simp [State.held, State.byteAt]
  | ldVxK => obtain ⟨-, rfl⟩ | ⟨-, rfl | ⟨k, rfl⟩⟩ := h <;> constructor <;> simp
  | _ => obtain ⟨w, rfl⟩ := h; constructor <;> simp

theorem WrittenByWriters.raise {i : Instr} {s u : State} (h : WrittenByWriters i s u) (c : FaultCause) :
    WrittenByWriters i s (raise c u) :=
  ⟨h.held, h.yWrap, h.stepMode, h.advance, h.tone, h.opcode, h.pc, h.sp, h.index, h.dt, h.st, h.row, h.cell, h.wait⟩

theorem exec_writers {i : Instr} {s t : State} (h : exec i s = .next t) : WrittenByWriters i s t := by
  obtain ⟨u, hu, rfl | ⟨c, -, rfl⟩⟩ := exec_cases h
  · exact hu.writers
  · exact hu.writers.raise c

/-- The instructions that have a register among their destinations. -/
theorem writer_of_destination {i : Instr} {r : Reg} (h : r ∈ destinations i) :
    (∃ nn, i = .ldImm r nn ∨ i = .addImm r nn ∨ i = .rnd r nn) ∨
    (∃ y, i = .ldReg r y ∨ i = .orReg r y ∨ i = .andReg r y ∨ i = .xorReg r y ∨ i = .addReg r y ∨ i = .subReg r y ∨
      i = .shr r y ∨ i = .subnReg r y ∨ i = .shl r y) ∨
    i = .ldVxDt r ∨ i = .ldVxK r ∨ (∃ x, i = .loadRegs x ∧ r ≤ x) ∨
    (r = vf ∧ ∃ x y, i = .addReg x y ∨ i = .subReg x y ∨ i = .shr x y ∨ i = .subnReg x y ∨ i = .shl x y ∨
      ∃ n, i = .drw x y n) := by
  cases i with
  | ldImm | addImm | rnd | ldReg | orReg | andReg | xorReg | ldVxDt | ldVxK | drw =>
    obtain rfl : r = _ := List.mem_singleton.1 h
    simp
  | addReg | subReg | shr | subnReg | shl =>
    obtain rfl | rfl : r = _ ∨ r = _ := by simpa [destinations] using h
    · simp
    · simp
  | loadRegs x =>
    have : r ≤ x := (mem_regsUpTo x r).1 h
    simp [this]
  | _ => cases h

/-- Settles O51: the registers by `exec_regs_kept`, every other field by `exec_writers`. -/
theorem eachRegisterHasItsWriters : Obligations.EachRegisterHasItsWriters := by
  intro i s t h
  have w := exec_writers h
  refine ⟨w.held, w.yWrap, w.stepMode, w.advance, w.tone, w.opcode, fun r hr => ?_, w.pc, w.sp, w.index, w.dt, w.st,
    w.row, w.cell, w.wait⟩
  exact writer_of_destination (by_contra fun hd => hr (exec_regs_kept h r hd))

/-! ## The faults -/

theorem Effect.faulted_eq {i : Instr} {s u : State} (h : Effect i s u) : u.faulted = s.faulted := by
  cases i with
  | cls | nop => subst h; rfl
  | ret => obtain rfl | ⟨p, rfl⟩ := h <;> rfl
  | call => obtain ⟨m, p, rfl, -⟩ := h; rfl
  | ldB | storeRegs => obtain ⟨m, rfl, -⟩ := h; rfl
  | ldImm | addImm | ldReg | orReg | andReg | xorReg | addReg | subReg | shr | subnReg | shl | ldVxDt | loadRegs =>
    obtain ⟨⟨v, rfl⟩, -⟩ := h; rfl
  | drw => obtain ⟨⟨v, d, rfl⟩, -⟩ := h; rfl
  | ldVxK => obtain ⟨-, rfl⟩ | ⟨-, rfl | ⟨k, rfl⟩⟩ := h <;> rfl
  | _ => obtain ⟨w, rfl⟩ := h; rfl

/-- The instructions that can fault, by the cause. -/
theorem Raises.instruction {i : Instr} {s : State} {c : FaultCause} (h : Raises i s c) :
    (∃ a, c = .memoryOutOfRange a ∧ 0x0FFF < a.toNat ∧
      (i = .ret ∨ (∃ nnn, i = .call nnn) ∨ (∃ x y n, i = .drw x y n) ∨
        ∃ x, i = .ldB x ∨ i = .storeRegs x ∨ i = .loadRegs x)) ∨
    (∃ x, c = .keyIndexOutOfRange (s.reg x) ∧ 0x0F < (s.reg x).toNat ∧ (i = .skp x ∨ i = .sknp x)) := by
  cases i with
  | ret | call | drw | ldB | storeRegs | loadRegs =>
    obtain ⟨a, rfl, ha⟩ := h
    exact .inl ⟨a, rfl, ha, by simp⟩
  | skp x | sknp x =>
    obtain ⟨rfl, hk⟩ := h
    exact .inr ⟨x, rfl, hk, by simp⟩
  | _ => exact False.elim h

/-- Settles O49: an instruction records no fault but the one its attempt raises, with the opcode it was given. -/
theorem faultsComeFromTheirInstructions : Obligations.FaultsComeFromTheirInstructions := by
  intro i s t hf h
  obtain ⟨u, hu, rfl | ⟨c, hc, rfl⟩⟩ := exec_cases h
  · exact .inl (hu.faulted_eq.trans hf)
  · have record : (raise c u).faulted = some ⟨c, s.currentOpcode⟩ :=
      congrArg (fun w => some (FaultRecord.mk c w)) hu.writers.opcode
    obtain ⟨a, rfl, ha, hi⟩ | ⟨x, rfl, hk, hi⟩ := hc.instruction
    · exact .inr (.inl ⟨a, record, ha, hi⟩)
    · exact .inr (.inr ⟨x, record, hk, hi⟩)

end Sys2Proof.Machine
end

section
/-! PROOFS. No instruction sees the debug flags, the tone latch (R36, R37) or the model's own flag of a shutdown (R277): replacing
their values and executing commute. Each shared operation commutes with the replacement, and so does every meaning. -/

namespace Sys2Proof.Machine

/-! ## Replacing what no instruction reads -/

/-- The values of the fields no instruction reads. -/
structure Unseen where
  stepMode : Bool
  advance  : Bool
  toneOn   : Bool
  shutDown : Bool

/-- The state with other values in the fields no instruction reads. -/
def State.withUnseen (s : State) (f : Unseen) : State :=
  { s with stepMode := f.stepMode, advance := f.advance, toneOn := f.toneOn, shutDown := f.shutDown }

/-- An attempt with the values replaced in the state it ends in. -/
def Attempt.withUnseen (a : Attempt State) (f : Unseen) : Attempt State :=
  match a with
  | .done t     => .done (t.withUnseen f)
  | .raised c t => .raised c (t.withUnseen f)

section
variable (s : State) (f : Unseen)

theorem storeBytes_withUnseen (a : Word) (bs : List Byte) :
    storeBytes (s.withUnseen f) a bs = (storeBytes s a bs).withUnseen f := by
  induction bs generalizing s a with
  | nil => rfl
  | cons b bs ih =>
    by_cases e : a.toNat < Config.memSize
    · have write (s : State) : memWrite s a b = .done (s.setByte a.toNat b) := if_pos e
      rw [storeBytes, storeBytes, write, write]
      exact ih (s.setByte a.toNat b) (elementAddr a 1)
    · have write (s : State) : memWrite s a b = .raised (.memoryOutOfRange a) s := if_neg e
      rw [storeBytes, storeBytes, write, write]
      rfl

theorem loadBytes_withUnseen (a : Word) (rs : List Reg) :
    loadBytes (s.withUnseen f) a rs = (loadBytes s a rs).withUnseen f := by
  induction rs generalizing s a with
  | nil => rfl
  | cons r rs ih =>
    by_cases e : a.toNat < 4096
    · rw [loadBytes, loadBytes, memRead_inside e, memRead_inside e]
      exact ih (s.setReg r (s.byteAt a.toNat)) (elementAddr a 1)
    · rw [loadBytes, loadBytes, memRead_outside (not_lt.1 e), memRead_outside (not_lt.1 e)]
      rfl

theorem drawRow_withUnseen (r : Fin 32) (mask : PixelRow) :
    drawRow (s.withUnseen f) r mask = (drawRow s r mask).withUnseen f := by
  unfold drawRow
  by_cases h : collides (s.row r) mask = true
  · rw [if_pos h, if_pos (show collides ((s.withUnseen f).row r) mask = true from h)]
    rfl
  · rw [if_neg h, if_neg (show ¬ collides ((s.withUnseen f).row r) mask = true from h)]
    rfl

theorem drawRows_withUnseen (cx ry left i : Nat) :
    drawRows (s.withUnseen f) cx ry left i = (drawRows s cx ry left i).withUnseen f := by
  induction left generalizing s i with
  | zero => rfl
  | succ left ih =>
    have wrap : (s.withUnseen f).yWrapEnabled = s.yWrapEnabled := rfl
    rw [drawRows, drawRows, wrap]
    cases displayRow s.yWrapEnabled (ry + i) with
    | none => rfl
    | some r =>
      have index : (s.withUnseen f).index = s.index := rfl
      have byte (a : Nat) : (s.withUnseen f).byteAt a = s.byteAt a := rfl
      by_cases e : (elementAddr s.index i).toNat < 4096
      · simp only [index, memRead_inside e, andThen_done, byte, drawRow_withUnseen]
        exact ih (drawRow s r _) (i + 1)
      · simp only [index, memRead_outside (not_lt.1 e), andThen_raised]
        rfl

theorem pollKey_withUnseen (x : Reg) : pollKey x (s.withUnseen f) = (pollKey x s).withUnseen f := by
  have choice : nextChoice (s.withUnseen f) = nextChoice s := rfl
  have keys : heldKeys (s.withUnseen f) = heldKeys s := rfl
  unfold pollKey
  rw [choice, keys]
  split <;> rfl

theorem skipIf_withUnseen (c : Bool) : skipIf c (s.withUnseen f) = (skipIf c s).withUnseen f := by
  cases c <;> rfl

theorem keySkip_withUnseen (b : Byte) (g : Bool → Bool) :
    andThen (keyHeld (s.withUnseen f) b) (fun h => .done (skipIf (g h) (s.withUnseen f))) =
      (andThen (keyHeld s b) fun h => .done (skipIf (g h) s)).withUnseen f := by
  by_cases e : 15 < b.toNat
  · rw [keyHeld_outside e, keyHeld_outside e]
    rfl
  · have he : b.toNat = (⟨b.toNat, by omega⟩ : Key).val := rfl
    rw [keyHeld_inside he, keyHeld_inside he, andThen_done, andThen_done, skipIf_withUnseen]
    rfl

theorem andThen_withUnseen (a : Attempt State) {g : State → Attempt State}
    (hg : ∀ u, g (State.withUnseen u f) = (g u).withUnseen f) :
    andThen (a.withUnseen f) g = (andThen a g).withUnseen f := by
  cases a with
  | done u => exact hg u
  | raised c u => rfl

end

theorem finish_withUnseen (a : Attempt State) {t : State} (h : finish a = .next t) (f : Unseen) :
    finish (a.withUnseen f) = .next (t.withUnseen f) := by
  cases a with
  | done u => cases h; rfl
  | raised c u => cases h; rfl

/-- Executing an instruction commutes with the replacement. -/
theorem exec_withUnseen {i : Instr} {s t : State} (h : exec i s = .next t) (f : Unseen) :
    exec i (s.withUnseen f) = .next (t.withUnseen f) := by
  have plain (u : State) (hu : exec i s = .next u) (hf : exec i (s.withUnseen f) = .next (u.withUnseen f)) :
      exec i (s.withUnseen f) = .next (t.withUnseen f) := by
    rw [hu] at h; cases h; exact hf
  have tried (a b : Attempt State) (ha : exec i s = finish a) (hb : exec i (s.withUnseen f) = finish b)
      (hab : b = a.withUnseen f) : exec i (s.withUnseen f) = .next (t.withUnseen f) := by
    rw [hb, hab]
    exact finish_withUnseen a (ha.symm.trans h) f
  cases i with
  | ret =>
    by_cases e : s.sp.toNat + 1 < 4096
    · exact plain _ (exec_ret_inside e) (exec_ret_inside (s := s.withUnseen f) e)
    · have outside : 4095 ≤ s.sp.toNat := by omega
      exact plain _ (exec_ret_outside outside) (exec_ret_outside (s := s.withUnseen f) outside)
  | call nnn =>
    refine tried _ _ rfl rfl ?_
    rw [← andThen_withUnseen f _ fun u => rfl]
    exact congrArg (andThen · _) (storeBytes_withUnseen (s.setSp (s.sp - 2)) f _ _)
  | drw x y n => exact tried _ _ rfl rfl (drawRows_withUnseen (s.setFlag false) f _ _ n.val 0)
  | ldB x => exact tried _ _ rfl rfl (storeBytes_withUnseen s f _ _)
  | storeRegs x => exact tried _ _ rfl rfl (storeBytes_withUnseen s f _ _)
  | loadRegs x => exact tried _ _ rfl rfl (loadBytes_withUnseen s f _ _)
  | skp x => exact tried _ _ rfl rfl (keySkip_withUnseen s f _ id)
  | sknp x => exact tried _ _ rfl rfl (keySkip_withUnseen s f _ not)
  | seImm | sneImm | seReg | sneReg => exact plain _ rfl (congrArg _ (skipIf_withUnseen s f _))
  | ldVxK x =>
    cases hw : s.waitingForKey with
    | false => exact plain _ (exec_ldVxK_idle hw) (exec_ldVxK_idle (s := s.withUnseen f) hw)
    | true =>
      refine plain _ (exec_ldVxK_waiting hw) ((exec_ldVxK_waiting (s := s.withUnseen f) hw).trans ?_)
      rw [pollKey_withUnseen]
  | _ => exact plain _ rfl rfl

/-! ## A shutdown of a running engine -/

/-- What a `Shutdown` leaves of a running engine depends on the model's own fields only. -/
theorem discard_endRun_congr {s s' : State} (h : SameEnvironment [] s s') :
    (popSchedule s').discard.endRun = (popSchedule s).discard.endRun := by
  simp only [SameEnvironment, List.not_mem_nil, not_false_eq_true, forall_const] at h
  obtain ⟨schedule, emitted, -, randomInput, draws, keyInput, picks⟩ := h
  unfold popSchedule State.discard State.endRun
  rw [schedule, emitted, randomInput, draws, keyInput, picks]

theorem step_shutdown {s : State} (hs : s.safe) (hk : nextKind s = .shutdown) :
    step s = .next (popSchedule s).discard.endRun := by
  rw [step_device hs (by simp [hk]), hk]
  rfl

theorem step_shutdown_congr {s s' : State} (hs : s.safe) (hk : nextKind s = .shutdown) (h : SameEnvironment [] s s')
    (hf : s'.faulted = none) : step s' = .next (popSchedule s).discard.endRun := by
  have ⟨schedule, _, shutDown, _⟩ := h
  have running : s'.shutDown = false := (shutDown List.not_mem_nil).trans hs.2
  have kind : nextKind s' = .shutdown := by
    rw [← hk]
    unfold nextKind
    rw [schedule List.not_mem_nil]
  rw [step_shutdown ⟨hf, running⟩ kind, discard_endRun_congr h]

/-! ## The obligations -/

/-- Settles O52: the flags and the latch are replaced, the flag of a shutdown is left. -/
theorem debugFlagsAreInvisible : Obligations.DebugFlagsAreInvisible := by
  intro i s t stepMode advance toneOn h
  show exec i (s.withUnseen ⟨stepMode, advance, toneOn, s.shutDown⟩) =
    .next (t.withUnseen ⟨stepMode, advance, toneOn, t.shutDown⟩)
  rw [(exec_gateKept h).shutDown]
  exact exec_withUnseen h _

/-- Settles O47: a running engine's `Shutdown` leaves what `discard_endRun_congr` says, a faulted one's the whole state; the
flag is among the fields that instructions neither see (`exec_withUnseen`) nor write. -/
theorem noStepAfterShutdown : Obligations.NoStepAfterShutdown := by
  intro s s' n
  refine ⟨fun hs hk => ?_, fun hs hf hk => ?_, fun hs => run_fault (step_shutDown hs) n, fun i b t h => ?_⟩
  · exact ⟨_, step_shutdown hs hk, rfl, rfl, by simp [SameEnvironment], step_shutdown_congr hs hk⟩
  · have steps : step s = .next (popSchedule s).endRun := by rw [step_faulted hf hs, if_pos hk]
    exact ⟨_, steps, rfl, ((sameBut_popSchedule s).append (sameBut_endRun _)).mono (by simp)⟩
  · have w := exec_writers h
    show exec i (s.withUnseen ⟨s.stepMode, s.advance, s.toneOn, b⟩) =
      .next (t.withUnseen ⟨t.stepMode, t.advance, t.toneOn, b⟩)
    rw [w.stepMode, w.advance, w.tone]
    exact exec_withUnseen h _

end Sys2Proof.Machine
end
